-- ==== Sys2Proof/Word.lean ====
section
/-!
DEFINITION. The words of the FixedMath CORE unit and the plainest arithmetic on raw values
(spec/00_scope.md rules R7 and R8): the 64-bit register word, the 32-bit command word, the register
number, the raw constants ONE, MAX and MIN, and the two wraps.

A raw value is a mathematical integer in `[MIN, MAX]`; the pure functions of the unit work on `Int`
(R8: "All arithmetic in pseudocode is on unbounded mathematical integers unless a wrap is written"),
and only registers and port transactions are words.
-/

namespace Sys2Proof

/-- One 64-bit word: the content of an X register, a table entry, a port transaction (R11, R36). -/
abbrev Word := BitVec 64

/-- A 32-bit command word (R45). -/
abbrev CmdWord := BitVec 32

/-- The number of an X register: a 4-bit field naming `X0..X15` directly (R46). -/
abbrev Reg := BitVec 4

/-- The number of a host port register, `0x00..0x1F` (R30). -/
abbrev PortReg := BitVec 5

/-- `ONE`: the raw value of 1.0, `2^32` (R7). -/
def rawOne : Int := 4294967296

/-- `MAX`: the largest raw value, `2^63 − 1` (R7). -/
def rawMax : Int := 9223372036854775807

/-- `MIN`: the smallest raw value, `−2^63` (R7). -/
def rawMin : Int := -9223372036854775808

/-- `v` is a raw value: an integer in `[MIN, MAX]` (R8). -/
abbrev IsRaw (v : Int) : Prop := rawMin ≤ v ∧ v ≤ rawMax

/-- `wrap64(v)`: the integer in `[−2^63, 2^63 − 1]` congruent to `v` modulo `2^64` (R8). -/
def wrap64 (v : Int) : Int := (BitVec.ofInt 64 v).toInt

/-- `u64(v)`: the integer in `[0, 2^64 − 1]` congruent to `v` modulo `2^64` (R8), for the unsigned
variables of DIV and SQRT. -/
def u64 (v : Nat) : Nat := v % 18446744073709551616

/-- The raw value a word stands for: its two's-complement reading (R11). -/
def Word.raw (w : Word) : Int := w.toInt

/-- The word holding `wrap64(v)`: what `X[i] <- v` writes (R8). -/
def Word.ofRaw (v : Int) : Word := BitVec.ofInt 64 v

end Sys2Proof
end

