-- ==== Sys2Proof/Config.lean ====
section
/-!
DEFINITION. What an implementation of the unit fixes (spec/00_scope.md rule R7): the configuration
record, the open parameter BYTE_ORDER, and the free values that stand for `ANY`
(spec/40_arith.md rule R83). The configuration of `exec` and `step`, the defaults of R7, stands in
Sys2Proof/Machine/Configuration.lean beside the test that refuses an ill-formed one.
-/

namespace Sys2Proof

/-- `ITOF_OOR`: what ITOF does on an out-of-range integer. The spec supports the one value `fault`
(R7, spec/93_implementation_defined.md U4). -/
inductive ItofOor where
  /-- raise DomainError (R80). -/
  | fault
deriving DecidableEq, Repr

/-- `BYTE_ORDER`: the order of the bytes of a raw value outside the unit (R36). -/
inductive ByteOrder where
  /-- least significant byte first. -/
  | little
  /-- most significant byte first. -/
  | big
deriving DecidableEq, Repr, Inhabited

/-- The configuration record of R7: the named constants as raw values and the two table ROMs, each a
function of the entry index to the 64-bit entry (R32, R36). Only indices `0..LUT_N − 1` are entries;
`romRead` gives no value elsewhere. -/
structure Config where
  /-- `PI` -/
  pi : Int
  /-- `PI_OVER_2` -/
  piOver2 : Int
  /-- `PI_TIMES_2` -/
  piTimes2 : Int
  /-- `LN2` -/
  ln2 : Int
  /-- `LOG2MAX` -/
  log2Max : Int
  /-- `LOG2MIN` -/
  log2Min : Int
  /-- `EPSILON` -/
  epsilon : Int
  /-- `LARGE_PI`, the raw value of `2^29 · π` -/
  largePi : Int
  /-- `K028`, the raw value of 0.28 -/
  k028 : Int
  /-- `ITOF_OOR` -/
  itofOor : ItofOor
  /-- `SINLUT` (R17) -/
  sinLut : Nat → Word
  /-- `TANLUT` (R18) -/
  tanLut : Nat → Word

/-- `LUT_N = PI_OVER_2 >> 15`, the number of entries of each table (R7). -/
def Config.lutN (c : Config) : Int := c.piOver2 / 32768

/-- The value of the `n`-th draw of `ANY` (R63: "a model treats the value as an unconstrained draw and
a proof may assume nothing about it"). It has no body: no theorem can depend on what it is. -/
opaque Config.anyWord : Nat → Word

/-- `BYTE_ORDER`, left OPEN by the spec (R7, R36). No rule of the machine reads it. -/
opaque Config.byteOrder : ByteOrder

end Sys2Proof
end

