-- ==== Sys2Proof/Machine/Numeric.lean ====
section
/-!
DEFINITION. The named operations on mathematical integers of spec/00_scope.md rule R8 that the pure
functions of the commands are written with, and the byte order of a raw value outside the unit (R36).
-/

namespace Sys2Proof.Machine

/-- `clamp(v)`: saturation into `[MIN, MAX]` (R8). -/
def clamp (v : Int) : Int :=
  if v > rawMax then rawMax else if v < rawMin then rawMin else v

/-- `trem(a, b)`: the truncating remainder, zero or of the sign of `a` (R8). -/
def trem (a b : Int) : Int := a.tmod b

/-- `mulfloor(a, b) = floor(a · b / 2^32)`, an unbounded integer (R8). -/
def mulfloor (a b : Int) : Int := a * b / 4294967296

/-- `clz64(v)` for `0 < v < 2^64`: the number of leading zero bits (R8). -/
def clz64 (v : Nat) : Nat := 63 - Nat.log2 v

/-- `v[31:0]`, the fractional part of a raw value as an unsigned integer (R8). -/
def lowHalf (v : Int) : Int := v % 4294967296

/-- `v >> 32` on a signed integer: `floor(v / 2^32)` (R8). -/
def highHalf (v : Int) : Int := v / 4294967296

/-- A raw value as the sequence of bytes that leaves the unit, first byte first, in the given order
(R36: the one place where byte order arises; no command does this). -/
def wordBytes (o : ByteOrder) (w : Word) : List (BitVec 8) :=
  let le := (List.range 8).map fun i => w.extractLsb' (8 * i) 8
  match o with
  | .little => le
  | .big => le.reverse

end Sys2Proof.Machine
end

