-- ==== Sys2Proof/Syntax.lean ====
section
/-!
DEFINITION. The 37 commands of spec/opcode_table.json (spec/30_encoding.md rule R51), one constructor
each, with the operands of their formats (R47 to R49): R3 commands name `rd`, `ra`, `rb`; R2 commands
name `rd`, `ra`; LDC names `rd` and the constant index `k`.
-/

namespace Sys2Proof

/-- A decoded command. Field order is destination, first source, second source (R56). -/
inductive Instr where
  /-- ADD, saturating addition (R61). -/
  | add (rd ra rb : Reg)
  /-- SUB, saturating subtraction (R62). -/
  | sub (rd ra rb : Reg)
  /-- MUL, saturating fixed-point multiplication (R65). -/
  | mul (rd ra rb : Reg)
  /-- DIV, rounding and saturating division (R69). -/
  | div (rd ra rb : Reg)
  /-- MOD, truncating remainder with one guarded case (R71). -/
  | mod (rd ra rb : Reg)
  /-- NEG, saturating negation (R73). -/
  | neg (rd ra : Reg)
  /-- FADD, addition without the saturation check (R63). -/
  | fadd (rd ra rb : Reg)
  /-- FSUB, subtraction without the saturation check (R64). -/
  | fsub (rd ra rb : Reg)
  /-- FMUL, multiplication without the three checks (R68). -/
  | fmul (rd ra rb : Reg)
  /-- FMOD, remainder without the guard (R72). -/
  | fmod (rd ra rb : Reg)
  /-- CEQ, equality (R74). -/
  | ceq (rd ra rb : Reg)
  /-- CNE, inequality (R75). -/
  | cne (rd ra rb : Reg)
  /-- CLT, signed less than (R76). -/
  | clt (rd ra rb : Reg)
  /-- CLE, signed less or equal (R77). -/
  | cle (rd ra rb : Reg)
  /-- CGT, signed greater than (R78). -/
  | cgt (rd ra rb : Reg)
  /-- CGE, signed greater or equal (R79). -/
  | cge (rd ra rb : Reg)
  /-- ITOF, integer to FixedScalar (R80). -/
  | itof (rd ra : Reg)
  /-- FTOI, FixedScalar to integer (R81). -/
  | ftoi (rd ra : Reg)
  /-- LDC, load a named constant (R82); `k` is the constant index of R49. -/
  | ldc (rd : Reg) (k : BitVec 4)
  /-- SIGN (R90). -/
  | sign (rd ra : Reg)
  /-- ABS (R91). -/
  | abs (rd ra : Reg)
  /-- FLOOR (R92). -/
  | floor (rd ra : Reg)
  /-- CEIL (R93). -/
  | ceil (rd ra : Reg)
  /-- ROUND, half to even (R94). -/
  | round (rd ra : Reg)
  /-- SQRT (R100). -/
  | sqrt (rd ra : Reg)
  /-- LOG2 (R105). -/
  | log2 (rd ra : Reg)
  /-- LN (R107). -/
  | ln (rd ra : Reg)
  /-- POW2 (R108). -/
  | pow2 (rd ra : Reg)
  /-- POW, base in `ra`, exponent in `rb` (R110). -/
  | pow (rd ra rb : Reg)
  /-- SIN (R124). -/
  | sin (rd ra : Reg)
  /-- COS (R127). -/
  | cos (rd ra : Reg)
  /-- TAN (R129). -/
  | tan (rd ra : Reg)
  /-- FSIN (R125). -/
  | fsin (rd ra : Reg)
  /-- FCOS (R128). -/
  | fcos (rd ra : Reg)
  /-- ACOS (R144). -/
  | acos (rd ra : Reg)
  /-- ATAN (R140). -/
  | atan (rd ra : Reg)
  /-- ATAN2, `y` in `ra`, `x` in `rb` (R142). -/
  | atan2 (rd ra rb : Reg)
deriving DecidableEq, Repr

end Sys2Proof
end

