-- ==== Sys2Proof/WellFormed.lean ====
section
/-!
DEFINITION. Which terms of `Instr` an encoding exists for. Every register field is legal at every
value (spec/30_encoding.md rule R46); the one operand that is not is LDC's constant index, which must
be at most 10 (R49, R53 (d)).
-/

namespace Sys2Proof

/-- The constant index names an entry of the table of R49 (`k <= 10`). -/
def constantIndexOk (k : BitVec 4) : Bool := k.toNat ≤ 10

/-- A command that some legal word encodes. -/
def Instr.wellFormed : Instr → Bool
  | .ldc _ k => constantIndexOk k
  | _ => true

end Sys2Proof
end

