-- ==== Sys2Proof/Decode.lean ====
section
/-!
DEFINITION. Decoding and encoding of command words (spec/30_encoding.md rules R45 to R57). The decoder
is total on 32-bit words and says by name why a word is illegal (R53); the encoder is R56's formula.
There are no bytes here: a command arrives whole in the CMD write (R36, R45).
-/

namespace Sys2Proof

/-- Why a command word is not legal: the cases of R53. -/
inductive IllegalReason where
  /-- (a) the opcode is not one of the 37. -/
  | unassignedOpcode
  /-- (b) bits 11:0 are not zero. -/
  | zeroFieldSet
  /-- (c) bits 15:12 are not zero in format R2 or K. -/
  | rbFieldSet
  /-- (d) the command is LDC and its constant index is above 10. -/
  | reservedConstant
deriving DecidableEq, Repr

/-- What the decoder answers. -/
inductive Decoded where
  /-- a legal word: the command it encodes. -/
  | command (i : Instr)
  /-- an illegal word. -/
  | illegal (r : IllegalReason)
deriving DecidableEq, Repr

/-- The operand format an opcode selects, with the command it makes of the operands (R47 to R49). -/
inductive Format where
  /-- R3: two sources. -/
  | r3 (make : Reg → Reg → Reg → Instr)
  /-- R2: one source. -/
  | r2 (make : Reg → Reg → Instr)
  /-- K: a constant index. -/
  | k (make : Reg → BitVec 4 → Instr)

/-- `OPC`, bits 31:24 (R46). -/
def opcField (w : CmdWord) : BitVec 8 := w.extractLsb' 24 8

/-- `RD`, bits 23:20 (R46). -/
def rdField (w : CmdWord) : Reg := w.extractLsb' 20 4

/-- `RA`, bits 19:16; the constant index in format K (R46, R49). -/
def raField (w : CmdWord) : Reg := w.extractLsb' 16 4

/-- `RB`, bits 15:12 (R46). -/
def rbField (w : CmdWord) : Reg := w.extractLsb' 12 4

/-- `ZERO`, bits 11:0 (R46). -/
def zeroField (w : CmdWord) : BitVec 12 := w.extractLsb' 0 12

/-- The opcode map of R51: the format of each of the 37 assigned opcodes. -/
def formatOf (opc : BitVec 8) : Option Format :=
  match opc with
  | 0x01#8 => some (.r3 .add)
  | 0x02#8 => some (.r3 .sub)
  | 0x03#8 => some (.r3 .mul)
  | 0x04#8 => some (.r3 .div)
  | 0x05#8 => some (.r3 .mod)
  | 0x06#8 => some (.r2 .neg)
  | 0x09#8 => some (.r3 .fadd)
  | 0x0A#8 => some (.r3 .fsub)
  | 0x0B#8 => some (.r3 .fmul)
  | 0x0D#8 => some (.r3 .fmod)
  | 0x10#8 => some (.r3 .ceq)
  | 0x11#8 => some (.r3 .cne)
  | 0x12#8 => some (.r3 .clt)
  | 0x13#8 => some (.r3 .cle)
  | 0x14#8 => some (.r3 .cgt)
  | 0x15#8 => some (.r3 .cge)
  | 0x18#8 => some (.r2 .itof)
  | 0x19#8 => some (.r2 .ftoi)
  | 0x1C#8 => some (.k .ldc)
  | 0x20#8 => some (.r2 .sign)
  | 0x21#8 => some (.r2 .abs)
  | 0x22#8 => some (.r2 .floor)
  | 0x23#8 => some (.r2 .ceil)
  | 0x24#8 => some (.r2 .round)
  | 0x28#8 => some (.r2 .sqrt)
  | 0x30#8 => some (.r2 .log2)
  | 0x31#8 => some (.r2 .ln)
  | 0x32#8 => some (.r2 .pow2)
  | 0x33#8 => some (.r3 .pow)
  | 0x38#8 => some (.r2 .sin)
  | 0x39#8 => some (.r2 .cos)
  | 0x3A#8 => some (.r2 .tan)
  | 0x3C#8 => some (.r2 .fsin)
  | 0x3D#8 => some (.r2 .fcos)
  | 0x40#8 => some (.r2 .acos)
  | 0x41#8 => some (.r2 .atan)
  | 0x42#8 => some (.r3 .atan2)
  | _ => none

/-- The decoding procedure of R52 with the illegal cases of R53, tested in R53's order. -/
def decode (w : CmdWord) : Decoded :=
  match formatOf (opcField w) with
  | none => .illegal .unassignedOpcode
  | some f =>
    if zeroField w ≠ 0#12 then .illegal .zeroFieldSet
    else match f with
      | .r3 make => .command (make (rdField w) (raField w) (rbField w))
      | .r2 make =>
        if rbField w ≠ 0#4 then .illegal .rbFieldSet
        else .command (make (rdField w) (raField w))
      | .k make =>
        if rbField w ≠ 0#4 then .illegal .rbFieldSet
        else if constantIndexOk (raField w) then .command (make (rdField w) (raField w))
        else .illegal .reservedConstant

/-- `OPC | RD | RA | RB | 000000000000` (R47, R56). -/
def encodeFields (opc : BitVec 8) (rd ra rb : Reg) : CmdWord := opc ++ rd ++ ra ++ rb ++ 0#12

/-- Format R3 (R47). -/
def encodeR3 (opc : BitVec 8) (rd ra rb : Reg) : CmdWord := encodeFields opc rd ra rb

/-- Format R2, and format K with the constant index in the RA field: RB is zero (R48, R49). -/
def encodeR2 (opc : BitVec 8) (rd ra : Reg) : CmdWord := encodeFields opc rd ra 0#4

/-- The command word of a command, `(OPC << 24) | (rd << 20) | (ra << 16) | (rb << 12)` (R56). -/
def encode : Instr → CmdWord
  | .add rd ra rb => encodeR3 0x01#8 rd ra rb
  | .sub rd ra rb => encodeR3 0x02#8 rd ra rb
  | .mul rd ra rb => encodeR3 0x03#8 rd ra rb
  | .div rd ra rb => encodeR3 0x04#8 rd ra rb
  | .mod rd ra rb => encodeR3 0x05#8 rd ra rb
  | .neg rd ra => encodeR2 0x06#8 rd ra
  | .fadd rd ra rb => encodeR3 0x09#8 rd ra rb
  | .fsub rd ra rb => encodeR3 0x0A#8 rd ra rb
  | .fmul rd ra rb => encodeR3 0x0B#8 rd ra rb
  | .fmod rd ra rb => encodeR3 0x0D#8 rd ra rb
  | .ceq rd ra rb => encodeR3 0x10#8 rd ra rb
  | .cne rd ra rb => encodeR3 0x11#8 rd ra rb
  | .clt rd ra rb => encodeR3 0x12#8 rd ra rb
  | .cle rd ra rb => encodeR3 0x13#8 rd ra rb
  | .cgt rd ra rb => encodeR3 0x14#8 rd ra rb
  | .cge rd ra rb => encodeR3 0x15#8 rd ra rb
  | .itof rd ra => encodeR2 0x18#8 rd ra
  | .ftoi rd ra => encodeR2 0x19#8 rd ra
  | .ldc rd k => encodeR2 0x1C#8 rd k
  | .sign rd ra => encodeR2 0x20#8 rd ra
  | .abs rd ra => encodeR2 0x21#8 rd ra
  | .floor rd ra => encodeR2 0x22#8 rd ra
  | .ceil rd ra => encodeR2 0x23#8 rd ra
  | .round rd ra => encodeR2 0x24#8 rd ra
  | .sqrt rd ra => encodeR2 0x28#8 rd ra
  | .log2 rd ra => encodeR2 0x30#8 rd ra
  | .ln rd ra => encodeR2 0x31#8 rd ra
  | .pow2 rd ra => encodeR2 0x32#8 rd ra
  | .pow rd ra rb => encodeR3 0x33#8 rd ra rb
  | .sin rd ra => encodeR2 0x38#8 rd ra
  | .cos rd ra => encodeR2 0x39#8 rd ra
  | .tan rd ra => encodeR2 0x3A#8 rd ra
  | .fsin rd ra => encodeR2 0x3C#8 rd ra
  | .fcos rd ra => encodeR2 0x3D#8 rd ra
  | .acos rd ra => encodeR2 0x40#8 rd ra
  | .atan rd ra => encodeR2 0x41#8 rd ra
  | .atan2 rd ra rb => encodeR3 0x42#8 rd ra rb

/-- The command an instruction of the opcode table decodes to, its bits given as a number with bit 0 the
least significant (for the host's checks). A command is one 32-bit word; a set bit above bit 31 makes no
command (R45, R50). -/
def decodeTableWord (nbits w : Nat) : Option Instr :=
  if w % 2 ^ nbits < 4294967296 then
    match decode (BitVec.ofNat 32 (w % 2 ^ nbits)) with
    | .command i => some i
    | .illegal _ => none
  else none

end Sys2Proof
end

