-- ==== Sys2Proof/Machine/State.lean ====
section
/-!
DEFINITION. The state of the FixedMath CORE unit (spec/10_state.md rules R10 to R25) as plain data, the
events of its host port (spec/20_memory.md rule R30), and its reset state (spec/70_reset_and_hazards.md
rule R170).

The spec gives the machine `X0..X15`, `ERR` and `FCMD` and nothing else that can change (R10). Three
more fields are the MODEL's, not the spec's: the host's side of the port (`inbox`, `replies`), since the
machine has no fetch and its input is the next host transaction (R12), and the counter that makes
successive `ANY` values distinct draws (`draws`).
-/

namespace Sys2Proof.Machine

/-- The three error kinds (R150). -/
inductive ErrorKind where
  /-- DivideByZero, `ERR` = 1. -/
  | divideByZero
  /-- DomainError, `ERR` = 2. -/
  | domainError
  /-- IllegalCommand, `ERR` = 3. -/
  | illegalCommand
deriving DecidableEq, Repr

/-- The error field `ERR` (R14): no error latched, or the kind that is latched. These are the states
`Ready` and `ErrorHold(k)` of R169; the 2-bit code is `Err.code`. -/
inductive Err where
  /-- `NONE`: commands are accepted. -/
  | none
  /-- an error of this kind is latched: commands are dropped until ERRACK (R156). -/
  | latched (k : ErrorKind)
deriving DecidableEq, Repr

/-- One event at the unit's inputs: a transaction of the host port (R30) or the reset input (R170). -/
inductive HostEvent where
  /-- `HostRead(n)`. -/
  | read (n : PortReg)
  /-- `HostWrite(n, v)`. -/
  | write (n : PortReg) (v : Word)
  /-- `Reset`. -/
  | reset
deriving DecidableEq, Repr

/-- The machine's state: the unit's registers (R10) and the model's own fields for the host's side of
the port. -/
structure State where
  /-- the general registers `X0..X15` (R11). -/
  x : Vector Word 16
  /-- the error field `ERR` (R14). -/
  err : Err
  /-- the faulting-command register `FCMD` (R15). -/
  fcmd : CmdWord
  /-- MODEL: the host transactions and resets still to come, next first (R12, R40). -/
  inbox : List HostEvent
  /-- MODEL: the values `HostRead` has returned so far, oldest first (R30). -/
  replies : List Word
  /-- MODEL: how many `ANY` values have been drawn (R63). -/
  draws : Nat
deriving DecidableEq, Repr

/-- The reasons the machine stops. -/
inductive Fault where
  /-- Raised by SIN, COS, FSIN, FCOS and TAN when a table index leaves `[0, LUT_N − 1]` (R33): by U7 of
  spec/93_implementation_defined.md such a `RomRead` "is not given a value". Safe: the model stops where the
  spec gives no value, and under a well-formed configuration it cannot happen. -/
  | romIndexOutOfRange
deriving DecidableEq, Repr

/-- The reasons an instruction has no meaning. -/
inductive Refusal where
  /-- Raised by an arm of `exec` whose instruction is not modelled. No arm raises it. Safe: the model
  stops where the hardware goes on. -/
  | notModelled (mnemonic : String)
deriving DecidableEq, Repr

/-- The machine right after reset (R24, R170): every X register 0, `ERR` = NONE, `FCMD` = 0. The model's
own fields start empty. -/
def State.reset : State where
  x := Vector.replicate 16 0#64
  err := .none
  fcmd := 0#32
  inbox := []
  replies := []
  draws := 0

end Sys2Proof.Machine
end

