-- ==== Sys2Proof/Machine/Ops.lean ====
section
/-!
DEFINITION. The named operations over the unit's state: reading and writing an X register, raising an
error and the acknowledge that ends error hold (spec/60_exceptions.md rules R152 and R157), reset (R170),
drawing an `ANY` value (R63), reading a table ROM (spec/20_memory.md rule R33), and the completion of a
command (spec/30_encoding.md rule R50).
-/

namespace Sys2Proof.Machine

/-- The outcome of a step of this machine. -/
abbrev Result := Host.Outcome State Fault Refusal

/-- What the pure function of a command answers (R9, R50): a raw value, or the error it raises, or `ANY`
outside the safe range of a fast command (R83), or no value because a table index has no entry (R33). -/
inductive Res where
  /-- it returns a raw value. -/
  | value (v : Int)
  /-- `ANY`: any 64-bit value (R63). -/
  | any
  /-- it raises DivideByZero. -/
  | divideByZero
  /-- it raises DomainError. -/
  | domainError
  /-- a `RomRead` outside the table (R33). -/
  | noEntry
deriving DecidableEq, Repr

/-- The use of one pure function inside another: an inner error is the error of the command (R9). -/
def Res.andThen (r : Res) (f : Int → Res) : Res :=
  match r with
  | .value v => f v
  | .any => .any
  | .divideByZero => .divideByZero
  | .domainError => .domainError
  | .noEntry => .noEntry

/-- `X[r]` as a word (R8, R11). No register is hardwired. -/
def State.readX (s : State) (r : Reg) : Word := s.x[r.toNat]

/-- `X[r] <- w`: all 64 bits of one register (R8, R11). -/
def State.writeX (s : State) (r : Reg) (w : Word) : State := { s with x := s.x.set r.toNat w }

/-- `raise k` in a command issued by the word `w` (R152): `ERR` and `FCMD` are written, nothing else
changes, and the command is finished. The return from it is `State.acknowledge`. -/
def State.raise (s : State) (k : ErrorKind) (w : CmdWord) : State :=
  { s with err := .latched k, fcmd := w }

/-- The ERRACK write (R157), the return from error hold: `ERR <- NONE` and nothing else. -/
def State.acknowledge (s : State) : State := { s with err := .none }

/-- `Reset` (R170): the registers of the unit take their reset values. What is outside the unit (the
host's remaining transactions and the values it has read) and the count of draws are not the unit's. -/
def State.resetUnit (s : State) : State :=
  { s with x := State.reset.x, err := State.reset.err, fcmd := State.reset.fcmd }

/-- `X[r] <- ANY` (R63): a fresh draw of the free value, and nothing else of the unit changes. -/
def State.writeAny (s : State) (r : Reg) : State :=
  { s.writeX r (Config.anyWord s.draws) with draws := s.draws + 1 }

/-- `RomRead(space, i)` on a table of `n` entries (R33): the raw value of a whole 64-bit entry (R38), and no
value outside `[0, n − 1]`. -/
def romRead (n : Int) (table : Nat → Word) (i : Int) : Res :=
  if 0 ≤ i ∧ i < n then .value (table i.toNat).raw else .noEntry

/-- The end of a command's execution (R50): write the destination, or raise with the command's own word
`w` (R152, R154) and leave every X register as it was. -/
def finish (w : CmdWord) (rd : Reg) (r : Res) (s : State) : Result :=
  match r with
  | .value v => .next (s.writeX rd (Word.ofRaw v))
  | .any => .next (s.writeAny rd)
  | .divideByZero => .next (s.raise .divideByZero w)
  | .domainError => .next (s.raise .domainError w)
  | .noEntry => .fault .romIndexOutOfRange

end Sys2Proof.Machine
end

