-- ==== Sys2Proof/Machine/Flags.lean ====
section
/-!
DEFINITION. The unit has no flags, no condition codes and no predicate registers (spec/10_state.md rule
R13), so no command computes any. What status it has is the error field: its 2-bit code (R14), the value
of the STATUS register (R16) and the level output `fault_o` (spec/60_exceptions.md rule R161), each a view
of `ERR` and no state of its own. The truth values of the compare commands are ordinary register contents
(R74).
-/

namespace Sys2Proof.Machine

/-- The code of an error kind (R14, R150). -/
def ErrorKind.code : ErrorKind → BitVec 2
  | .divideByZero => 1#2
  | .domainError => 2#2
  | .illegalCommand => 3#2

/-- The value of the 2-bit field `ERR` (R14). -/
def Err.code : Err → BitVec 2
  | .none => 0#2
  | .latched k => k.code

/-- What STATUS reads as: `ERR` in bits 1:0, zeros above (R16). -/
def State.status (s : State) : Word := s.err.code.zeroExtend 64

/-- The output `fault_o = (ERR != NONE)` (R161). -/
def State.faultO (s : State) : Bool := s.err ≠ .none

/-- The result of a comparison: the plain integer 1 or 0 (R74). -/
def truth (b : Bool) : Int := if b then 1 else 0

end Sys2Proof.Machine
end

