-- ==== Sys2Proof/Machine/Operands.lean ====
section
/-!
DEFINITION. The operand forms of spec/30_encoding.md rules R47 to R49 and R54: a register read as a raw
value (or as a plain signed integer: the same 64-bit two's-complement reading, R11), and nothing else; the
constant name of format K is in Sys2Proof/Machine/Constants.lean. Each form reads every source before the
destination is written (R50, R59).

`i` is the command being executed: its word, `encode i`, is what a raise latches in FCMD (R152, R154).
-/

namespace Sys2Proof.Machine

/-- A register operand: `X[r]` as a signed integer in `[MIN, MAX]` (R11). -/
def State.rawX (s : State) (r : Reg) : Int := (s.readX r).raw

/-- Format R3: `X[rd] <- f(X[ra], X[rb])` (R47, R50). -/
def execR3 (i : Instr) (f : Int → Int → Res) (rd ra rb : Reg) (s : State) : Result :=
  finish (encode i) rd (f (s.rawX ra) (s.rawX rb)) s

/-- Format R2: `X[rd] <- f(X[ra])` (R48, R50). -/
def execR2 (i : Instr) (f : Int → Res) (rd ra : Reg) (s : State) : Result :=
  finish (encode i) rd (f (s.rawX ra)) s

end Sys2Proof.Machine
end

