-- ==== Sys2Proof/Machine/Arith.lean ====
section
/-!
DEFINITION. The FixedScalar arithmetic core (spec/40_arith.md): ADD SUB FADD FSUB MUL FMUL DIV MOD FMOD NEG,
the compares, ITOF and FTOI. For each command its pure function (`fAdd` for the spec's `F_ADD`, and so on)
and its meaning. LDC is in Sys2Proof/Machine/Constants.lean.
-/

namespace Sys2Proof.Machine

/-! ## Add, subtract, negate -/

/-- `F_ADD` (R61). -/
def fAdd (a b : Int) : Int := clamp (a + b)

/-- `F_SUB` (R62). -/
def fSub (a b : Int) : Int := clamp (a - b)

/-- `F_FADD` (R63): the sum inside the safe range of R83, `ANY` outside it. -/
def fFadd (a b : Int) : Res := if IsRaw (a + b) then .value (a + b) else .any

/-- `F_FSUB` (R64). -/
def fFsub (a b : Int) : Res := if IsRaw (a - b) then .value (a - b) else .any

/-- `F_NEG` (R73). -/
def fNeg (a : Int) : Int := if a = rawMin then rawMax else -a

/-! ## Multiply -/

/-- `AddOv(x, y, ov)` (R65): a wrapped addition that flags the carry into bit 63, the sign bit of
`x ^ y ^ t`. -/
def addOv (x y : Int) (ov : Bool) : Int × Bool :=
  let t := wrap64 (x + y)
  (t, ov || (Word.ofRaw x ^^^ Word.ofRaw y ^^^ Word.ofRaw t).msb)

/-- The accumulated sum of the four partial products and its overflow flag (R65). -/
def mulSum (a b : Int) : Int × Bool :=
  let loRes := lowHalf a * lowHalf b / 4294967296
  let lohi := lowHalf a * highHalf b
  let hilo := highHalf a * lowHalf b
  let hiRes := wrap64 (highHalf a * highHalf b * 4294967296)
  let p := addOv loRes lohi false
  let q := addOv p.1 hilo p.2
  addOv q.1 hiRes q.2

/-- `F_MUL` (R65): the sum of the partial products under the three-part saturation policy. -/
def fMul (a b : Int) : Int :=
  let s := (mulSum a b).1
  let ov := (mulSum a b).2
  let signsEqual : Bool := decide (a < 0) == decide (b < 0)
  let top := highHalf (highHalf a * highHalf b)
  let pos := if a > b then a else b
  let neg := if a > b then b else a
  -- policy (a)
  if signsEqual ∧ (s < 0 ∨ (ov ∧ a > 0)) then rawMax
  else if ¬ signsEqual ∧ s > 0 then rawMin
  -- policy (b)
  else if top ≠ 0 ∧ top ≠ -1 then (if signsEqual then rawMax else rawMin)
  -- policy (c)
  else if ¬ signsEqual ∧ s > neg ∧ neg < -rawOne ∧ pos > rawOne then rawMin
  else s

/-- `F_FMUL` (R68): the exact floor product inside the safe range of R83, `ANY` outside it. -/
def fFmul (a b : Int) : Res := if IsRaw (mulfloor a b) then .value (mulfloor a b) else .any

/-! ## Divide and modulo -/

/-- R69's first loop: drop trailing zero nibbles of the divisor, at most `fuel` of them (R177: 8). -/
def skipNibbles : (fuel dvr bitpos : Nat) → Nat × Nat
  | 0, dvr, bitpos => (dvr, bitpos)
  | fuel + 1, dvr, bitpos =>
    if dvr % 16 = 0 ∧ 4 ≤ bitpos then skipNibbles fuel (dvr / 16) (bitpos - 4) else (dvr, bitpos)

/-- R69's main loop on unsigned 64-bit variables: the doubled quotient, or none where the quotient
overflows. At most `fuel` iterations (R177: 34); `bitpos = −1`, which ends the loop, is reached from
`bitpos = 0`. -/
def divLoop : (fuel rem dvr quo bitpos : Nat) → Option Nat
  | 0, _, _, quo, _ => some quo
  | fuel + 1, rem, dvr, quo, bitpos =>
    if rem = 0 then some quo
    else
      let shift := min (clz64 rem) bitpos
      let rem1 := u64 (rem <<< shift)
      let bp := bitpos - shift
      let d := rem1 / dvr
      let quo1 := u64 (quo + u64 (d <<< bp))
      -- d has a bit at or above position 64 − bitpos
      if d >>> (64 - bp) ≠ 0 then none
      else if bp = 0 then some quo1
      else divLoop fuel (u64 ((rem1 % dvr) <<< 1)) dvr quo1 (bp - 1)

/-- The divider of R69 for a non-zero divisor. -/
def divide (a b : Int) : Int :=
  let k := skipNibbles 8 b.natAbs 33
  let negative : Bool := decide (a < 0) != decide (b < 0)
  match divLoop 34 a.natAbs k.1 0 k.2 with
  | none => if negative then rawMin else rawMax
  | some quo =>
    let res : Int := ((u64 (quo + 1) >>> 1 : Nat) : Int)
    wrap64 (if negative then -res else res)

/-- `F_DIV` (R69): the divisor is tested before anything else. -/
def fDiv (a b : Int) : Res := if b = 0 then .divideByZero else .value (divide a b)

/-- `F_MOD` (R71). -/
def fMod (a b : Int) : Res :=
  if b = 0 then .divideByZero
  else if a = rawMin ∧ b = -1 then .value 0
  else .value (trem a b)

/-- `F_FMOD` (R72): `ANY` on the one pair the guard is for. -/
def fFmod (a b : Int) : Res :=
  if b = 0 then .divideByZero
  else if a = rawMin ∧ b = -1 then .any
  else .value (trem a b)

/-! ## Conversions -/

/-- `F_ITOF` (R80), with `ITOF_OOR = fault`. -/
def fItof (n : Int) : Res :=
  if n < -2147483648 ∨ n > 2147483647 then .domainError else .value (n * 4294967296)

/-- `F_FTOI` (R81): an arithmetic shift, rounding toward negative infinity. -/
def fFtoi (a : Int) : Int := highHalf a

/-! ## The commands -/

/-- ADD (R61). -/
def execAdd (rd ra rb : Reg) (s : State) : Result :=
  execR3 (.add rd ra rb) (fun a b => .value (fAdd a b)) rd ra rb s

/-- SUB (R62). -/
def execSub (rd ra rb : Reg) (s : State) : Result :=
  execR3 (.sub rd ra rb) (fun a b => .value (fSub a b)) rd ra rb s

/-- MUL (R65). -/
def execMul (rd ra rb : Reg) (s : State) : Result :=
  execR3 (.mul rd ra rb) (fun a b => .value (fMul a b)) rd ra rb s

/-- DIV (R69). -/
def execDiv (rd ra rb : Reg) (s : State) : Result := execR3 (.div rd ra rb) fDiv rd ra rb s

/-- MOD (R71). -/
def execMod (rd ra rb : Reg) (s : State) : Result := execR3 (.mod rd ra rb) fMod rd ra rb s

/-- NEG (R73). -/
def execNeg (rd ra : Reg) (s : State) : Result :=
  execR2 (.neg rd ra) (fun a => .value (fNeg a)) rd ra s

/-- FADD (R63). -/
def execFadd (rd ra rb : Reg) (s : State) : Result := execR3 (.fadd rd ra rb) fFadd rd ra rb s

/-- FSUB (R64). -/
def execFsub (rd ra rb : Reg) (s : State) : Result := execR3 (.fsub rd ra rb) fFsub rd ra rb s

/-- FMUL (R68). -/
def execFmul (rd ra rb : Reg) (s : State) : Result := execR3 (.fmul rd ra rb) fFmul rd ra rb s

/-- FMOD (R72). -/
def execFmod (rd ra rb : Reg) (s : State) : Result := execR3 (.fmod rd ra rb) fFmod rd ra rb s

/-- CEQ (R74). -/
def execCeq (rd ra rb : Reg) (s : State) : Result :=
  execR3 (.ceq rd ra rb) (fun a b => .value (truth (a = b))) rd ra rb s

/-- CNE (R75). -/
def execCne (rd ra rb : Reg) (s : State) : Result :=
  execR3 (.cne rd ra rb) (fun a b => .value (truth (a ≠ b))) rd ra rb s

/-- CLT (R76). -/
def execClt (rd ra rb : Reg) (s : State) : Result :=
  execR3 (.clt rd ra rb) (fun a b => .value (truth (a < b))) rd ra rb s

/-- CLE (R77). -/
def execCle (rd ra rb : Reg) (s : State) : Result :=
  execR3 (.cle rd ra rb) (fun a b => .value (truth (a ≤ b))) rd ra rb s

/-- CGT (R78). -/
def execCgt (rd ra rb : Reg) (s : State) : Result :=
  execR3 (.cgt rd ra rb) (fun a b => .value (truth (a > b))) rd ra rb s

/-- CGE (R79). -/
def execCge (rd ra rb : Reg) (s : State) : Result :=
  execR3 (.cge rd ra rb) (fun a b => .value (truth (a ≥ b))) rd ra rb s

/-- ITOF (R80). -/
def execItof (rd ra : Reg) (s : State) : Result := execR2 (.itof rd ra) fItof rd ra s

/-- FTOI (R81). -/
def execFtoi (rd ra : Reg) (s : State) : Result :=
  execR2 (.ftoi rd ra) (fun a => .value (fFtoi a)) rd ra s

end Sys2Proof.Machine
end

