-- ==== Sys2Proof/Machine/Elementary.lean ====
section
/-!
DEFINITION. The Elementary Ops (spec/41_elementary.md): SIGN ABS FLOOR CEIL ROUND. None raises an error.
-/

namespace Sys2Proof.Machine

/-- `F_SIGN` (R90): the plain integer −1, 0 or 1. -/
def fSign (a : Int) : Int := if a < 0 then -1 else if a = 0 then 0 else 1

/-- `F_ABS` (R91). -/
def fAbs (a : Int) : Int := if a = rawMin then rawMax else |a|

/-- `F_FLOOR` (R92): `2^32 · floor(a / 2^32)`. -/
def fFloor (a : Int) : Int := highHalf a * 4294967296

/-- `F_CEIL` (R93); the addition saturates. -/
def fCeil (a : Int) : Int := if lowHalf a = 0 then a else fAdd (fFloor a) rawOne

/-- `F_ROUND` (R94): half to even on the integer part; the additions saturate. -/
def fRound (a : Int) : Int :=
  let f := lowHalf a
  let i := fFloor a
  if f < 2147483648 then i
  else if f > 2147483648 then fAdd i rawOne
  -- a tie: bit 32 is the least significant integer bit
  else if highHalf i % 2 = 0 then i
  else fAdd i rawOne

/-- SIGN (R90). -/
def execSign (rd ra : Reg) (s : State) : Result :=
  execR2 (.sign rd ra) (fun a => .value (fSign a)) rd ra s

/-- ABS (R91). -/
def execAbs (rd ra : Reg) (s : State) : Result :=
  execR2 (.abs rd ra) (fun a => .value (fAbs a)) rd ra s

/-- FLOOR (R92). -/
def execFloor (rd ra : Reg) (s : State) : Result :=
  execR2 (.floor rd ra) (fun a => .value (fFloor a)) rd ra s

/-- CEIL (R93). -/
def execCeil (rd ra : Reg) (s : State) : Result :=
  execR2 (.ceil rd ra) (fun a => .value (fCeil a)) rd ra s

/-- ROUND (R94). -/
def execRound (rd ra : Reg) (s : State) : Result :=
  execR2 (.round rd ra) (fun a => .value (fRound a)) rd ra s

end Sys2Proof.Machine
end

