-- ==== Sys2Proof/Machine/RangeReduction.lean ====
section
/-!
DEFINITION. The pieces the trigonometric commands share (spec/44_trig.md rules R120 to R122 and R126): the
29-pass range reducer, the table position of a reduced angle, and the cosine phase shift. Each takes the
configuration as an argument, so that a configuration can be tested before the machine is built on it.
-/

namespace Sys2Proof.Machine

/-- `LUT_INTERVAL`, the raw value of `(LUT_N − 1)/(π/2)` (R7, R120); `PI_OVER_2` is not zero in a
well-formed configuration. -/
def lutInterval (c : Config) : Int := divide ((c.lutN - 1) * 4294967296) c.piOver2

/-- The passes `i, i + 1, …` of R121's loop, `passes` of them: `c2 = trem(c2, LARGE_PI >> i)`. -/
def reducePasses (largePi : Int) : (passes i : Nat) → Int → Int
  | 0, _, c2 => c2
  | passes + 1, i, c2 => reducePasses largePi passes (i + 1) (trem c2 (largePi >>> i))

/-- `while c1 >= PI: c1 = c1 − PI`, at most `fuel` times (R121: "at most two subtractions"). -/
def subtractWhile (fuel : Nat) (m c : Int) : Int :=
  match fuel with
  | 0 => c
  | fuel + 1 => if c ≥ m then subtractWhile fuel m (c - m) else c

/-- The reduced angle and the two flip flags of R121. -/
structure Reduced where
  /-- the angle in the first quadrant. -/
  c : Int
  /-- horizontal flip: reverse the table index. -/
  fh : Bool
  /-- vertical flip: negate the result. -/
  fv : Bool
deriving DecidableEq, Repr

/-- `ClampSin(angle)` (R121). The sign test is on the original angle. -/
def clampSin (c : Config) (angle : Int) : Reduced :=
  let r := reducePasses c.largePi 29 0 angle
  let c2 := if angle < 0 then r + c.piTimes2 else r
  let c1 := subtractWhile 2 c.pi c2
  { c := if c1 ≥ c.piOver2 then c1 - c.piOver2 else c1
    fh := c1 ≥ c.piOver2
    fv := c2 ≥ c.pi }

/-- `TablePos(c)` (R122): the nearest table index and the interpolation residual. -/
def tablePos (c : Config) (angle : Int) : Int × Int :=
  let p := mulfloor angle (lutInterval c)
  let q := fRound p
  (highHalf q, p - q)

/-- The angle TAN looks up (R129): one truncating remainder by `PI`, the sign folded into a flip, mirrored
about `PI_OVER_2`. -/
def tanReduce (c : Config) (a : Int) : Int × Bool :=
  let t := trem a c.pi
  let m := if t < 0 then -t else t
  let flip : Bool := t < 0
  if m > c.piOver2 then (c.piOver2 - (m - c.piOver2), !flip) else (m, flip)

/-- `CosAngle(a)` (R126): the shift moves toward zero. -/
def cosAngle (c : Config) (a : Int) : Int :=
  if a > 0 then a - c.pi - c.piOver2 else a + c.piOver2

end Sys2Proof.Machine
end

