-- ==== Sys2Proof/Machine/Tables.lean ====
section
/-!
DEFINITION. The contents of the two table ROMs for the default `LUT_N = 205887` (spec/10_state.md rules R17
and R18), computed one entry at a time from fixed-point Taylor series with 128 fractional bits, so that an
entry can be evaluated by Lean's kernel without building a table.

R17 and R18 define an entry as the floor of an exact real. That the computed entries are those floors is
DEDUCED, not proved in Lean: notes/assumptions/3.md says how it was checked. The one entry where R18's
formula and a value the spec lists differ is `TANLUT[102943]`; the formula is taken: notes/assumptions/4.md.
-/

namespace Sys2Proof.Machine

/-- `floor(π · 2^128)`. -/
def piScaled : Nat := 0x3243f6a8885a308d313198a2e03707344

/-- The last index of the default tables, `LUT_N − 1`. -/
def lastEntry : Nat := 205886

/-- The angle of entry `i`, `i · (π/2)/(LUT_N − 1)`, scaled by `2^128`. -/
def entryAngle (i : Nat) : Nat := piScaled * i / (2 * lastEntry)

/-- An alternating power series by its term recurrence `t, −t·x²/(k(k+1)), …`, everything scaled by
`2^128`, until a term is zero (at most 20 terms for an angle below π/2). -/
def alternating (x2 : Nat) : (fuel t k : Nat) → Nat
  | 0, _, _ => 0
  | fuel + 1, t, k =>
    if t = 0 then 0
    else t - alternating x2 fuel (((t * x2) >>> 128) / (k * (k + 1))) (k + 2)

/-- `sin(angle of entry i) · 2^128`, to within the truncation of the series. -/
def sinScaled (i : Nat) : Nat :=
  let x := entryAngle i
  alternating ((x * x) >>> 128) 24 x 2

/-- `cos(angle of entry i) · 2^128`, to within the truncation of the series. -/
def cosScaled (i : Nat) : Nat :=
  let x := entryAngle i
  alternating ((x * x) >>> 128) 24 (1 <<< 128) 1

/-- `SINLUT[i]` (R17): the floor of `sin · 2^32`; the last entry is `ONE` exactly. -/
def sinEntry (i : Nat) : Int :=
  if i = lastEntry then rawOne else ((sinScaled i >>> 96 : Nat) : Int)

/-- `TANLUT[i]` (R18, D24): the floor of `tan · 2^32` over the exact reals, at most `MAX`; the last entry is
`MAX`. The middle entry is at π/4, whose tangent is 1 exactly, so it is `ONE`: a truncated series cannot
decide a floor at an exact integer. -/
def tanEntry (i : Nat) : Int :=
  if i = lastEntry then rawMax
  else if 2 * i = lastEntry then rawOne
  else min rawMax (((sinScaled i <<< 32) / cosScaled i : Nat) : Int)

end Sys2Proof.Machine
end

