-- ==== Sys2Proof/Machine/Configuration.lean ====
section
/-!
DEFINITION. The default configuration (spec/00_scope.md rule R7, spec/93_implementation_defined.md Part 2),
the test of well-formedness of R7, and the configuration the machine runs with: a record that cannot be
built unless the test passes, which is how an ill-formed configuration is refused (R7, R33, U7).
-/

namespace Sys2Proof.Machine

/-- The defaults of R7. -/
def defaults : Config where
  pi := 0x3243F6A88
  piOver2 := 0x1921FB544
  piTimes2 := 0x6487ED511
  ln2 := 0xB17217F7
  log2Max := 0x1F00000000
  log2Min := -0x2000000000
  epsilon := 1
  largePi := 0x6487ED5110B4611A
  k028 := 0x47AE147B
  itofOor := .fault
  sinLut := fun i => Word.ofRaw (sinEntry i)
  tanLut := fun i => Word.ofRaw (tanEntry i)

/-- Every constant is a raw value (R8, R19). -/
def constantsRaw (c : Config) : Bool :=
  [c.pi, c.piOver2, c.piTimes2, c.ln2, c.log2Max, c.log2Min, c.epsilon, c.largePi, c.k028].all
    fun v => decide (IsRaw v)

/-- The inequalities of R7's well-formedness condition. -/
def constantsOrdered (c : Config) : Bool :=
  decide (0 < c.piOver2 ∧ c.piOver2 ≤ c.pi ∧ c.pi < c.piTimes2 ∧ c.piTimes2 ≤ 2 * c.pi + 1 ∧
    c.pi ≤ 2 * c.piOver2 + 1 ∧ 2 ≤ c.lutN ∧ c.piTimes2 ≤ c.largePi >>> (28 : Nat))

/-- R7's last condition, "no table index computed by R124 and R129 leaves `[0, LUT_N − 1]`", decided by the
extreme angles. A reducer whose last modulus exceeds `PI_TIMES_2` by two ticks or more leaves some angle at −1,
whose neighbour index is −1; and the position of the largest angle looked up, the smaller of `PI_OVER_2` and
`PI − 1` (R129's remainder is below `PI`), must not be past the last entry. That `configOk` is R7's condition,
no stricter and no weaker, is the statement TableIndicesInRange. -/
def indicesInRange (c : Config) : Bool :=
  decide (mulfloor (min c.piOver2 (c.pi - 1)) (lutInterval c) ≤ (c.lutN - 1) * 4294967296 ∧
    c.largePi >>> (28 : Nat) ≤ c.piTimes2 + 1)

/-- The configuration is well-formed (R7) and so accepted. -/
def configOk (c : Config) : Bool := constantsRaw c && constantsOrdered c && indicesInRange c

/-- A configuration that has been accepted: an ill-formed one is refused when it is built (U7). -/
structure Configuration where
  /-- the record of R7. -/
  cfg : Config
  /-- it is well-formed. -/
  ok : configOk cfg = true

/-- The configuration of this machine: the defaults (R7; well-formed, R123). -/
def fmu : Configuration := ⟨defaults, by decide +kernel⟩

/-- The properties P1 to P4 of the tables, on which alone a statement for an arbitrary configuration may
rest (R17, R18). -/
structure TableProperties (c : Config) : Prop where
  /-- R17 P1 -/
  sinFirst : (c.sinLut 0).raw = 0
  /-- R17 P2 -/
  sinLast : (c.sinLut (c.lutN - 1).toNat).raw = rawOne
  /-- R17 P3 -/
  sinRange : ∀ i : Nat, (i : Int) < c.lutN → 0 ≤ (c.sinLut i).raw ∧ (c.sinLut i).raw ≤ rawOne
  /-- R17 P4 -/
  sinMono : ∀ i : Nat, (i : Int) + 1 < c.lutN → (c.sinLut i).raw ≤ (c.sinLut (i + 1)).raw
  /-- R18 P1 -/
  tanFirst : (c.tanLut 0).raw = 0
  /-- R18 P2 -/
  tanLast : (c.tanLut (c.lutN - 1).toNat).raw = rawMax
  /-- R18 P3 -/
  tanRange : ∀ i : Nat, (i : Int) < c.lutN → 0 ≤ (c.tanLut i).raw ∧ (c.tanLut i).raw ≤ rawMax
  /-- R18 P4 -/
  tanMono : ∀ i : Nat, (i : Int) + 1 < c.lutN → (c.tanLut i).raw ≤ (c.tanLut (i + 1)).raw

end Sys2Proof.Machine
end

