-- ==== Sys2Proof/Machine/Constants.lean ====
section
/-!
DEFINITION. The named constants of spec/30_encoding.md rule R49 and the command that loads one, LDC
(spec/40_arith.md rule R82).
-/

namespace Sys2Proof.Machine

/-- `constant(k)` (R49, R82): the table of constant indices; 11 to 15 name no constant. -/
def constant (c : Config) (k : BitVec 4) : Option Int :=
  match k with
  | 0#4 => some 0
  | 1#4 => some rawOne
  | 2#4 => some rawMax
  | 3#4 => some rawMin
  | 4#4 => some c.pi
  | 5#4 => some c.piOver2
  | 6#4 => some c.piTimes2
  | 7#4 => some c.ln2
  | 8#4 => some c.log2Max
  | 9#4 => some c.log2Min
  | 10#4 => some c.epsilon
  | _ => none

/-- LDC (R82), format K. An index above 10 never reaches execution through the decoder (R53 (d)); given
one, the command is the illegal command it would be decoded as. Under the configuration `c` (R171). -/
def execLdcWith (c : Configuration) (rd : Reg) (k : BitVec 4) (s : State) : Result :=
  match constant c.cfg k with
  | some v => finish (encode (.ldc rd k)) rd (.value v) s
  | none => .next (s.raise .illegalCommand (encode (.ldc rd k)))

/-- LDC under the configuration of this machine. -/
def execLdc (rd : Reg) (k : BitVec 4) (s : State) : Result := execLdcWith fmu rd k s

end Sys2Proof.Machine
end

