-- ==== Sys2Proof/Machine/Sqrt.lean ====
section
/-!
DEFINITION. The Sqrt Engine (spec/42_sqrt.md): SQRT by the two-pass digit-by-digit algorithm of rule R101,
on unsigned 64-bit variables.
-/

namespace Sys2Proof.Machine

/-- R101's alignment of the probe bit: `while bit > num: bit = bit >> 2`, at most `fuel` times
(R177: 32). -/
def sqrtAlign : (fuel num bit : Nat) → Nat
  | 0, _, bit => bit
  | fuel + 1, num, bit => if num < bit then sqrtAlign fuel num (bit / 4) else bit

/-- One pass of R101, `while bit != 0`, at most `fuel` digits: the remaining magnitude and the result. -/
def sqrtPass : (fuel num result bit : Nat) → Nat × Nat
  | 0, num, result, _ => (num, result)
  | fuel + 1, num, result, bit =>
    if bit = 0 then (num, result)
    else if result + bit ≤ num then
      sqrtPass fuel (num - (result + bit)) (result / 2 + bit) (bit / 4)
    else sqrtPass fuel num (result / 2) (bit / 4)

/-- R101's step between the passes: scale by `2^32`, with the correction for a remainder too large to
shift. -/
def sqrtScale (num result : Nat) : Nat × Nat :=
  if num > 4294967295 then
    (u64 (((num - result) <<< 32) - 2147483648), u64 ((result <<< 32) + 2147483648))
  else (u64 (num <<< 32), u64 (result <<< 32))

/-- `SqrtCore(a)` (R101): 32-digit pass, scaling, 16-digit pass, final rounding. -/
def sqrtCore (a : Nat) : Nat :=
  let p := sqrtPass 32 a 0 (sqrtAlign 32 a 4611686018427387904)
  let q := sqrtScale p.1 p.2
  let r := sqrtPass 16 q.1 q.2 1073741824
  if r.1 > r.2 then r.2 + 1 else r.2

/-- `F_SQRT` (R100). -/
def fSqrt (a : Int) : Res := if a < 0 then .domainError else .value (sqrtCore a.toNat)

/-- SQRT (R100). -/
def execSqrt (rd ra : Reg) (s : State) : Result := execR2 (.sqrt rd ra) fSqrt rd ra s

end Sys2Proof.Machine
end

