-- ==== Sys2Proof/Machine/InvTrig.lean ====
section
/-!
DEFINITION. The Trig Engine, inverse functions (spec/45_invtrig.md): ATAN ATAN2 ACOS, compositions of the
saturating primitives. An inner error, where the spec says none can occur, would be the error of the
command (R9).
-/

namespace Sys2Proof.Machine

/-- The constants of one run of R140's series: `zsq2 = 2·z²` and `zsq12 = 2·(1 + z²)`. -/
structure AtanStep where
  /-- added to the dividend at every term. -/
  zsq2 : Int
  /-- added to the divisor at every term. -/
  zsq12 : Int
deriving DecidableEq, Repr

/-- R140's loop, `for i = 2 to 29` with the exit on a zero term: at most `fuel` further terms (28). -/
def atanSeries (k : AtanStep) : (fuel : Nat) → (term result dividend divisor : Int) → Res
  | 0, _, result, _, _ => .value result
  | fuel + 1, term, result, dividend, divisor =>
    (fDiv dividend divisor).andThen fun q =>
      let term1 := fMul term q
      let result1 := fAdd result term1
      if term1 = 0 then .value result1
      else atanSeries k fuel term1 result1 (fAdd dividend k.zsq2) (fAdd divisor k.zsq12)

/-- The arctangent of `0 <= z <= ONE` by Euler's series (the body of R140 between the inversion and the
sign). -/
def atanUnit (z : Int) : Res :=
  let zsq := fMul z z
  let zsq2 := fMul zsq (2 * rawOne)
  let zsqp1 := fAdd zsq rawOne
  let zsq12 := fMul zsqp1 (2 * rawOne)
  let divisor := fMul zsqp1 (3 * rawOne)
  (atanSeries ⟨zsq2, zsq12⟩ 28 rawOne rawOne zsq2 divisor).andThen fun result =>
    fDiv (fMul result z) zsqp1

/-- `F_ATAN` (R140): odd, with the reciprocal identity above one. -/
def fAtan (c : Config) (a : Int) : Res :=
  if a = 0 then .value 0
  else
    let z0 := if a < 0 then fNeg a else a
    -- the inversion, where the magnitude exceeds one
    (if z0 > rawOne then fDiv rawOne z0 else .value z0).andThen fun z =>
      (atanUnit z).andThen fun r =>
        let r1 := if z0 > rawOne then fSub c.piOver2 r else r
        .value (if a < 0 then fNeg r1 else r1)

/-- `F_ATAN2(y, x)` (R142): the axis, the denominator's overflow (it saturates to `MAX`), then the rational
approximation in its two forms. DEDUCED, unsafe: the overflow test is the pseudocode's, so it holds at
`z = −(t − 1)` too, where R142's sentence about `abs(z) >= t` says it does not (notes/assumptions/21.md). -/
def fAtan2 (c : Config) (y x : Int) : Res :=
  if x = 0 then
    .value (if y > 0 then c.piOver2 else if y = 0 then 0 else fNeg c.piOver2)
  else
    (fDiv y x).andThen fun z =>
      let den := fAdd rawOne (fMul (fMul c.k028 z) z)
      if den = rawMax then .value (if y < 0 then fNeg c.piOver2 else c.piOver2)
      else if fAbs z < rawOne then
        (fDiv z den).andThen fun at1 =>
          .value (if x < 0 then (if y < 0 then fSub at1 c.pi else fAdd at1 c.pi) else at1)
      else
        (fDiv z (fAdd (fMul z z) c.k028)).andThen fun q =>
          let at1 := fSub c.piOver2 q
          .value (if y < 0 then fSub at1 c.pi else at1)

/-- `F_ACOS` (R144). -/
def fAcos (c : Config) (a : Int) : Res :=
  if a < -rawOne ∨ a > rawOne then .domainError
  else if a = 0 then .value c.piOver2
  else
    (fSqrt (fSub rawOne (fMul a a))).andThen fun t =>
      (fDiv t a).andThen fun q =>
        (fAtan c q).andThen fun r =>
          .value (if a < 0 then fAdd r c.pi else r)

/-- ACOS (R144), under the configuration `c` (R171). -/
def execAcosWith (c : Configuration) (rd ra : Reg) (s : State) : Result :=
  execR2 (.acos rd ra) (fAcos c.cfg) rd ra s

/-- ACOS under the configuration of this machine. -/
def execAcos (rd ra : Reg) (s : State) : Result := execAcosWith fmu rd ra s

/-- ATAN (R140), under the configuration `c` (R171). -/
def execAtanWith (c : Configuration) (rd ra : Reg) (s : State) : Result :=
  execR2 (.atan rd ra) (fAtan c.cfg) rd ra s

/-- ATAN under the configuration of this machine. -/
def execAtan (rd ra : Reg) (s : State) : Result := execAtanWith fmu rd ra s

/-- ATAN2 (R142): `y` is `X[ra]`, `x` is `X[rb]`, under the configuration `c` (R171). -/
def execAtan2With (c : Configuration) (rd ra rb : Reg) (s : State) : Result :=
  execR3 (.atan2 rd ra rb) (fAtan2 c.cfg) rd ra rb s

/-- ATAN2 under the configuration of this machine. -/
def execAtan2 (rd ra rb : Reg) (s : State) : Result := execAtan2With fmu rd ra rb s

end Sys2Proof.Machine
end

