-- ==== Sys2Proof/Machine/LogPow.lean ====
section
/-!
DEFINITION. The Log/Pow Engine (spec/43_logpow.md): LOG2 LN POW2 POW. The "fixed-point multiply" of this
engine is the exact floor product `mulfloor` (R106).
-/

namespace Sys2Proof.Machine

/-! ## Binary and natural logarithm -/

/-- R105's first loop, `while m < ONE`: double and count down, at most `fuel` times (R177: 32). -/
def log2Double : (fuel : Nat) → (m y : Int) → Int × Int
  | 0, m, y => (m, y)
  | fuel + 1, m, y => if m < rawOne then log2Double fuel (m * 2) (y - rawOne) else (m, y)

/-- R105's second loop, `while m >= 2·ONE`: halve and count up, at most `fuel` times (R177: 30). -/
def log2Halve : (fuel : Nat) → (m y : Int) → Int × Int
  | 0, m, y => (m, y)
  | fuel + 1, m, y => if m ≥ 2 * rawOne then log2Halve fuel (m / 2) (y + rawOne) else (m, y)

/-- R105's squaring loop: `digits` fractional bits, most significant first, the next of weight `w`. -/
def log2Digits : (digits : Nat) → (m w y : Int) → Int
  | 0, _, _, y => y
  | digits + 1, m, w, y =>
    let m2 := mulfloor m m
    if m2 ≥ 2 * rawOne then log2Digits digits (m2 / 2) (w / 2) (y + w)
    else log2Digits digits m2 (w / 2) y

/-- `F_LOG2` (R105): the domain is tested before anything else. -/
def fLog2 (a : Int) : Res :=
  if a ≤ 0 then .domainError
  else
    let p := log2Double 32 a 0
    let q := log2Halve 30 p.1 p.2
    .value (log2Digits 32 q.1 2147483648 q.2)

/-- `F_LN` (R107). -/
def fLn (c : Config) (a : Int) : Res := (fLog2 a).andThen fun l => .value (mulfloor l c.ln2)

/-! ## Powers -/

/-- R108's series loop on the fractional part `f`: the running sum when a term is zero, after at most
`fuel` further terms (R177 allows the cap of 32; no fraction needs more than 12, R109). -/
def pow2Series (ln2 f : Int) : (fuel : Nat) → (term result i : Int) → Res
  | 0, _, result, _ => .value result
  | fuel + 1, term, result, i =>
    if term = 0 then .value result
    else
      (fItof i).andThen fun n =>
        (fDiv (mulfloor (mulfloor f term) ln2) n).andThen fun next =>
          pow2Series ln2 f fuel next (fAdd result next) (i + 1)

/-- `F_POW2` (R108), in the order written: zero, sign, the shortcut at one, the upper bound, the (dead)
lower bound, then the series, the shift by the integer part, and the reciprocal. -/
def fPow2 (c : Config) (a : Int) : Res :=
  let x := if a < 0 then fNeg a else a
  if a = 0 then .value rawOne
  else if x = rawOne then (if a < 0 then fDiv rawOne (2 * rawOne) else .value (2 * rawOne))
  else if x ≥ c.log2Max then (if a < 0 then fDiv rawOne rawMax else .value rawMax)
  else if x ≤ c.log2Min then .value (if a < 0 then rawMax else 0)
  else
    let ip := fFtoi (fFloor x)
    (pow2Series c.ln2 (lowHalf x) 32 rawOne rawOne 1).andThen fun sum =>
      let result := wrap64 (sum * 2 ^ ip.toNat)
      if a < 0 then fDiv rawOne result else .value result

/-- `F_POW` (R110), base `b` and exponent `e`, with the short-circuits in FM's order. There is no test of a
negative base: LOG2 raises for it (R111). -/
def fPow (c : Config) (b e : Int) : Res :=
  if b = rawOne then .value rawOne
  else if e = 0 then .value rawOne
  else if b = 0 then (if e < 0 then .divideByZero else .value 0)
  else (fLog2 b).andThen fun l => fPow2 c (fMul e l)

/-! ## The commands -/

/-- LOG2 (R105). -/
def execLog2 (rd ra : Reg) (s : State) : Result := execR2 (.log2 rd ra) fLog2 rd ra s

/-- LN (R107), under the configuration `c` (R171). -/
def execLnWith (c : Configuration) (rd ra : Reg) (s : State) : Result :=
  execR2 (.ln rd ra) (fLn c.cfg) rd ra s

/-- LN under the configuration of this machine. -/
def execLn (rd ra : Reg) (s : State) : Result := execLnWith fmu rd ra s

/-- POW2 (R108), under the configuration `c` (R171). -/
def execPow2With (c : Configuration) (rd ra : Reg) (s : State) : Result :=
  execR2 (.pow2 rd ra) (fPow2 c.cfg) rd ra s

/-- POW2 under the configuration of this machine. -/
def execPow2 (rd ra : Reg) (s : State) : Result := execPow2With fmu rd ra s

/-- POW (R110): the base is `X[ra]`, the exponent `X[rb]`, under the configuration `c` (R171). -/
def execPowWith (c : Configuration) (rd ra rb : Reg) (s : State) : Result :=
  execR3 (.pow rd ra rb) (fPow c.cfg) rd ra rb s

/-- POW under the configuration of this machine. -/
def execPow (rd ra rb : Reg) (s : State) : Result := execPowWith fmu rd ra rb s

end Sys2Proof.Machine
end

