-- ==== Sys2Proof/Machine/Trig.lean ====
section
/-!
DEFINITION. The Trig Engine, forward functions (spec/44_trig.md): SIN FSIN COS FCOS TAN. They raise no
error. `noEntry` stands where a table index has no entry, which a well-formed configuration excludes (R123).
-/

namespace Sys2Proof.Machine

/-- R124's interpolation step: `mulfloor(e, abs(n1 − n2))`. -/
def interpolate (e n1 n2 : Int) : Int := mulfloor e |n1 - n2|

/-- `F_SIN` (R124). -/
def fSin (c : Config) (a : Int) : Res :=
  let k := clampSin c a
  let t := tablePos c k.c
  let s := fSign t.2
  let i1 := if k.fh then c.lutN - 1 - t.1 else t.1
  let i2 := if k.fh then c.lutN - 1 - t.1 - s else t.1 + s
  (romRead c.lutN c.sinLut i1).andThen fun n1 =>
    (romRead c.lutN c.sinLut i2).andThen fun n2 =>
      let d := interpolate t.2 n1 n2
      let v := if k.fh then n1 - d else n1 + d
      .value (if k.fv then -v else v)

/-- `F_FSIN` (R125): the index is the angle's upper bits, clamped to the last entry. -/
def fFsin (c : Config) (a : Int) : Res :=
  let k := clampSin c a
  let j0 := k.c / 32768
  let j := if j0 ≥ c.lutN then c.lutN - 1 else j0
  (romRead c.lutN c.sinLut (if k.fh then c.lutN - 1 - j else j)).andThen fun n =>
    .value (if k.fv then -n else n)

/-- `F_COS` (R127). -/
def fCos (c : Config) (a : Int) : Res := fSin c (cosAngle c a)

/-- `F_FCOS` (R128). -/
def fFcos (c : Config) (a : Int) : Res := fFsin c (cosAngle c a)

/-- `F_TAN` (R129): the final addition and negation wrap, they do not saturate. -/
def fTan (c : Config) (a : Int) : Res :=
  let m := tanReduce c a
  let t := tablePos c m.1
  (romRead c.lutN c.tanLut t.1).andThen fun n1 =>
    (romRead c.lutN c.tanLut (t.1 + fSign t.2)).andThen fun n2 =>
      let v := wrap64 (n1 + interpolate t.2 n1 n2)
      .value (if m.2 then wrap64 (-v) else v)

/-- SIN (R124), under the configuration `c` (R171). -/
def execSinWith (c : Configuration) (rd ra : Reg) (s : State) : Result :=
  execR2 (.sin rd ra) (fSin c.cfg) rd ra s

/-- SIN under the configuration of this machine. -/
def execSin (rd ra : Reg) (s : State) : Result := execSinWith fmu rd ra s

/-- COS (R127), under the configuration `c` (R171). -/
def execCosWith (c : Configuration) (rd ra : Reg) (s : State) : Result :=
  execR2 (.cos rd ra) (fCos c.cfg) rd ra s

/-- COS under the configuration of this machine. -/
def execCos (rd ra : Reg) (s : State) : Result := execCosWith fmu rd ra s

/-- TAN (R129), under the configuration `c` (R171). -/
def execTanWith (c : Configuration) (rd ra : Reg) (s : State) : Result :=
  execR2 (.tan rd ra) (fTan c.cfg) rd ra s

/-- TAN under the configuration of this machine. -/
def execTan (rd ra : Reg) (s : State) : Result := execTanWith fmu rd ra s

/-- FSIN (R125), under the configuration `c` (R171). -/
def execFsinWith (c : Configuration) (rd ra : Reg) (s : State) : Result :=
  execR2 (.fsin rd ra) (fFsin c.cfg) rd ra s

/-- FSIN under the configuration of this machine. -/
def execFsin (rd ra : Reg) (s : State) : Result := execFsinWith fmu rd ra s

/-- FCOS (R128), under the configuration `c` (R171). -/
def execFcosWith (c : Configuration) (rd ra : Reg) (s : State) : Result :=
  execR2 (.fcos rd ra) (fFcos c.cfg) rd ra s

/-- FCOS under the configuration of this machine. -/
def execFcos (rd ra : Reg) (s : State) : Result := execFcosWith fmu rd ra s

end Sys2Proof.Machine
end

