-- ==== Sys2Proof/Machine/Dispatch.lean ====
section
/-!
DEFINITION. The execution of a decoded command: one arm per command of spec/30_encoding.md rule R51, in the
table's order. Whether a command is executed at all (error hold, R156) is decided in
Sys2Proof/Machine/Port.lean, before it is decoded.
-/

namespace Sys2Proof.Machine

def exec (i : Instr) (s : State) : Host.Outcome State Fault Refusal :=
  match i with
  | .add rd ra rb => Sys2Proof.Machine.execAdd rd ra rb s
  | .sub rd ra rb => Sys2Proof.Machine.execSub rd ra rb s
  | .mul rd ra rb => Sys2Proof.Machine.execMul rd ra rb s
  | .div rd ra rb => Sys2Proof.Machine.execDiv rd ra rb s
  | .mod rd ra rb => Sys2Proof.Machine.execMod rd ra rb s
  | .neg rd ra => Sys2Proof.Machine.execNeg rd ra s
  | .fadd rd ra rb => Sys2Proof.Machine.execFadd rd ra rb s
  | .fsub rd ra rb => Sys2Proof.Machine.execFsub rd ra rb s
  | .fmul rd ra rb => Sys2Proof.Machine.execFmul rd ra rb s
  | .fmod rd ra rb => Sys2Proof.Machine.execFmod rd ra rb s
  | .ceq rd ra rb => Sys2Proof.Machine.execCeq rd ra rb s
  | .cne rd ra rb => Sys2Proof.Machine.execCne rd ra rb s
  | .clt rd ra rb => Sys2Proof.Machine.execClt rd ra rb s
  | .cle rd ra rb => Sys2Proof.Machine.execCle rd ra rb s
  | .cgt rd ra rb => Sys2Proof.Machine.execCgt rd ra rb s
  | .cge rd ra rb => Sys2Proof.Machine.execCge rd ra rb s
  | .itof rd ra => Sys2Proof.Machine.execItof rd ra s
  | .ftoi rd ra => Sys2Proof.Machine.execFtoi rd ra s
  | .ldc rd k => Sys2Proof.Machine.execLdc rd k s
  | .sign rd ra => Sys2Proof.Machine.execSign rd ra s
  | .abs rd ra => Sys2Proof.Machine.execAbs rd ra s
  | .floor rd ra => Sys2Proof.Machine.execFloor rd ra s
  | .ceil rd ra => Sys2Proof.Machine.execCeil rd ra s
  | .round rd ra => Sys2Proof.Machine.execRound rd ra s
  | .sqrt rd ra => Sys2Proof.Machine.execSqrt rd ra s
  | .log2 rd ra => Sys2Proof.Machine.execLog2 rd ra s
  | .ln rd ra => Sys2Proof.Machine.execLn rd ra s
  | .pow2 rd ra => Sys2Proof.Machine.execPow2 rd ra s
  | .pow rd ra rb => Sys2Proof.Machine.execPow rd ra rb s
  | .sin rd ra => Sys2Proof.Machine.execSin rd ra s
  | .cos rd ra => Sys2Proof.Machine.execCos rd ra s
  | .tan rd ra => Sys2Proof.Machine.execTan rd ra s
  | .fsin rd ra => Sys2Proof.Machine.execFsin rd ra s
  | .fcos rd ra => Sys2Proof.Machine.execFcos rd ra s
  | .acos rd ra => Sys2Proof.Machine.execAcos rd ra s
  | .atan rd ra => Sys2Proof.Machine.execAtan rd ra s
  | .atan2 rd ra rb => Sys2Proof.Machine.execAtan2 rd ra rb s

end Sys2Proof.Machine
end

