-- ==== Sys2Proof/Machine/Port.lean ====
section
/-!
DEFINITION. The host port (spec/20_memory.md rules R30 and R34 to R40): what each transaction does, and the
execution of a CMD write (spec/30_encoding.md rule R50). The execution of a decoded command is passed in as
`run`, so that this file stands before the dispatch of the commands.
-/

namespace Sys2Proof.Machine

/-- The port register number of an X register: `0x00..0x0F` (R34). -/
def portX (n : PortReg) : Option Reg := if n.toNat < 16 then some (n.setWidth 4) else none

/-- `HostRead(n)` (R34): performed whatever `ERR` is (R35), and without side effect (R38). CMD, ERRACK and
the reserved numbers read as 0. -/
def hostRead (n : PortReg) (s : State) : Word :=
  match portX n with
  | some r => s.readX r
  | none =>
    if n = 0x11#5 then s.status
    else if n = 0x13#5 then s.fcmd.zeroExtend 64
    else 0#64

/-- `HostWrite(CMD, v)` (R50): dropped in error hold (R156); illegal if the upper half of `v` is not zero or
the word is not legal (R53); otherwise the command is decoded and executed. -/
def issue (run : Instr → State → Result) (v : Word) (s : State) : Result :=
  let w : CmdWord := v.extractLsb' 0 32
  if s.err ≠ .none then .next s
  else if v.extractLsb' 32 32 ≠ 0#32 then .next (s.raise .illegalCommand w)
  else match decode w with
    | .illegal _ => .next (s.raise .illegalCommand w)
    | .command i => run i s

/-- `HostWrite(n, v)` (R34). Writes of X registers are performed whatever `ERR` is (R35); writes to STATUS,
FCMD and the reserved numbers are ignored. -/
def hostWrite (run : Instr → State → Result) (n : PortReg) (v : Word) (s : State) : Result :=
  match portX n with
  | some r => .next (s.writeX r v)
  | none =>
    if n = 0x10#5 then issue run v s
    else if n = 0x12#5 then .next s.acknowledge
    else .next s

/-- One event at the unit's inputs, atomic and complete before the next (R40, R170). -/
def perform (run : Instr → State → Result) (e : HostEvent) (s : State) : Result :=
  match e with
  | .read n => .next { s with replies := s.replies ++ [hostRead n s] }
  | .write n v => hostWrite run n v s
  | .reset => .next s.resetUnit

/-- One step: the next event is taken from the host and performed. With none to take the unit "is idle and
holds its state" (R168). -/
def transact (run : Instr → State → Result) (s : State) : Result :=
  match s.inbox with
  | [] => .next s
  | e :: rest => perform run e { s with inbox := rest }

/-- The state whose next step runs the command word `v`: the host's next transaction is `HostWrite(CMD, v)`,
and the unit is not in error hold, where the write would be dropped (R156). -/
def presentCommand (v : Word) (s : State) : State :=
  { s with inbox := .write 0x10#5 v :: s.inbox, err := .none }

end Sys2Proof.Machine
end

