-- ==== Sys2Proof/Machine/Step.lean ====
section
/-!
DEFINITION. One step of the machine: the next host transaction (spec/10_state.md rule R12: "A model's step
function takes the next host transaction as its input instead of fetching"). All of it stands in
Sys2Proof/Machine/Port.lean and Sys2Proof/Machine/Dispatch.lean.
-/

namespace Sys2Proof.Machine

/-- One step: the next host transaction, a command of it executed by `exec`. -/
def step (s : State) : Host.Outcome State Fault Refusal := transact exec s

/-- `s` with the instruction of `nbits` bits `w` as the host's next CMD write, so that the next step runs
it. -/
def State.withFetchWord (s : State) (nbits w : Nat) : State :=
  presentCommand (BitVec.ofNat 64 (w % 2 ^ nbits)) s

end Sys2Proof.Machine
end

