-- ==== Sys2Proof/Machine/Context.lean ====
section
/-!
DEFINITION. The machine with its configuration as an argument (spec/70_reset_and_hazards.md rule R171: "the
tables are fields of the configuration record passed to the step function"). `exec` and `step`, whose types
the host fixes, are these under the default configuration `fmu` (`execWith_fmu` and `stepWith_fmu` in
Sys2Proof/Laws/Ops.lean). The configuration is an argument and no part of the state, so no step changes a table
or a constant (R10, R20), and it is an accepted one, so the tables are valid from reset on: there is no "tables
not ready" state (R171).
-/

namespace Sys2Proof.Machine

/-- The execution of a decoded command under the configuration `c`. The commands that read no constant and
no table are the same under every configuration. -/
def execWith (c : Configuration) (i : Instr) (s : State) : Result :=
  match i with
  | .ldc rd k => execLdcWith c rd k s
  | .ln rd ra => execLnWith c rd ra s
  | .pow2 rd ra => execPow2With c rd ra s
  | .pow rd ra rb => execPowWith c rd ra rb s
  | .sin rd ra => execSinWith c rd ra s
  | .cos rd ra => execCosWith c rd ra s
  | .tan rd ra => execTanWith c rd ra s
  | .fsin rd ra => execFsinWith c rd ra s
  | .fcos rd ra => execFcosWith c rd ra s
  | .acos rd ra => execAcosWith c rd ra s
  | .atan rd ra => execAtanWith c rd ra s
  | .atan2 rd ra rb => execAtan2With c rd ra rb s
  | .add _ _ _ | .sub _ _ _ | .mul _ _ _ | .div _ _ _ | .mod _ _ _ | .fadd _ _ _ | .fsub _ _ _
  | .fmul _ _ _ | .fmod _ _ _ | .ceq _ _ _ | .cne _ _ _ | .clt _ _ _ | .cle _ _ _ | .cgt _ _ _
  | .cge _ _ _ => exec i s
  | .neg _ _ | .itof _ _ | .ftoi _ _ | .sign _ _ | .abs _ _ | .floor _ _ | .ceil _ _ | .round _ _
  | .sqrt _ _ | .log2 _ _ => exec i s

/-- One step under the configuration `c` (R12, R171). -/
def stepWith (c : Configuration) (s : State) : Result := transact (execWith c) s

end Sys2Proof.Machine
end

