-- ==== Sys2Proof/Safety.lean ====
section
/-!
DEFINITION. The terms the statements use: what a completed command and a raise leave (spec/10_state.md
rule R25, spec/60_exceptions.md rule R152), which command raises what on which operands (R153), the safe
ranges of the fast commands (spec/40_arith.md rule R83), the opcode table's rows
(spec/30_encoding.md rule R52), and the invariant that a latched error is explained by FCMD (R154).
-/

namespace Sys2Proof.Machine

/-! ## What a command leaves -/

/-- From `s` to `t` register `rd` alone of the unit is written, with the word `w`; the host's side is left
alone too. -/
def WritesOnly (s t : State) (rd : Reg) (w : Word) : Prop :=
  t.readX rd = w ∧ (∀ q : Reg, q ≠ rd → t.readX q = s.readX q) ∧ t.err = s.err ∧ t.fcmd = s.fcmd ∧
    t.inbox = s.inbox ∧ t.replies = s.replies

/-- `i`, executed in `s`, completes: it answers a next state in which `rd` holds the word `w` and nothing
else has changed. -/
def Completes (i : Instr) (s : State) (rd : Reg) (w : Word) : Prop :=
  ∃ t, exec i s = .next t ∧ WritesOnly s t rd w ∧ t.draws = s.draws

/-- `i`, executed in `s`, completes with `ANY` (R63): `rd` holds the next draw and nothing else has changed
but the count of draws. -/
def CompletesAny (i : Instr) (s : State) (rd : Reg) : Prop :=
  ∃ t, exec i s = .next t ∧ WritesOnly s t rd (Config.anyWord s.draws) ∧ t.draws = s.draws + 1

/-- From `s` to `t` an error of kind `k` is latched with the command word `w`, and nothing else changes
(R152). -/
def RaisesOnly (s t : State) (k : ErrorKind) (w : CmdWord) : Prop :=
  (∀ q : Reg, t.readX q = s.readX q) ∧ t.err = .latched k ∧ t.fcmd = w ∧ t.inbox = s.inbox ∧
    t.replies = s.replies ∧ t.draws = s.draws

/-- `i`, executed in `s`, raises `k` and changes nothing else; `FCMD` holds the word of `i` itself (R154). -/
def Raises (i : Instr) (s : State) (k : ErrorKind) : Prop :=
  ∃ t, exec i s = .next t ∧ RaisesOnly s t k (encode i)

/-! ## The commands by their operands -/

/-- The destination register (R46). -/
def destination : Instr → Reg
  | .add rd _ _ | .sub rd _ _ | .mul rd _ _ | .div rd _ _ | .mod rd _ _ | .fadd rd _ _ | .fsub rd _ _
  | .fmul rd _ _ | .fmod rd _ _ | .ceq rd _ _ | .cne rd _ _ | .clt rd _ _ | .cle rd _ _ | .cgt rd _ _
  | .cge rd _ _ | .pow rd _ _ | .atan2 rd _ _ => rd
  | .neg rd _ | .itof rd _ | .ftoi rd _ | .sign rd _ | .abs rd _ | .floor rd _ | .ceil rd _ | .round rd _
  | .sqrt rd _ | .log2 rd _ | .ln rd _ | .pow2 rd _ | .sin rd _ | .cos rd _ | .tan rd _ | .fsin rd _
  | .fcos rd _ | .acos rd _ | .atan rd _ => rd
  | .ldc rd _ => rd

/-- The source registers (R25). -/
def sources : Instr → List Reg
  | .add _ ra rb | .sub _ ra rb | .mul _ ra rb | .div _ ra rb | .mod _ ra rb | .fadd _ ra rb
  | .fsub _ ra rb | .fmul _ ra rb | .fmod _ ra rb | .ceq _ ra rb | .cne _ ra rb | .clt _ ra rb
  | .cle _ ra rb | .cgt _ ra rb | .cge _ ra rb | .pow _ ra rb | .atan2 _ ra rb => [ra, rb]
  | .neg _ ra | .itof _ ra | .ftoi _ ra | .sign _ ra | .abs _ ra | .floor _ ra | .ceil _ ra | .round _ ra
  | .sqrt _ ra | .log2 _ ra | .ln _ ra | .pow2 _ ra | .sin _ ra | .cos _ ra | .tan _ ra | .fsin _ ra
  | .fcos _ ra | .acos _ ra | .atan _ ra => [ra]
  | .ldc _ _ => []

/-- Which command raises what, and on exactly which operands: the table of R153. -/
def raiseTable (s : State) : Instr → Option ErrorKind
  | .div _ _ rb | .mod _ _ rb | .fmod _ _ rb => if s.rawX rb = 0 then some .divideByZero else none
  | .itof _ ra =>
    if s.rawX ra < -2147483648 ∨ s.rawX ra > 2147483647 then some .domainError else none
  | .sqrt _ ra => if s.rawX ra < 0 then some .domainError else none
  | .log2 _ ra | .ln _ ra => if s.rawX ra ≤ 0 then some .domainError else none
  | .pow _ ra rb =>
    if s.rawX ra = 0 ∧ s.rawX rb < 0 then some .divideByZero
    else if s.rawX ra < 0 ∧ s.rawX rb ≠ 0 then some .domainError
    else none
  | .acos _ ra => if s.rawX ra < -rawOne ∨ s.rawX ra > rawOne then some .domainError else none
  | .add _ _ _ | .sub _ _ _ | .mul _ _ _ | .fadd _ _ _ | .fsub _ _ _ | .fmul _ _ _ | .ceq _ _ _
  | .cne _ _ _ | .clt _ _ _ | .cle _ _ _ | .cgt _ _ _ | .cge _ _ _ | .atan2 _ _ _ => none
  | .neg _ _ | .ftoi _ _ | .sign _ _ | .abs _ _ | .floor _ _ | .ceil _ _ | .round _ _ | .pow2 _ _
  | .sin _ _ | .cos _ _ | .tan _ _ | .fsin _ _ | .fcos _ _ | .atan _ _ => none
  | .ldc _ _ => none

/-- The kinds R153 lets a command raise on some operands. -/
def mayRaise : Instr → List ErrorKind
  | .div _ _ _ | .mod _ _ _ | .fmod _ _ _ => [.divideByZero]
  | .itof _ _ | .sqrt _ _ | .log2 _ _ | .ln _ _ | .acos _ _ => [.domainError]
  | .pow _ _ _ => [.divideByZero, .domainError]
  | .add _ _ _ | .sub _ _ _ | .mul _ _ _ | .fadd _ _ _ | .fsub _ _ _ | .fmul _ _ _ | .ceq _ _ _
  | .cne _ _ _ | .clt _ _ _ | .cle _ _ _ | .cgt _ _ _ | .cge _ _ _ | .atan2 _ _ _ => []
  | .neg _ _ | .ftoi _ _ | .sign _ _ | .abs _ _ | .floor _ _ | .ceil _ _ | .round _ _ | .pow2 _ _
  | .sin _ _ | .cos _ _ | .tan _ _ | .fsin _ _ | .fcos _ _ | .atan _ _ => []
  | .ldc _ _ => []

/-- The operands are inside the safe range of a fast command (R83); every other command is always safe. -/
def InSafeRange (s : State) : Instr → Prop
  | .fadd _ ra rb => IsRaw (s.rawX ra + s.rawX rb)
  | .fsub _ ra rb => IsRaw (s.rawX ra - s.rawX rb)
  | .fmul _ ra rb => IsRaw (s.rawX ra * s.rawX rb / 4294967296)
  | .fmod _ ra rb => ¬ (s.rawX ra = rawMin ∧ s.rawX rb = -1)
  | .add _ _ _ | .sub _ _ _ | .mul _ _ _ | .div _ _ _ | .mod _ _ _ | .ceq _ _ _ | .cne _ _ _
  | .clt _ _ _ | .cle _ _ _ | .cgt _ _ _ | .cge _ _ _ | .pow _ _ _ | .atan2 _ _ _ => True
  | .neg _ _ | .itof _ _ | .ftoi _ _ | .sign _ _ | .abs _ _ | .floor _ _ | .ceil _ _ | .round _ _
  | .sqrt _ _ | .log2 _ _ | .ln _ _ | .pow2 _ _ | .sin _ _ | .cos _ _ | .tan _ _ | .fsin _ _
  | .fcos _ _ | .acos _ _ | .atan _ _ => True
  | .ldc _ _ => True

/-! ## The opcode table -/

/-- A row of the opcode table as R51 and R52 use it: a word matches where its bits under `mask` are
`pattern`, and stands then for `command` on the fields RD, RA and RB of R46. -/
structure OpcodeRow where
  /-- the bits that are fixed. -/
  mask : CmdWord
  /-- their values. -/
  pattern : CmdWord
  /-- the largest value of the RA field, `w[19:16]`: 10 on the row of LDC (R52), and any elsewhere. -/
  raMax : Nat
  /-- the command of the row, from its fields RD, RA and RB; a format without RB leaves it out. -/
  command : (rd ra rb : BitVec 4) → Instr

/-- A row of format R3 (R47). -/
def rowR3 (opc : BitVec 8) (make : Reg → Reg → Reg → Instr) : OpcodeRow :=
  ⟨0xFF000FFF#32, opc ++ 0#24, 15, make⟩

/-- A row of format R2 (R48). -/
def rowR2 (opc : BitVec 8) (make : Reg → Reg → Instr) : OpcodeRow :=
  ⟨0xFF00FFFF#32, opc ++ 0#24, 15, fun rd ra _ => make rd ra⟩

/-- A row of format K (R49), whose RA field is a constant index of at most 10. -/
def rowK (opc : BitVec 8) (make : Reg → BitVec 4 → Instr) : OpcodeRow :=
  ⟨0xFF00FFFF#32, opc ++ 0#24, 10, fun rd k _ => make rd k⟩

/-- The rows of the opcode table with their commands (R51), in the table's order. -/
def opcodeRows : List OpcodeRow :=
  [rowR3 0x01#8 .add, rowR3 0x02#8 .sub, rowR3 0x03#8 .mul, rowR3 0x04#8 .div, rowR3 0x05#8 .mod,
    rowR2 0x06#8 .neg, rowR3 0x09#8 .fadd, rowR3 0x0A#8 .fsub, rowR3 0x0B#8 .fmul, rowR3 0x0D#8 .fmod,
    rowR3 0x10#8 .ceq, rowR3 0x11#8 .cne, rowR3 0x12#8 .clt, rowR3 0x13#8 .cle, rowR3 0x14#8 .cgt,
    rowR3 0x15#8 .cge, rowR2 0x18#8 .itof, rowR2 0x19#8 .ftoi, rowK 0x1C#8 .ldc, rowR2 0x20#8 .sign,
    rowR2 0x21#8 .abs, rowR2 0x22#8 .floor, rowR2 0x23#8 .ceil, rowR2 0x24#8 .round, rowR2 0x28#8 .sqrt,
    rowR2 0x30#8 .log2, rowR2 0x31#8 .ln, rowR2 0x32#8 .pow2, rowR3 0x33#8 .pow, rowR2 0x38#8 .sin,
    rowR2 0x39#8 .cos, rowR2 0x3A#8 .tan, rowR2 0x3C#8 .fsin, rowR2 0x3D#8 .fcos, rowR2 0x40#8 .acos,
    rowR2 0x41#8 .atan, rowR3 0x42#8 .atan2]

/-- The word `w` is one of the row: its fixed bits are the row's, and so is its RA field (R52). -/
def OpcodeRow.Matches (r : OpcodeRow) (w : CmdWord) : Prop :=
  w &&& r.mask = r.pattern ∧ (w.extractLsb' 16 4).toNat ≤ r.raMax

/-- The command the row gives a word of its own, by the fields of R46. -/
def OpcodeRow.read (r : OpcodeRow) (w : CmdWord) : Instr :=
  r.command (w.extractLsb' 20 4) (w.extractLsb' 16 4) (w.extractLsb' 12 4)

/-! ## The band of MUL -/

/-- One order of the band of R67, where MUL answers `MAX` although the floor product is representable. -/
def InMulBand (a b : Int) : Prop :=
  a = (0xFFFFFFFEFFFFFFFF#64).toInt ∧ (0x8000000080000001#64).toInt ≤ b ∧ b ≤ (0x80000000FFFFFFFF#64).toInt

/-! ## Well-formed configurations -/

/-- R7's condition on a configuration in R7's own words: the named constants are raw values (R8, R19), the
inequalities hold, and no table index computed by R124 and R129 leaves `[0, LUT_N − 1]`: on no angle does SIN or
TAN read outside its table (R33). -/
def WellFormedConfig (c : Config) : Prop :=
  (∀ v ∈ [c.pi, c.piOver2, c.piTimes2, c.ln2, c.log2Max, c.log2Min, c.epsilon, c.largePi, c.k028], IsRaw v) ∧
    0 < c.piOver2 ∧ c.piOver2 ≤ c.pi ∧ c.pi < c.piTimes2 ∧ c.piTimes2 ≤ 2 * c.pi + 1 ∧
    c.pi ≤ 2 * c.piOver2 + 1 ∧ 2 ≤ c.lutN ∧ c.piTimes2 ≤ c.largePi / 2 ^ 28 ∧ 0 < c.piTimes2 ∧
    ∀ a : Int, IsRaw a → fSin c a ≠ .noEntry ∧ fTan c a ≠ .noEntry

/-! ## The unit and its invariant -/

/-- The unit's own state, R10's `X`, `ERR` and `FCMD`, is the same in both states. -/
def SameUnit (s t : State) : Prop :=
  (∀ q : Reg, s.readX q = t.readX q) ∧ s.err = t.err ∧ s.fcmd = t.fcmd

/-- A latched error is explained by FCMD: it is an IllegalCommand, or FCMD holds the word of a command that
can raise it (R15, R153, R154). -/
def ErrorExplained (s : State) : Prop :=
  ∀ k : ErrorKind, s.err = .latched k →
    k = .illegalCommand ∨ ∃ i : Instr, decode s.fcmd = .command i ∧ k ∈ mayRaise i

/-- The unit after reset with the operands of a worked example written to `X1` and `X2`. -/
def exampleState (a b : Word) : State := (State.reset.writeX 1#4 a).writeX 2#4 b

/-- The word a CMD write carries for a command: the command word in the lower half, zeros above (R34). -/
def commandWrite (w : CmdWord) : Word := w.setWidth 64

end Sys2Proof.Machine
end

