-- ==== Sys2Proof/Certificates/Slice0/Obligations.lean ====
section
/-!
DEFINITION. The statements about the machine, for the provers. Each docstring names the rule of spec/ it
formalises. `a` and `b` stand for the operands as raw values (R11); `Completes`, `CompletesAny` and `Raises`
(Sys2Proof/Safety.lean) say that execution answers a next state, what is in it, and that nothing else has
changed. A statement that rests on a choice of the model says so and names the log entry.
-/

open Sys2Proof Sys2Proof.Machine

/-! ## Encoding -/

/-- R52, R56: decoding the word of any command that can be encoded gives the command back, with every
operand at every value. -/
def Obligations.DecodeOfEncode : Prop :=
  ∀ i : Instr, i.wellFormed = true → decode (encode i) = .command i

/-- R50, R52: a word that decodes to a command is that command's one encoding, and the command is
well-formed: no two words mean the same command and no bit of a legal word is ignored. -/
def Obligations.EncodeOfDecode : Prop :=
  ∀ (w : CmdWord) (i : Instr), decode w = .command i → encode i = w ∧ i.wellFormed = true

/-- R51, R52: the decoder is the opcode map read by the decoding procedure. A word that matches a row decodes to
that row's command on the fields of R46 (LDC with its index in `w[19:16]`, at most 10); every word that decodes
matches a row and is that row's command; at most one row matches under the masks. -/
def Obligations.OpcodeTableDecodes : Prop :=
  ∀ w : CmdWord,
    (∀ r ∈ opcodeRows, r.Matches w → decode w = .command (r.read w)) ∧
    (∀ i, decode w = .command i → ∃ r ∈ opcodeRows, r.Matches w ∧ i = r.read w) ∧
    (∀ r ∈ opcodeRows, ∀ q ∈ opcodeRows,
      w &&& r.mask = r.pattern → w &&& q.mask = q.pattern → r = q)

/-- The 37 words of spec/95_test_vectors.md section 8.1, one of each command, as written there; the LDC of R56;
and the all-zero and all-one words of section 8.2. -/
def Obligations.EncodingExamples : Prop :=
  decode 0x01312000#32 = .command (.add 3#4 1#4 2#4) ∧
    decode 0x02312000#32 = .command (.sub 3#4 1#4 2#4) ∧
    decode 0x03312000#32 = .command (.mul 3#4 1#4 2#4) ∧
    decode 0x04312000#32 = .command (.div 3#4 1#4 2#4) ∧
    decode 0x05312000#32 = .command (.mod 3#4 1#4 2#4) ∧
    decode 0x06310000#32 = .command (.neg 3#4 1#4) ∧
    decode 0x09312000#32 = .command (.fadd 3#4 1#4 2#4) ∧
    decode 0x0A312000#32 = .command (.fsub 3#4 1#4 2#4) ∧
    decode 0x0B312000#32 = .command (.fmul 3#4 1#4 2#4) ∧
    decode 0x0D312000#32 = .command (.fmod 3#4 1#4 2#4) ∧
    decode 0x10312000#32 = .command (.ceq 3#4 1#4 2#4) ∧
    decode 0x11312000#32 = .command (.cne 3#4 1#4 2#4) ∧
    decode 0x12312000#32 = .command (.clt 3#4 1#4 2#4) ∧
    decode 0x13312000#32 = .command (.cle 3#4 1#4 2#4) ∧
    decode 0x14312000#32 = .command (.cgt 3#4 1#4 2#4) ∧
    decode 0x15312000#32 = .command (.cge 3#4 1#4 2#4) ∧
    decode 0x18310000#32 = .command (.itof 3#4 1#4) ∧
    decode 0x19310000#32 = .command (.ftoi 3#4 1#4) ∧
    decode 0x1C340000#32 = .command (.ldc 3#4 4#4) ∧
    decode 0x20310000#32 = .command (.sign 3#4 1#4) ∧
    decode 0x21310000#32 = .command (.abs 3#4 1#4) ∧
    decode 0x22310000#32 = .command (.floor 3#4 1#4) ∧
    decode 0x23310000#32 = .command (.ceil 3#4 1#4) ∧
    decode 0x24310000#32 = .command (.round 3#4 1#4) ∧
    decode 0x28310000#32 = .command (.sqrt 3#4 1#4) ∧
    decode 0x30310000#32 = .command (.log2 3#4 1#4) ∧
    decode 0x31310000#32 = .command (.ln 3#4 1#4) ∧
    decode 0x32310000#32 = .command (.pow2 3#4 1#4) ∧
    decode 0x33312000#32 = .command (.pow 3#4 1#4 2#4) ∧
    decode 0x38310000#32 = .command (.sin 3#4 1#4) ∧
    decode 0x39310000#32 = .command (.cos 3#4 1#4) ∧
    decode 0x3A310000#32 = .command (.tan 3#4 1#4) ∧
    decode 0x3C310000#32 = .command (.fsin 3#4 1#4) ∧
    decode 0x3D310000#32 = .command (.fcos 3#4 1#4) ∧
    decode 0x40310000#32 = .command (.acos 3#4 1#4) ∧
    decode 0x41310000#32 = .command (.atan 3#4 1#4) ∧
    decode 0x42312000#32 = .command (.atan2 3#4 1#4 2#4) ∧
    decode 0x1C140000#32 = .command (.ldc 1#4 4#4) ∧
    decode 0x00000000#32 = .illegal .unassignedOpcode ∧
    decode 0xFFFFFFFF#32 = .illegal .unassignedOpcode

/-- R53: a CMD write to a ready unit is an IllegalCommand in exactly the cases listed (an unassigned opcode,
a set ZERO field, a set RB field in format R2 or K, an LDC index above 10, a set upper half), with nothing
changed but `ERR` and `FCMD`; every other word executes the command it decodes to. -/
def Obligations.IllegalCommandCases : Prop :=
  ∀ (s : State) (v : Word) (rest : List HostEvent), s.err = .none →
    s.inbox = .write 0x10#5 v :: rest →
    let w : CmdWord := v.extractLsb' 0 32
    let opc : CmdWord := w &&& 0xFF000000#32
    let illegal : Prop :=
      v.extractLsb' 32 32 ≠ 0#32 ∨ (∀ r ∈ opcodeRows, opc ≠ r.pattern) ∨ w.extractLsb' 0 12 ≠ 0#12 ∨
        (w.extractLsb' 12 4 ≠ 0#4 ∧ ∃ r ∈ opcodeRows, r.mask = 0xFF00FFFF#32 ∧ opc = r.pattern) ∨
        (opc = 0x1C000000#32 ∧ (w.extractLsb' 16 4).toNat > 10)
    (illegal → ∃ t, step s = .next t ∧ RaisesOnly { s with inbox := rest } t .illegalCommand w) ∧
    (¬ illegal → ∃ i, decode w = .command i ∧ step s = exec i { s with inbox := rest })

/-! ## Steps and the host port -/

/-- R50: where the host's next transaction writes to CMD a word that decodes, and no error is latched, a
step is the execution of the decoded command on the state without that transaction. (The list of
transactions to come is the model's own field: notes/assumptions/1.md.) -/
def Obligations.StepRunsDecodedCommand : Prop :=
  ∀ (s : State) (i : Instr) (v : Word) (rest : List HostEvent), s.err = .none →
    s.inbox = .write 0x10#5 v :: rest → v.extractLsb' 32 32 = 0#32 →
    decode (v.extractLsb' 0 32) = .command i → step s = exec i { s with inbox := rest }

/-- R34, R35, R38: what a read of each port register returns, in error hold as well; a read changes no state
of the unit. -/
def Obligations.HostReads : Prop :=
  ∀ (s : State) (n : PortReg) (rest : List HostEvent), s.inbox = .read n :: rest →
    ∃ t v, step s = .next t ∧ SameUnit s t ∧ t.inbox = rest ∧ t.draws = s.draws ∧
      t.replies = s.replies ++ [v] ∧
      v = if n.toNat < 16 then s.readX (BitVec.ofNat 4 n.toNat)
        else if n.toNat = 0x11 then
          (match s.err with
            | .none => 0#64
            | .latched .divideByZero => 1#64
            | .latched .domainError => 2#64
            | .latched .illegalCommand => 3#64)
        else if n.toNat = 0x13 then s.fcmd.setWidth 64
        else 0#64

/-- R34, R35, R38: a write to an X register replaces it whole, in error hold as well; writes to STATUS, FCMD
and the reserved numbers change nothing of the unit. -/
def Obligations.HostWrites : Prop :=
  ∀ (s : State) (n : PortReg) (v : Word) (rest : List HostEvent), s.inbox = .write n v :: rest →
    (n.toNat < 16 → ∃ t, step s = .next t ∧
      WritesOnly { s with inbox := rest } t (BitVec.ofNat 4 n.toNat) v ∧ t.draws = s.draws) ∧
    (16 ≤ n.toNat → n.toNat ≠ 0x10 → n.toNat ≠ 0x12 → step s = .next { s with inbox := rest })

/-- R156: while an error is latched every CMD write is dropped, any number of them and whatever they carry:
no state of the unit changes; reads of every register, writes of X registers and ERRACK work. -/
def Obligations.ErrorHoldDropsCommands : Prop :=
  (∀ (vs : List Word) (s : State) (rest : List HostEvent), s.err ≠ .none →
    s.inbox = vs.map (HostEvent.write 0x10#5) ++ rest →
    Sys2Proof.core.run vs.length s = .next { s with inbox := rest }) ∧
  (∀ (s : State) (n : PortReg) (rest : List HostEvent), s.err ≠ .none → s.inbox = .read n :: rest →
    step s = .next { s with inbox := rest, replies := s.replies ++ [hostRead n s] }) ∧
  (∀ (s : State) (r : Reg) (v : Word) (rest : List HostEvent), s.err ≠ .none →
    s.inbox = .write (r.setWidth 5) v :: rest →
    ∃ t, step s = .next t ∧ WritesOnly { s with inbox := rest } t r v) ∧
  (∀ (s : State) (v : Word) (rest : List HostEvent), s.err ≠ .none → s.inbox = .write 0x12#5 v :: rest →
    ∃ t, step s = .next t ∧ t.err = .none)

/-- R157: an ERRACK write, with any value, clears `ERR` and changes nothing else; and nothing else than it
and reset leaves error hold. -/
def Obligations.AcknowledgeReturns : Prop :=
  (∀ (s : State) (v : Word) (rest : List HostEvent), s.inbox = .write 0x12#5 v :: rest →
    step s = .next { s with inbox := rest, err := .none }) ∧
  (∀ s t : State, s.err ≠ .none → step s = .next t → t.err = .none →
    ∃ rest, s.inbox = .reset :: rest ∨ ∃ v, s.inbox = .write 0x12#5 v :: rest)

/-- R24, R170: after reset, and after a Reset event in any state, every X register is 0, no error is
latched, FCMD is 0, STATUS reads 0 and `fault_o` is low. (That the event leaves the host's side and the count
of draws alone is the model's choice, notes/assumptions/14.md, and is not stated here.) -/
def Obligations.ResetValues : Prop :=
  (∀ r : Reg, State.reset.readX r = 0#64) ∧ State.reset.err = .none ∧ State.reset.fcmd = 0#32 ∧
    State.reset.status = 0#64 ∧ State.reset.faultO = false ∧
    ∀ (s : State) (rest : List HostEvent), s.inbox = .reset :: rest →
      ∃ t, step s = .next t ∧ SameUnit State.reset t

/-- R161: `fault_o` is high exactly while an error is latched, which is exactly while STATUS is not zero. -/
def Obligations.FaultOutput : Prop :=
  ∀ s : State, (s.faultO = true ↔ s.err ≠ .none) ∧ (s.faultO = true ↔ s.status ≠ 0#64)

/-- R169: the transitions between Ready and the three ErrorHold states. Ready goes to ErrorHold of kind `k`
exactly by a raise of `k`: a CMD write of an illegal word (R152), or of a command whose operands raise `k` (the
table of R153); every other transaction stays in Ready. In ErrorHold the kind stays until an ERRACK write or reset
returns to Ready. R168: with no transaction to come the state stays as it is; that a step is idle then is the
model's choice (notes/assumptions/12.md). -/
def Obligations.ErrorTransitions : Prop :=
  ∀ s t : State, step s = .next t →
    match s.inbox with
    | [] => t.err = s.err
    | e :: _ =>
      (s.err = .none → ∀ k, t.err = .latched k ↔ ∃ v, e = .write 0x10#5 v ∧
        ((k = .illegalCommand ∧
            (v.extractLsb' 32 32 ≠ 0#32 ∨ ∃ r, decode (v.extractLsb' 0 32) = .illegal r)) ∨
          (v.extractLsb' 32 32 = 0#32 ∧
            ∃ i, decode (v.extractLsb' 0 32) = .command i ∧ raiseTable s i = some k))) ∧
      (∀ k, s.err = .latched k →
        ((e = .reset ∨ ∃ v, e = .write 0x12#5 v) → t.err = .none) ∧
        (¬ (e = .reset ∨ ∃ v, e = .write 0x12#5 v) → t.err = .latched k))

/-- R168: with no transaction to come the unit is idle and holds its state. (That a step is idle then is the
model's choice: notes/assumptions/12.md.) -/
def Obligations.IdleHoldsState : Prop := ∀ s : State, s.inbox = [] → step s = .next s

/-- R171, R176: the step function takes the configuration, and is total: under every accepted configuration and
in every state it answers a next state, no fault and no refusal; there is no state in which the tables are not
ready. The machine's own step is the one under the default configuration (notes/assumptions/2.md). -/
def Obligations.StepTotal : Prop :=
  (∀ (c : Configuration) (s : State), ∃ t, stepWith c s = .next t) ∧
    (∀ s : State, step s = stepWith fmu s) ∧ fmu.cfg = defaults

/-- R40 (b), R174: a read of the destination right after a CMD write returns the result. -/
def Obligations.HostSeesResult : Prop :=
  ∀ (s : State) (i : Instr) (v : Word) (rest : List HostEvent), s.err = .none → i.wellFormed = true →
    s.inbox = .write 0x10#5 (commandWrite (encode i)) :: .read ((destination i).setWidth 5) :: rest →
    Completes i { s with inbox := .read ((destination i).setWidth 5) :: rest } (destination i) v →
    ∃ t, Sys2Proof.core.run 2 s = .next t ∧ t.replies = s.replies ++ [v] ∧ t.inbox = rest

/-! ## Errors -/

/-- R153, R154: an error latched is an IllegalCommand, or FCMD holds the word of a command that can raise
it: kept by every step, from every state. -/
def Obligations.ErrorExplainedInvariant : Prop :=
  ∀ s t : State, ErrorExplained s → step s = .next t → ErrorExplained t

/-- The invariant of `ErrorExplainedInvariant` holds right after reset. -/
def Obligations.ErrorExplainedAtReset : Prop := ErrorExplained State.reset

/-- R153: which command raises what, and on exactly which operands. For every command and every state of a
ready unit: it raises a kind exactly where the table says so. -/
def Obligations.RaiseConditions : Prop :=
  ∀ (i : Instr) (s : State), i.wellFormed = true → s.err = .none →
    ∀ k : ErrorKind, Raises i s k ↔ raiseTable s i = some k

/-- R155: a command that has raised has changed nothing but `ERR` and `FCMD`: after the acknowledge the
state is the one before it but for `FCMD`, which holds the command's word. -/
def Obligations.RaiseIsRestartable : Prop :=
  ∀ (i : Instr) (s t : State), s.err = .none → exec i s = .next t → t.err ≠ .none →
    t.acknowledge = { s with fcmd := encode i }

/-! ## Frames and independence -/

/-- R25, R50: a command writes exactly its destination register, or latches an error and writes no register;
nothing else of the unit, and nothing of the host's side, changes. -/
def Obligations.CommandFrame : Prop :=
  ∀ (i : Instr) (s t : State), exec i s = .next t →
    (∃ w, WritesOnly s t (destination i) w) ∨ (∃ k, RaisesOnly s t k (encode i))

/-- R3, R10: what a command does depends on its source registers alone (and on the next draw, for a fast
command outside its safe range: notes/assumptions/5.md): in two ready states that agree on them it latches the
same error or writes the same word. -/
def Obligations.ResultDependsOnSources : Prop :=
  ∀ (i : Instr) (s t s' t' : State), (∀ q ∈ sources i, s.readX q = t.readX q) → s.draws = t.draws →
    s.err = .none → t.err = .none → exec i s = .next s' → exec i t = .next t' →
    s'.err = t'.err ∧ (s'.err = .none → s'.readX (destination i) = t'.readX (destination i))

/-- R83, R179: inside the safe ranges no draw is made: a command's effect does not depend on the count of
draws, and leaves it alone. -/
def Obligations.SafeCommandsReproducible : Prop :=
  ∀ (i : Instr) (s t : State) (n : Nat), InSafeRange s i → exec i s = .next t →
    exec i { s with draws := n } = .next { t with draws := n } ∧ t.draws = s.draws

/-! ## The arithmetic core -/

/-- R61, R62: ADD and SUB in the hardware's bit form, and that it is saturation of the exact sum and
difference. -/
def Obligations.AddSubSaturate : Prop :=
  ∀ (s : State) (rd ra rb : Reg),
    let a := s.readX ra
    let b := s.readX rb
    let sum : Word := if a.msb = b.msb ∧ (a + b).msb ≠ a.msb then
      (if a.msb then 0x8000000000000000#64 else 0x7FFFFFFFFFFFFFFF#64) else a + b
    let difference : Word := if a.msb ≠ b.msb ∧ (a - b).msb ≠ a.msb then
      (if a.msb then 0x8000000000000000#64 else 0x7FFFFFFFFFFFFFFF#64) else a - b
    Completes (.add rd ra rb) s rd sum ∧ Completes (.sub rd ra rb) s rd difference ∧
      sum.toInt = max rawMin (min rawMax (a.toInt + b.toInt)) ∧
      difference.toInt = max rawMin (min rawMax (a.toInt - b.toInt))

/-- R63, R64: FADD and FSUB: the exact sum and difference where they are representable, otherwise `ANY`,
with nothing else changed. -/
def Obligations.FastAddSub : Prop :=
  ∀ (s : State) (rd ra rb : Reg),
    let a := s.rawX ra
    let b := s.rawX rb
    (IsRaw (a + b) → Completes (.fadd rd ra rb) s rd (Word.ofRaw (a + b))) ∧
    (¬ IsRaw (a + b) → CompletesAny (.fadd rd ra rb) s rd) ∧
    (IsRaw (a - b) → Completes (.fsub rd ra rb) s rd (Word.ofRaw (a - b))) ∧
    (¬ IsRaw (a - b) → CompletesAny (.fsub rd ra rb) s rd)

/-- R67: MUL is the floor product, saturated, on every pair of operands but those of the band, where it
answers `MAX` although the product, which lies just below, is representable. -/
def Obligations.MulCharacterised : Prop :=
  ∀ (s : State) (rd ra rb : Reg),
    let a := s.rawX ra
    let b := s.rawX rb
    let p := a * b / 4294967296
    (InMulBand a b ∨ InMulBand b a → Completes (.mul rd ra rb) s rd 0x7FFFFFFFFFFFFFFF#64 ∧
      0x7FFFFFFF80000000 ≤ p ∧ p ≤ 0x7FFFFFFFFFFFFFFE) ∧
    (¬ (InMulBand a b ∨ InMulBand b a) →
      Completes (.mul rd ra rb) s rd (Word.ofRaw (max rawMin (min rawMax p)))) ∧
    (b = rawOne → Completes (.mul rd ra rb) s rd (s.readX ra)) ∧
    (a = rawOne → Completes (.mul rd ra rb) s rd (s.readX rb))

/-- R68, R72: FMUL and FMOD: exact inside the safe range, `ANY` outside it (the next draw of the free value:
notes/assumptions/5.md); FMOD by zero raises. Inside the safe range MUL writes what FMUL writes, except in the
band of R67, where it writes `MAX`. -/
def Obligations.FastMulMod : Prop :=
  ∀ (s : State) (rd ra rb : Reg),
    let a := s.rawX ra
    let b := s.rawX rb
    let p := a * b / 4294967296
    (IsRaw p → Completes (.fmul rd ra rb) s rd (Word.ofRaw p)) ∧
    (¬ IsRaw p → CompletesAny (.fmul rd ra rb) s rd) ∧
    (IsRaw p → ¬ (InMulBand a b ∨ InMulBand b a) → Completes (.mul rd ra rb) s rd (Word.ofRaw p)) ∧
    (IsRaw p → InMulBand a b ∨ InMulBand b a → Completes (.mul rd ra rb) s rd 0x7FFFFFFFFFFFFFFF#64) ∧
    (b = 0 → Raises (.fmod rd ra rb) s .divideByZero) ∧
    (a = rawMin ∧ b = -1 → CompletesAny (.fmod rd ra rb) s rd) ∧
    (b ≠ 0 → ¬ (a = rawMin ∧ b = -1) → Completes (.fmod rd ra rb) s rd (Word.ofRaw (a - b * a.tdiv b)))

/-- R70: DIV in closed form: the exact quotient rounded to nearest, ties away from zero, saturated exactly
where its magnitude is `2^63` ticks or more; a zero divisor raises DivideByZero. -/
def Obligations.DivClosedForm : Prop :=
  ∀ (s : State) (rd ra rb : Reg),
    let a := s.rawX ra
    let b := s.rawX rb
    let n : Int := |a| * 4294967296
    let negative : Prop := (a < 0) ≠ (b < 0)
    (b = 0 → Raises (.div rd ra rb) s .divideByZero) ∧
    (b ≠ 0 → 9223372036854775808 * |b| ≤ n →
      (negative → Completes (.div rd ra rb) s rd 0x8000000000000000#64) ∧
      (¬ negative → Completes (.div rd ra rb) s rd 0x7FFFFFFFFFFFFFFF#64)) ∧
    (b ≠ 0 → n < 9223372036854775808 * |b| →
      (negative → Completes (.div rd ra rb) s rd (Word.ofRaw (-((2 * n + |b|) / (2 * |b|))))) ∧
      (¬ negative → Completes (.div rd ra rb) s rd (Word.ofRaw ((2 * n + |b|) / (2 * |b|)))))

/-- R71: MOD: the truncating remainder, zero or of the sign of the dividend and smaller than the divisor; a
zero divisor raises DivideByZero. -/
def Obligations.ModRemainder : Prop :=
  ∀ (s : State) (rd ra rb : Reg),
    let a := s.rawX ra
    let b := s.rawX rb
    (b = 0 → Raises (.mod rd ra rb) s .divideByZero) ∧
    (a = rawMin → b = -1 → Completes (.mod rd ra rb) s rd 0#64) ∧
    (b ≠ 0 → ∃ v q : Int, Completes (.mod rd ra rb) s rd (Word.ofRaw v) ∧ a = b * q + v ∧ |v| < |b| ∧
      (0 ≤ a → 0 ≤ v) ∧ (a ≤ 0 → v ≤ 0))

/-- R73: NEG is the two's-complement negation, but `MIN` saturates. -/
def Obligations.NegNegates : Prop :=
  ∀ (s : State) (rd ra : Reg),
    Completes (.neg rd ra) s rd
      (if s.readX ra = 0x8000000000000000#64 then 0x7FFFFFFFFFFFFFFF#64 else -s.readX ra)

/-- R74 to R79: the six compares: signed comparisons of the whole words, 1 or 0; exactly one of less, equal
and greater holds. -/
def Obligations.CompareResults : Prop :=
  ∀ (s : State) (rd ra rb : Reg),
    let a := s.readX ra
    let b := s.readX rb
    let bit : Bool → Word := fun c => if c then 1#64 else 0#64
    Completes (.ceq rd ra rb) s rd (bit (a == b)) ∧ Completes (.cne rd ra rb) s rd (bit (a != b)) ∧
      Completes (.clt rd ra rb) s rd (bit (a.slt b)) ∧ Completes (.cle rd ra rb) s rd (bit (a.sle b)) ∧
      Completes (.cgt rd ra rb) s rd (bit (b.slt a)) ∧ Completes (.cge rd ra rb) s rd (bit (b.sle a)) ∧
      (a.slt b).toNat + (a == b).toNat + (b.slt a).toNat = 1

/-- R80, R81: ITOF shifts an in-range integer into place and raises DomainError on the others; FTOI is the
arithmetic shift; converting there and back is the identity. -/
def Obligations.Conversions : Prop :=
  ∀ (s : State) (rd ra : Reg),
    let n := s.rawX ra
    (-2147483648 ≤ n → n ≤ 2147483647 → Completes (.itof rd ra) s rd (s.readX ra <<< 32)) ∧
    (n < -2147483648 ∨ 2147483647 < n → Raises (.itof rd ra) s .domainError) ∧
    Completes (.ftoi rd ra) s rd ((s.readX ra).sshiftRight 32) ∧
    (-2147483648 ≤ n → n ≤ 2147483647 → ∀ rq : Reg, ∃ t, exec (.itof rd ra) s = .next t ∧
      Completes (.ftoi rq rd) t rq (s.readX ra))

/-- R49, R82: LDC loads the constants of R49 with the default values of R7 (that the machine is built with
the defaults is the model's choice: notes/assumptions/2.md). -/
def Obligations.LdcConstants : Prop :=
  ∀ (s : State) (rd : Reg),
    Completes (.ldc rd 0#4) s rd 0x0000000000000000#64 ∧
      Completes (.ldc rd 1#4) s rd 0x0000000100000000#64 ∧
      Completes (.ldc rd 2#4) s rd 0x7FFFFFFFFFFFFFFF#64 ∧
      Completes (.ldc rd 3#4) s rd 0x8000000000000000#64 ∧
      Completes (.ldc rd 4#4) s rd 0x00000003243F6A88#64 ∧
      Completes (.ldc rd 5#4) s rd 0x00000001921FB544#64 ∧
      Completes (.ldc rd 6#4) s rd 0x00000006487ED511#64 ∧
      Completes (.ldc rd 7#4) s rd 0x00000000B17217F7#64 ∧
      Completes (.ldc rd 8#4) s rd 0x0000001F00000000#64 ∧
      Completes (.ldc rd 9#4) s rd 0xFFFFFFE000000000#64 ∧
      Completes (.ldc rd 10#4) s rd 0x0000000000000001#64

/-! ## Elementary operations -/

/-- R90, R91, R92: SIGN, ABS (with the bit trick R91 gives, `MIN` tested first) and FLOOR (the mask). -/
def Obligations.SignAbsFloor : Prop :=
  ∀ (s : State) (rd ra : Reg),
    let a := s.readX ra
    let m := a.sshiftRight 63
    Completes (.sign rd ra) s rd (if a.msb then -1#64 else if a = 0#64 then 0#64 else 1#64) ∧
      Completes (.abs rd ra) s rd
        (if a = 0x8000000000000000#64 then 0x7FFFFFFFFFFFFFFF#64 else (a + m) ^^^ m) ∧
      Completes (.floor rd ra) s rd (a &&& 0xFFFFFFFF00000000#64)

/-- R93, R94: CEIL is the least integral value not below the operand, ROUND the nearest one with ties to
even, each saturating to `MAX` where that is not representable. -/
def Obligations.CeilRound : Prop :=
  ∀ (s : State) (rd ra : Reg),
    let a := s.rawX ra
    (∃ v : Int, Completes (.ceil rd ra) s rd (Word.ofRaw v) ∧ IsRaw v ∧
      if a > 0x7FFFFFFF00000000 then v = rawMax
      else v % 4294967296 = 0 ∧ a ≤ v ∧ v < a + 4294967296) ∧
    (∃ v : Int, Completes (.round rd ra) s rd (Word.ofRaw v) ∧ IsRaw v ∧
      if a ≥ 0x7FFFFFFF80000000 then v = rawMax
      else v % 4294967296 = 0 ∧ |v - a| ≤ 2147483648 ∧
        (|v - a| = 2147483648 → v / 4294967296 % 2 = 0))

/-- R95: the relations between the Elementary Ops that hold for every raw value. -/
def Obligations.ElementaryRelations : Prop :=
  ∀ a b : Int, IsRaw a → IsRaw b →
    fFloor a ≤ a ∧ a - fFloor a = a % 4294967296 ∧ a - fFloor a < rawOne ∧
      fFloor a ≤ fRound a ∧ fRound a ≤ fCeil a ∧ a ≤ fCeil a ∧
      fFloor (fFloor a) = fFloor a ∧ fCeil (fCeil a) = fCeil a ∧ fRound (fRound a) = fRound a ∧
      (a ≤ b → fFloor a ≤ fFloor b ∧ fCeil a ≤ fCeil b ∧ fRound a ≤ fRound b) ∧
      fAbs a = fAbs (fNeg a) ∧ (a ≠ rawMin → fSign a * fAbs a = a) ∧ fFtoi a = fFloor a / 4294967296 ∧
      |fRound a - a| ≤ 2147483648 ∧ (0x7FFFFFFF80000000 ≤ a → |fRound a - a| < 2147483648)

/-! ## Square root, logarithm and powers -/

/-- R101: SQRT of a non-negative value: the integer square root of the radicand, rounded up where the
remainder exceeds it. The radicand is `a · 2^32`, lowered by `2^30` exactly where the correction step is
taken (the remainder of the first pass is above `2^32 − 1`); without the correction this is the closed form
of R102. A negative operand raises DomainError. -/
def Obligations.SqrtResult : Prop :=
  ∀ (s : State) (rd ra : Reg),
    let a := s.rawX ra
    let n := a.toNat
    let v := n * 4294967296 -
      (if n - Nat.sqrt n * Nat.sqrt n > 4294967295 then 1073741824 else 0)
    let r := Nat.sqrt v
    (0 ≤ a → Completes (.sqrt rd ra) s rd (Word.ofRaw (if v - r * r > r then r + 1 else r))) ∧
    (a < 0 → Raises (.sqrt rd ra) s .domainError)

/-- R101 governs where R102's closed form departs from it ("where they disagree rule R101 governs"): on
this operand the algorithm answers one tick less than the closed form (notes/assumptions/20.md). -/
def Obligations.SqrtDepartsFromClosedForm : Prop :=
  (∀ (s : State) (rd ra : Reg), s.readX ra = 0x79F74C3F42028DCD#64 →
    Completes (.sqrt rd ra) s rd 0x0000B0B37ED4D57B#64) ∧
  (let v := 0x79F74C3F42028DCD * 4294967296
   let r := Nat.sqrt v
   v - r * r > r ∧ r + 1 = 0xB0B37ED4D57C)

/-- R105: LOG2 of a positive value: the integer part of the result is the exponent of the leading bit, the
result is in `[−32·ONE, 31·ONE − 1]`, exact for a power of two; any other operand raises DomainError. -/
def Obligations.Log2Result : Prop :=
  ∀ (s : State) (rd ra : Reg),
    let a := s.rawX ra
    (0 < a → ∃ v : Int, fLog2 a = .value v ∧ Completes (.log2 rd ra) s rd (Word.ofRaw v) ∧
      v / 4294967296 = (Nat.log2 a.toNat : Int) - 32 ∧ -32 * rawOne ≤ v ∧ v ≤ 31 * rawOne - 1 ∧
      (a = 2 ^ Nat.log2 a.toNat → v % 4294967296 = 0)) ∧
    (a ≤ 0 → Raises (.log2 rd ra) s .domainError)

/-- R105: the value of LOG2. `m` are the mantissas from the normalised one on, each the floor square of the one
before it, halved where it reaches two units; the fractional bit of weight `2^(31−i)` is set where that
happens. A non-positive operand raises DomainError. -/
def Obligations.Log2Digits : Prop :=
  ∀ (s : State) (rd ra : Reg),
    let a := s.rawX ra
    let e := Nat.log2 a.toNat
    (0 < a → ∃ m : Nat → Int, m 0 = a * 4294967296 / 2 ^ e ∧
      (∀ i, m (i + 1) = if m i * m i / 4294967296 ≥ 2 * rawOne then m i * m i / 4294967296 / 2
        else m i * m i / 4294967296) ∧
      Completes (.log2 rd ra) s rd (Word.ofRaw (((e : Int) - 32) * rawOne +
        ∑ i ∈ Finset.range 32, if m i * m i / 4294967296 ≥ 2 * rawOne then 2 ^ (31 - i) else 0))) ∧
    (a ≤ 0 → Raises (.log2 rd ra) s .domainError)

/-- R107: LN is the floor product of LOG2 and LN2, in the stated range; a non-positive operand raises
DomainError. -/
def Obligations.LnResult : Prop :=
  ∀ (s : State) (rd ra : Reg),
    let a := s.rawX ra
    (0 < a → ∃ l : Int, fLog2 a = .value l ∧
      Completes (.ln rd ra) s rd (Word.ofRaw (l * 0xB17217F7 / 4294967296)) ∧
      (0xFFFFFFE9D1BD0120#64).toInt ≤ l * 0xB17217F7 / 4294967296 ∧
      l * 0xB17217F7 / 4294967296 ≤ 0x000000157CD0E6E8) ∧
    (a ≤ 0 → Raises (.ln rd ra) s .domainError)

/-- R108, R109: POW2 answers on every operand, at least two ticks; the saturation bounds; exact for integral
exponents from 0 to 30; a negative exponent is inverted. -/
def Obligations.Pow2Result : Prop :=
  ∀ (s : State) (rd ra : Reg),
    let a := s.rawX ra
    ∃ v : Int, fPow2 fmu.cfg a = .value v ∧ Completes (.pow2 rd ra) s rd (Word.ofRaw v) ∧
      2 ≤ v ∧ v ≤ rawMax ∧ (0 ≤ a → rawOne ≤ v) ∧ (a < 0 → v ≤ rawOne) ∧
      (31 * rawOne ≤ a → v = rawMax) ∧ (a ≤ -31 * rawOne → v = 2) ∧
      (∀ n : Nat, n ≤ 30 → a = n * rawOne → v = 2 ^ n * rawOne) ∧
      (a < 0 → a ≠ rawMin → ∀ w, fPow2 fmu.cfg (-a) = .value w →
        v = (2 * (rawOne * rawOne) + w) / (2 * w))

/-- R108: the value of POW2. `t` are the terms of the series on the fractional part of the magnitude, each
rounded to nearest by its division; they are added up to the first that is zero, which one of the first twelve
iterations reaches on every operand (R109 (b), so the model's cap of 32, R177 and notes/assumptions/6.md, cuts
nothing off). The sum is shifted by the integer part, or is `MAX` from `LOG2MAX` on; a negative exponent takes
the rounded reciprocal. LN2 and LOG2MAX are the defaults (notes/assumptions/2.md). -/
def Obligations.Pow2Series : Prop :=
  ∀ (s : State) (rd ra : Reg),
    let a := s.rawX ra
    let f := |a| % 4294967296
    ∃ (t : Nat → Int) (n : Nat), t 0 = rawOne ∧
      (∀ i : Nat, t (i + 1) = (2 * (f * t i / 4294967296 * 0xB17217F7 / 4294967296) + (i + 1)) /
        (2 * ((i : Int) + 1))) ∧
      n ≤ 12 ∧ t n = 0 ∧ (∀ i < n, t i ≠ 0) ∧
      let p : Int := if 31 * rawOne ≤ |a| then rawMax
        else (∑ i ∈ Finset.range n, t i) * 2 ^ (|a| / 4294967296).toNat
      Completes (.pow2 rd ra) s rd
        (Word.ofRaw (if a < 0 then (2 * (rawOne * rawOne) + p) / (2 * p) else p))

/-- R110, R111: POW: the short-circuits in their order, then `POW2(e · LOG2(b))` with the saturating product;
a zero base with a negative exponent raises DivideByZero; a negative base with a non-zero exponent raises
DomainError, through LOG2 (the documented gap U5: notes/assumptions/16.md). -/
def Obligations.PowResult : Prop :=
  ∀ (s : State) (rd ra rb : Reg),
    let b := s.rawX ra
    let e := s.rawX rb
    (b = rawOne ∨ e = 0 → Completes (.pow rd ra rb) s rd 0x0000000100000000#64) ∧
    (b = 0 → 0 < e → Completes (.pow rd ra rb) s rd 0#64) ∧
    (b = 0 → e < 0 → Raises (.pow rd ra rb) s .divideByZero) ∧
    (0 < b → b ≠ rawOne → e ≠ 0 → ∃ l v : Int, fLog2 b = .value l ∧
      fPow2 fmu.cfg (fMul e l) = .value v ∧ Completes (.pow rd ra rb) s rd (Word.ofRaw v)) ∧
    (b < 0 → e ≠ 0 → Raises (.pow rd ra rb) s .domainError)

/-! ## Forward trigonometry -/

/-- R121: for every accepted configuration the reduced angle lies in the first quadrant, and below
`PI_OVER_2` where `PI` is at most twice it, as in the default configuration. -/
def Obligations.ReducedAngleInQuadrant : Prop :=
  ∀ (c : Config) (a : Int), configOk c = true →
    0 ≤ (clampSin c a).c ∧ (clampSin c a).c ≤ c.piOver2 ∧
      (c.pi ≤ 2 * c.piOver2 → (clampSin c a).c < c.piOver2)

/-- R7, R33, R123: the test of acceptance is R7's condition, neither stricter nor weaker, although it looks at
the constants alone: a configuration is accepted exactly where the inequalities hold and SIN and TAN read inside
their tables on every angle. Under an accepted one no trigonometric command reads outside a table: each answers a
value on every angle. (That the constants must be raw values is R8's and R19's.) -/
def Obligations.TableIndicesInRange : Prop :=
  (∀ c : Config, configOk c = true ↔ WellFormedConfig c) ∧
  ∀ (c : Config) (a : Int), configOk c = true →
    (∃ v, fSin c a = .value v) ∧ (∃ v, fCos c a = .value v) ∧ (∃ v, fFsin c a = .value v) ∧
      (∃ v, fFcos c a = .value v) ∧ (∃ v, fTan c a = .value v)

/-- R131 (a), R17: the four sines and cosines lie in `[−ONE, ONE]`: those of the machine on every angle, and
every value of the four functions under an accepted configuration whose tables have the properties P1 to P4, so
that the excursion of one tick that R131 (a) allows for an arbitrary table does not occur. (The machine is built
with the defaults: notes/assumptions/2.md.) -/
def Obligations.SineRange : Prop :=
  (∀ (s : State) (rd ra : Reg), ∀ i ∈ [Instr.sin rd ra, .cos rd ra, .fsin rd ra, .fcos rd ra],
    ∃ v : Int, Completes i s rd (Word.ofRaw v) ∧ -rawOne ≤ v ∧ v ≤ rawOne) ∧
  ∀ (c : Config) (a v : Int), configOk c = true → TableProperties c →
    fSin c a = .value v ∨ fCos c a = .value v ∨ fFsin c a = .value v ∨ fFcos c a = .value v →
    -rawOne ≤ v ∧ v ≤ rawOne

/-- R121: range reduction with the default constants. `c2` is the 29-fold truncating remainder, moved up by
`PI_TIMES_2` for a negative angle; the vertical flip says that it is `PI` or more; `c1` is what is left after
whole subtractions of `PI`, at most two; the horizontal flip says that `c1` is `PI_OVER_2` or more, and the
reduced angle is what is left after it. -/
def Obligations.RangeReduction : Prop :=
  ∀ a : Int, IsRaw a →
    let r := (List.range 29).foldl (fun v i => v.tmod (0x6487ED5110B4611A / 2 ^ i)) a
    let c2 := if a < 0 then r + 0x6487ED511 else r
    let k := clampSin fmu.cfg a
    0 ≤ c2 ∧ c2 ≤ 0x6487ED511 ∧ (k.fv = true ↔ 0x3243F6A88 ≤ c2) ∧
      ∃ n c1 : Int, 0 ≤ n ∧ n ≤ 2 ∧ c1 = c2 - n * 0x3243F6A88 ∧ 0 ≤ c1 ∧ c1 < 0x3243F6A88 ∧
        (k.fh = true ↔ 0x1921FB544 ≤ c1) ∧ k.c = (if 0x1921FB544 ≤ c1 then c1 - 0x1921FB544 else c1) ∧
        0 ≤ k.c ∧ k.c < 0x1921FB544

/-- R122: the table position of a reduced angle: the scaled angle rounded to an integer (R94), and the residual,
at most half a unit; together they are the scaled angle, and the integer is an index of the table. LUT_INTERVAL
and PI_OVER_2 are the defaults (notes/assumptions/2.md). -/
def Obligations.TablePosition : Prop :=
  ∀ c : Int, 0 ≤ c → c ≤ 0x1921FB544 →
    let p := c * 0x0001FFFF19349798 / 4294967296
    let t := tablePos fmu.cfg c
    t.1 = fRound p / 4294967296 ∧ t.2 = p - fRound p ∧ t.1 * 4294967296 + t.2 = p ∧
      -0x80000000 ≤ t.2 ∧ t.2 ≤ 0x80000000 ∧ 0 ≤ t.1 ∧ t.1 ≤ 205886

/-- R123: the default configuration is accepted, with the values R7 and R123 give. -/
def Obligations.DefaultConfiguration : Prop :=
  configOk fmu.cfg = true ∧ fmu.cfg.lutN = 205887 ∧ lutInterval fmu.cfg = 0x0001FFFF19349798 ∧
    tablePos fmu.cfg (0x1921FB544 - 1) = (205886, -0x20000) ∧ tablePos fmu.cfg 0x1921FB544 = (205886, -1)

/-- R124: SIN completes on every angle with the interpolation of two table entries, both inside the
table. -/
def Obligations.SinResult : Prop :=
  ∀ (s : State) (rd ra : Reg),
    let c := fmu.cfg
    let k := clampSin c (s.rawX ra)
    let t := tablePos c k.c
    let i1 := if k.fh then c.lutN - 1 - t.1 else t.1
    let i2 := if k.fh then c.lutN - 1 - t.1 - fSign t.2 else t.1 + fSign t.2
    let n1 := (c.sinLut i1.toNat).raw
    let n2 := (c.sinLut i2.toNat).raw
    let d := t.2 * |n1 - n2| / 4294967296
    let v := if k.fh then n1 - d else n1 + d
    0 ≤ i1 ∧ i1 ≤ c.lutN - 1 ∧ 0 ≤ i2 ∧ i2 ≤ c.lutN - 1 ∧
      Completes (.sin rd ra) s rd (Word.ofRaw (if k.fv then -v else v))

/-- R125: FSIN completes on every angle with a table entry or its negation; the index is clamped to the last
entry. -/
def Obligations.FsinResult : Prop :=
  ∀ (s : State) (rd ra : Reg),
    let c := fmu.cfg
    let k := clampSin c (s.rawX ra)
    let j := min (k.c / 32768) (c.lutN - 1)
    let i := if k.fh then c.lutN - 1 - j else j
    0 ≤ i ∧ i ≤ c.lutN - 1 ∧
      Completes (.fsin rd ra) s rd
        (Word.ofRaw (if k.fv then -(c.sinLut i.toNat).raw else (c.sinLut i.toNat).raw))

/-- R126, R127, R128: COS and FCOS complete on every angle with the sine and the fast sine of the shifted
angle, which moves toward zero and so stays a raw value. -/
def Obligations.CosResults : Prop :=
  ∀ (s : State) (rd ra : Reg),
    let a := s.rawX ra
    let shifted := if a > 0 then a - 0x3243F6A88 - 0x1921FB544 else a + 0x1921FB544
    IsRaw shifted ∧
    (∃ v, fSin fmu.cfg shifted = .value v ∧ Completes (.cos rd ra) s rd (Word.ofRaw v)) ∧
    (∃ v, fFsin fmu.cfg shifted = .value v ∧ Completes (.fcos rd ra) s rd (Word.ofRaw v))

/-- R129: TAN completes on every angle: one truncating remainder by `PI`, mirrored about `PI_OVER_2`, and the
interpolation of two entries of the tangent table, wrapping. -/
def Obligations.TanResult : Prop :=
  ∀ (s : State) (rd ra : Reg),
    let c := fmu.cfg
    let m := (s.rawX ra).tmod 0x3243F6A88
    let mirrored := decide (|m| > 0x1921FB544)
    let angle := if mirrored then 0x1921FB544 - (|m| - 0x1921FB544) else |m|
    let flip : Bool := decide (m < 0) != mirrored
    let t := tablePos c angle
    let n1 := (c.tanLut t.1.toNat).raw
    let n2 := (c.tanLut (t.1 + fSign t.2).toNat).raw
    let v := wrap64 (n1 + t.2 * |n1 - n2| / 4294967296)
    0 ≤ angle ∧ angle ≤ 0x1921FB544 ∧ 0 ≤ t.1 ∧ t.1 ≤ 205886 ∧ 0 ≤ t.1 + fSign t.2 ∧
      t.1 + fSign t.2 ≤ 205886 ∧ Completes (.tan rd ra) s rd (Word.ofRaw (if flip then -v else v))

/-! ## Inverse trigonometry -/

/-- R140, R141: ATAN completes on every operand, within `[−PI_OVER_2, PI_OVER_2]`, and is odd but for
`MIN`. -/
def Obligations.AtanResult : Prop :=
  ∀ (s : State) (rd ra : Reg),
    let a := s.rawX ra
    ∃ v : Int, fAtan fmu.cfg a = .value v ∧ Completes (.atan rd ra) s rd (Word.ofRaw v) ∧
      -0x1921FB544 ≤ v ∧ v ≤ 0x1921FB544 ∧ (a = 0 → v = 0) ∧ (0 ≤ a → 0 ≤ v) ∧ (a ≤ 0 → v ≤ 0) ∧
      (a ≠ rawMin → fAtan fmu.cfg (-a) = .value (-v))

/-- R140: the value of ATAN. `z` is the magnitude, inverted above one; `t` are the terms of Euler's series with
the ratio `(2k·z²)/((2k+1)·(1+z²))` rounded to nearest; the sum of 29 terms times `z/(1+z²)` is the
arctangent, taken from `PI_OVER_2` where it was inverted, with the operand's sign. -/
def Obligations.AtanSeries : Prop :=
  ∀ (s : State) (rd ra : Reg),
    let a := s.rawX ra
    let z := if rawOne < |a| then (2 * (rawOne * rawOne) + |a|) / (2 * |a|) else |a|
    let w := z * z / 4294967296
    let d : Nat → Int := fun k => (2 * (k : Int) + 3) * (w + rawOne)
    ∃ t : Nat → Int, t 0 = rawOne ∧
      (∀ k : Nat, t (k + 1) =
        t k * ((2 * (((k : Int) + 1) * (2 * w) * 4294967296) + d k) / (2 * d k)) / 4294967296) ∧
      let sum := rawOne + ∑ k ∈ Finset.range 28, t (k + 1)
      let u := (2 * (sum * z / 4294967296 * 4294967296) + (w + rawOne)) / (2 * (w + rawOne))
      let r := if rawOne < |a| then 0x1921FB544 - u else u
      Completes (.atan rd ra) s rd (Word.ofRaw (if a < 0 then -r else r))

/-- R142: ATAN2 completes on every pair of operands, within `[−PI, PI]`; on the axis `x = 0` it answers
`±PI_OVER_2` or 0, and off it PI_OVER_2 with the sign of `y` where the denominator overflows, else one of the
two rational forms with its quadrant correction. (The overflow is the pseudocode's `den = MAX`, which holds on one
negative quotient more than R142's sentence about its threshold says: notes/assumptions/21.md.) -/
def Obligations.Atan2Result : Prop :=
  ∀ (s : State) (rd ra rb : Reg),
    let y := s.rawX ra
    let x := s.rawX rb
    ∃ v : Int, Completes (.atan2 rd ra rb) s rd (Word.ofRaw v) ∧ -0x3243F6A88 ≤ v ∧ v ≤ 0x3243F6A88 ∧
      (x = 0 → v = if y > 0 then 0x1921FB544 else if y = 0 then 0 else -0x1921FB544) ∧
      (x ≠ 0 → ∃ z den : Int, fDiv y x = .value z ∧ den = fAdd rawOne (fMul (fMul 0x47AE147B z) z) ∧
        rawOne ≤ den ∧
        (den = rawMax → v = if y < 0 then -0x1921FB544 else 0x1921FB544) ∧
        (den ≠ rawMax → |z| < rawOne → ∃ q : Int, fDiv z den = .value q ∧
          v = if x < 0 then (if y < 0 then q - 0x3243F6A88 else q + 0x3243F6A88) else q) ∧
        (den ≠ rawMax → rawOne ≤ |z| → ∃ q : Int, fDiv z (fAdd (fMul z z) 0x47AE147B) = .value q ∧
          v = if y < 0 then 0x1921FB544 - q - 0x3243F6A88 else 0x1921FB544 - q))

/-- R144: ACOS completes on `[−ONE, ONE]`, within `[0, PI]`, with the arctangent of `sqrt(1 − a²)/a` and `PI`
added for a negative operand; `PI_OVER_2` at zero; outside it raises DomainError. -/
def Obligations.AcosResult : Prop :=
  ∀ (s : State) (rd ra : Reg),
    let a := s.rawX ra
    (-rawOne ≤ a → a ≤ rawOne → ∃ v : Int, Completes (.acos rd ra) s rd (Word.ofRaw v) ∧
      0 ≤ v ∧ v ≤ 0x3243F6A88 ∧ (a = 0 → v = 0x1921FB544) ∧
      (a = rawOne → v = 0) ∧ (a = -rawOne → v = 0x3243F6A88) ∧
      (a ≠ 0 → ∃ t q r : Int, fSqrt (rawOne - a * a / 4294967296) = .value t ∧ fDiv t a = .value q ∧
        fAtan fmu.cfg q = .value r ∧ v = if a < 0 then r + 0x3243F6A88 else r)) ∧
    (a < -rawOne ∨ rawOne < a → Raises (.acos rd ra) s .domainError)

/-! ## The source's worked examples -/

/-- FM §8 as spec/95_test_vectors.md section 1 gives it (T1 to T5 and the elementary functions at their named
points), each on concrete operands. -/
def Obligations.SourceExamples : Prop :=
  Completes (.add 3#4 1#4 2#4) (exampleState 0x7FFFFFFFFFFFFFFF#64 0x0000000100000000#64) 3#4
      0x7FFFFFFFFFFFFFFF#64 ∧
    Completes (.mul 3#4 1#4 2#4) (exampleState 0x8000000000000000#64 0x0000000100000000#64) 3#4
      0x8000000000000000#64 ∧
    Completes (.div 3#4 1#4 2#4) (exampleState 0x0000000500000000#64 0x0000000200000000#64) 3#4
      0x0000000280000000#64 ∧
    Raises (.div 3#4 1#4 2#4) (exampleState 0x0000000500000000#64 0#64) .divideByZero ∧
    Completes (.mod 3#4 1#4 2#4) (exampleState 0x8000000000000000#64 0xFFFFFFFF00000000#64) 3#4 0#64 ∧
    Completes (.sqrt 3#4 1#4) (exampleState 0x0000000400000000#64 0#64) 3#4 0x0000000200000000#64 ∧
    Raises (.sqrt 3#4 1#4) (exampleState 0xFFFFFFFF00000000#64 0#64) .domainError ∧
    Completes (.log2 3#4 1#4) (exampleState 0x0000000100000000#64 0#64) 3#4 0#64 ∧
    Completes (.sin 3#4 1#4) (exampleState 0#64 0#64) 3#4 0#64 ∧
    Completes (.cos 3#4 1#4) (exampleState 0#64 0#64) 3#4 0x0000000100000000#64 ∧
    Completes (.sin 3#4 1#4) (exampleState 0x00000001921FB544#64 0#64) 3#4 0x0000000100000000#64 ∧
    Completes (.atan 3#4 1#4) (exampleState 0x0000000100000000#64 0#64) 3#4 0x00000000C90FDA93#64 ∧
    Completes (.atan2 3#4 1#4 2#4) (exampleState 0#64 0#64) 3#4 0#64

/-! ## The table ROMs -/

/-- R17, R18: the contents of the machine's two tables. They have the properties P1 to P4; every entry below the
last is the floor its rule names, of the exact sine or tangent at its angle, to within `10^-9` of a tick for the
sine and, with both sides multiplied by the cosine, `10^-3` for the tangent; and the sample entries are those
R17 and R18 list, with `TANLUT` at π/4 by R18's formula (notes/assumptions/4.md). The tables are those of the
default configuration (notes/assumptions/2.md). -/
def Obligations.DefaultTables : Prop :=
  TableProperties fmu.cfg ∧
    (∀ i : Nat, i < 205886 →
      let θ : ℝ := i * (Real.pi / 2) / 205886
      ((fmu.cfg.sinLut i).raw : ℝ) ≤ Real.sin θ * 2 ^ 32 + 1 / 10 ^ 9 ∧
        Real.sin θ * 2 ^ 32 < (fmu.cfg.sinLut i).raw + 1 + 1 / 10 ^ 9 ∧
        ((fmu.cfg.tanLut i).raw : ℝ) * Real.cos θ ≤ Real.sin θ * 2 ^ 32 + 1 / 10 ^ 3 ∧
        Real.sin θ * 2 ^ 32 < ((fmu.cfg.tanLut i).raw + 1) * Real.cos θ + 1 / 10 ^ 3) ∧
    fmu.cfg.sinLut 1 = 0x8000#64 ∧ fmu.cfg.sinLut 2 = 0x10000#64 ∧ fmu.cfg.sinLut 3 = 0x18000#64 ∧
    fmu.cfg.sinLut 205884 = 0xFFFFFFFF#64 ∧ fmu.cfg.sinLut 205885 = 0xFFFFFFFF#64 ∧
    fmu.cfg.tanLut 1 = 0x8000#64 ∧ fmu.cfg.tanLut 2 = 0x10000#64 ∧ fmu.cfg.tanLut 3 = 0x18000#64 ∧
    fmu.cfg.tanLut 205884 = 0xFFFF8C99CBEC#64 ∧ fmu.cfg.tanLut 205885 = 0x1FFFF193417DA#64 ∧
    fmu.cfg.tanLut 102943 = 0x100000000#64
end

