-- ==== Sys2Proof/Laws/Numeric.lean ====
section
/-!
SUPPORT. The laws of the operations on raw values: the wraps, saturation, the floor product, and the
widths of the arithmetic core's results.
-/

namespace Sys2Proof.Machine

/-- A value is passed on (R9). -/
@[simp] theorem Res.andThen_value (v : Int) (f : Int → Res) : (Res.value v).andThen f = f v := rfl

theorem wrap64_eq_bmod (v : Int) : wrap64 v = Int.bmod v 18446744073709551616 := by
  simp [wrap64, BitVec.toInt_ofInt]

/-- A wrap leaves a raw value alone. -/
theorem wrap64_of_isRaw {v : Int} (h : IsRaw v) : wrap64 v = v := by
  rw [wrap64_eq_bmod]
  simp only [IsRaw, rawMin, rawMax] at h
  apply Int.bmod_eq_of_le <;> omega

/-- A wrap answers a raw value. -/
theorem wrap64_isRaw (v : Int) : IsRaw (wrap64 v) := by
  simp only [IsRaw, wrap64, rawMin, rawMax]
  generalize BitVec.ofInt 64 v = w
  have h1 := w.le_toInt
  have h2 := w.toInt_lt
  norm_num at h1 h2
  omega

/-- Reading back a written raw value. -/
theorem raw_ofRaw {v : Int} (h : IsRaw v) : (Word.ofRaw v).raw = v := by
  have := wrap64_of_isRaw h
  simpa [Word.raw, Word.ofRaw, wrap64] using this

@[simp] theorem ofRaw_raw (w : Word) : Word.ofRaw w.raw = w := by
  simp [Word.ofRaw, Word.raw]

/-- Two integers congruent modulo `2^64` wrap to the same raw value. -/
theorem wrap64_congr {v u : Int} (k : Int) (h : v = u + k * 18446744073709551616) :
    wrap64 v = wrap64 u := by
  subst h
  rw [wrap64_eq_bmod, wrap64_eq_bmod]
  simp [Int.bmod_def, Int.add_mul_emod_self_right]

/-- Saturation answers a raw value. -/
theorem clamp_isRaw (v : Int) : IsRaw (clamp v) := by
  simp only [clamp, IsRaw, rawMin, rawMax]
  split_ifs <;> omega

/-- Saturation leaves a raw value alone. -/
theorem clamp_of_isRaw {v : Int} (h : IsRaw v) : clamp v = v := by
  simp only [clamp, IsRaw, rawMin, rawMax] at *
  split_ifs <;> omega

theorem fAdd_isRaw (a b : Int) : IsRaw (fAdd a b) := clamp_isRaw _
theorem fSub_isRaw (a b : Int) : IsRaw (fSub a b) := clamp_isRaw _

theorem fNeg_isRaw {a : Int} (h : IsRaw a) : IsRaw (fNeg a) := by
  simp only [fNeg, IsRaw, rawMin, rawMax] at *
  split_ifs <;> omega

/-- The floor product lies between the two sides of the floor. -/
theorem mulfloor_bounds (a b : Int) :
    mulfloor a b * 4294967296 ≤ a * b ∧ a * b < mulfloor a b * 4294967296 + 4294967296 := by
  simp only [mulfloor]
  omega

/-- The split of a raw value into its halves (R65). -/
theorem halves (v : Int) : highHalf v * 4294967296 + lowHalf v = v ∧ 0 ≤ lowHalf v ∧
    lowHalf v < 4294967296 := by
  simp only [highHalf, lowHalf]
  omega

end Sys2Proof.Machine
end

