-- ==== Sys2Proof/Laws/Divide.lean ====
section
/-!
SUPPORT. What the divider of R69 computes: its loop holds the quotient of what is left, so the whole is the
closed form of R70.
-/

namespace Sys2Proof.Machine

/-- The nibble skip scales the divisor and the bit position together (R69). -/
theorem skipNibbles_spec (fuel dvr bp : Nat) :
    (skipNibbles fuel dvr bp).1 * 2 ^ bp = dvr * 2 ^ (skipNibbles fuel dvr bp).2 ∧
      (skipNibbles fuel dvr bp).2 ≤ bp ∧ (skipNibbles fuel dvr bp).1 ≤ dvr := by
  induction fuel generalizing dvr bp with
  | zero => simp [skipNibbles]
  | succ n ih =>
    simp only [skipNibbles]
    split_ifs with h
    · obtain ⟨h1, h2, h3⟩ := ih (dvr / 16) (bp - 4)
      obtain ⟨m, rfl⟩ : ∃ m, bp = m + 4 := ⟨bp - 4, by omega⟩
      obtain ⟨k, rfl⟩ : ∃ k, dvr = 16 * k := ⟨dvr / 16, by omega⟩
      simp only [Nat.add_sub_cancel, Nat.mul_div_cancel_left k (by norm_num : 0 < 16)] at *
      refine ⟨?_, by omega, by omega⟩
      calc _ = (skipNibbles n k m).1 * 2 ^ m * 16 := by ring
        _ = _ := by rw [h1]; ring
    · simp

/-- A shift by at most the leading zero count loses no bit. -/
theorem shift_lt {rem shift : Nat} (h0 : rem ≠ 0) (h : rem < 18446744073709551616)
    (hs : shift ≤ clz64 rem) : rem * 2 ^ shift < 18446744073709551616 := by
  have h1 : rem < 2 ^ (Nat.log2 rem + 1) := Nat.lt_log2_self
  have h2 : Nat.log2 rem < 64 := (Nat.log2_lt h0).2 (by simpa using h)
  have h3 : shift + (Nat.log2 rem + 1) ≤ 64 := by simp only [clz64] at hs; omega
  calc rem * 2 ^ shift < 2 ^ (Nat.log2 rem + 1) * 2 ^ shift :=
        Nat.mul_lt_mul_of_pos_right h1 (by positivity)
    _ = 2 ^ (shift + (Nat.log2 rem + 1)) := by rw [← pow_add, add_comm]
    _ ≤ 2 ^ 64 := Nat.pow_le_pow_right (by norm_num) h3
    _ = 18446744073709551616 := by norm_num

/-- The quotient of a remainder split by one digit. -/
theorem split_quotient (d r dvr p : Nat) (h : 0 < dvr) :
    (d * dvr + r) * p / dvr = d * p + r * p / dvr := by
  rw [show (d * dvr + r) * p = r * p + dvr * (d * p) by ring, Nat.add_mul_div_left _ _ h, add_comm]

/-- One iteration of R69's loop, with the shift `2 ^ t` written as a product. -/
theorem divLoop_step (fuel rem dvr quo bp : Nat) (h0 : rem ≠ 0) (hr : rem < 18446744073709551616) :
    ∃ b t, bp = b + t ∧ rem * 2 ^ t < 18446744073709551616 ∧
      divLoop (fuel + 1) rem dvr quo bp =
        if (rem * 2 ^ t / dvr) >>> (64 - b) ≠ 0 then none
        else if b = 0 then some (u64 (quo + u64 (rem * 2 ^ t / dvr * 2 ^ b)))
        else divLoop fuel (u64 (rem * 2 ^ t % dvr * 2)) dvr
          (u64 (quo + u64 (rem * 2 ^ t / dvr * 2 ^ b))) (b - 1) := by
  have hlt := shift_lt h0 hr (Nat.min_le_left (clz64 rem) bp)
  refine ⟨bp - min (clz64 rem) bp, min (clz64 rem) bp, by omega, hlt, ?_⟩
  have hu : u64 (rem * 2 ^ min (clz64 rem) bp) = rem * 2 ^ min (clz64 rem) bp := by
    rw [u64, Nat.mod_eq_of_lt hlt]
  simp only [divLoop, h0, if_false, hu, Nat.shiftLeft_eq, pow_one]

/-- The loop of R69 answers the quotient of what is left, added to what it has, or none where that needs
more than 64 bits. -/
theorem divLoop_spec (fuel rem dvr quo bp : Nat) (hf : bp < fuel) (hb : bp < 64) (hd : 0 < dvr)
    (hdm : dvr ≤ 9223372036854775808) (hr : rem < 18446744073709551616)
    (hq : quo = 0 ∨ quo + rem * 2 ^ bp / dvr < 18446744073709551616) :
    divLoop fuel rem dvr quo bp =
      if 18446744073709551616 ≤ quo + rem * 2 ^ bp / dvr then none
      else some (quo + rem * 2 ^ bp / dvr) := by
  induction fuel generalizing rem quo bp with
  | zero => omega
  | succ n ih =>
    by_cases h0 : rem = 0
    · subst h0
      have : ¬ 18446744073709551616 ≤ quo := by simp at hq; omega
      simp [divLoop, this]
    obtain ⟨b, t, rfl, hm, hstep⟩ := divLoop_step n rem dvr quo bp h0 hr
    rw [hstep]
    have hT : rem * 2 ^ (b + t) / dvr =
        rem * 2 ^ t / dvr * 2 ^ b + rem * 2 ^ t % dvr * 2 ^ b / dvr := by
      rw [← split_quotient _ _ _ _ hd, Nat.div_add_mod', pow_add]
      congr 1
      ring
    rw [hT] at hq ⊢
    generalize hM : rem * 2 ^ t = m at *
    generalize hD : m / dvr = d at *
    have hrd : m % dvr < dvr := Nat.mod_lt _ hd
    generalize hR : m % dvr = r at *
    -- the rest contributes less than one unit of the digit's weight
    have hrest : r * 2 ^ b / dvr < 2 ^ b :=
      (Nat.div_lt_iff_lt_mul hd).2 (by rw [mul_comm]; exact Nat.mul_lt_mul_of_pos_left hrd (by positivity))
    have hpow : 2 ^ (64 - b) * 2 ^ b = 18446744073709551616 := by
      rw [← pow_add, Nat.sub_add_cancel (by omega)]; norm_num
    have hov : d >>> (64 - b) ≠ 0 ↔ 18446744073709551616 ≤ d * 2 ^ b := by
      rw [Nat.shiftRight_eq_div_pow, Ne, Nat.div_eq_zero_iff_lt (by positivity), not_lt, ← hpow]
      exact ⟨fun h => Nat.mul_le_mul_right _ h, fun h => Nat.le_of_mul_le_mul_right h (by positivity)⟩
    by_cases hc : 18446744073709551616 ≤ d * 2 ^ b
    · rw [if_pos (hov.2 hc),
        if_pos (le_trans hc (le_trans (Nat.le_add_right _ _) (Nat.le_add_left _ _)))]
    rw [if_neg (by rw [hov]; exact hc)]
    -- no overflow in this digit: the whole stays below 2^64
    have hsum : quo + (d * 2 ^ b + r * 2 ^ b / dvr) < 18446744073709551616 := by
      rcases hq with rfl | h
      · have hle : d + 1 ≤ 2 ^ (64 - b) := by
          by_contra hcon
          exact hc (by rw [← hpow]; exact Nat.mul_le_mul_right _ (by omega))
        have := Nat.mul_le_mul_right (2 ^ b) hle
        rw [hpow, add_mul] at this
        omega
      · exact h
    have hu1 : u64 (d * 2 ^ b) = d * 2 ^ b := Nat.mod_eq_of_lt (not_le.1 hc)
    have hu2 : u64 (quo + d * 2 ^ b) = quo + d * 2 ^ b :=
      Nat.mod_eq_of_lt (lt_of_le_of_lt (Nat.add_le_add_left (Nat.le_add_right _ _) _) hsum)
    rw [hu1, hu2, if_neg (show ¬ 18446744073709551616 ≤ _ from not_le.2 hsum)]
    by_cases hb0 : b = 0
    · subst hb0
      simp [Nat.div_eq_of_lt hrd]
    rw [if_neg hb0]
    obtain ⟨e, rfl⟩ : ∃ e, b = e + 1 := ⟨b - 1, by omega⟩
    have hu3 : u64 (r * 2) = r * 2 := Nat.mod_eq_of_lt (by omega)
    have he : r * 2 * 2 ^ e / dvr = r * 2 ^ (e + 1) / dvr := by rw [pow_succ]; congr 1; ring
    rw [hu3, Nat.add_sub_cancel, ih (r * 2) (quo + d * 2 ^ (e + 1)) e (by omega) (by omega)
      (by omega) (by rw [he]; omega), he, if_neg (by omega)]
    congr 1
    omega

/-- The magnitude of the quotient, in ticks and rounded half up (R70). -/
def quotientMagnitude (a b : Int) : Nat :=
  (2 * (a.natAbs * 4294967296) + b.natAbs) / (2 * b.natAbs)

/-- The doubled quotient never is `2^64 − 1` (R70's argument that a result below the threshold never
rounds up to `2^63`). -/
theorem doubled_quotient_ne (A B : Nat) (hA : A ≤ 9223372036854775808) (hB0 : 0 < B) :
    A * 8589934592 / B ≠ 18446744073709551615 := by
  intro h
  have h1 := Nat.div_add_mod (A * 8589934592) B
  have h2 := Nat.mod_lt (A * 8589934592) hB0
  rw [h] at h1
  omega

/-- The closed form of R70: saturation exactly when the magnitude of the exact quotient is `2^63` ticks or
more, otherwise the quotient rounded to nearest, ties away from zero. -/
theorem divide_closed (a b : Int) (ha : IsRaw a) (hb : IsRaw b) (h0 : b ≠ 0) :
    divide a b =
      if 9223372036854775808 * b.natAbs ≤ a.natAbs * 4294967296 then
        (if (a < 0) ≠ (b < 0) then rawMin else rawMax)
      else (if (a < 0) ≠ (b < 0) then -1 else 1) * (quotientMagnitude a b : Int) := by
  have hA : a.natAbs ≤ 9223372036854775808 := by simp only [IsRaw, rawMin, rawMax] at ha; omega
  have hB : b.natAbs ≤ 9223372036854775808 := by simp only [IsRaw, rawMin, rawMax] at hb; omega
  have hB0 : 0 < b.natAbs := Int.natAbs_pos.2 h0
  obtain ⟨hk1, hk2, hk3⟩ := skipNibbles_spec 8 b.natAbs 33
  simp only [divide, quotientMagnitude]
  generalize skipNibbles 8 b.natAbs 33 = k at *
  generalize a.natAbs = A at *
  generalize b.natAbs = B at *
  have hd : 0 < k.1 := by
    rcases Nat.eq_zero_or_pos k.1 with h | h
    · rw [h] at hk1; simp at hk1; omega
    · exact h
  have hT : A * 2 ^ k.2 / k.1 = A * 8589934592 / B := by
    rw [← Nat.mul_div_mul_right (A * 2 ^ k.2) k.1 (show 0 < 2 ^ 33 by norm_num),
      ← Nat.mul_div_mul_right (A * 8589934592) B (show 0 < 2 ^ k.2 by positivity), hk1,
      show A * 2 ^ k.2 * 2 ^ 33 = A * 8589934592 * 2 ^ k.2 by ring]
  rw [divLoop_spec 34 A k.1 0 k.2 (by omega) (by omega) hd (by omega) (by omega) (Or.inl rfl)]
  rw [Nat.zero_add, hT]
  have hsat : 18446744073709551616 ≤ A * 8589934592 / B ↔
      9223372036854775808 * B ≤ A * 4294967296 := by
    rw [Nat.le_div_iff_mul_le hB0]; omega
  have hne := doubled_quotient_ne A B hA hB0
  by_cases hc : 9223372036854775808 * B ≤ A * 4294967296
  · rw [if_pos (hsat.2 hc), if_pos hc]
    by_cases h1 : a < 0 <;> by_cases h2 : b < 0 <;> simp [h1, h2]
  rw [if_neg (fun h => hc (hsat.1 h)), if_neg hc]
  have hlt : A * 8589934592 / B < 18446744073709551615 := by
    have := mt hsat.1 hc
    omega
  have hmag : (A * 8589934592 / B + 1) / 2 = (2 * (A * 4294967296) + B) / (2 * B) := by
    rw [show 2 * (A * 4294967296) + B = A * 8589934592 + B by ring, mul_comm 2 B,
      ← Nat.div_div_eq_div_mul, Nat.add_div_right _ hB0]
  have hu : u64 (A * 8589934592 / B + 1) = A * 8589934592 / B + 1 := Nat.mod_eq_of_lt (by omega)
  simp only [hu, Nat.shiftRight_one, hmag]
  have hbound : (2 * (A * 4294967296) + B) / (2 * B) < 9223372036854775808 := by omega
  generalize (2 * (A * 4294967296) + B) / (2 * B) = q at *
  have hw : ∀ v : Int, (-9223372036854775808 < v ∧ v < 9223372036854775808) → wrap64 v = v :=
    fun v hv => wrap64_of_isRaw (by simp only [IsRaw, rawMin, rawMax]; omega)
  by_cases h1 : a < 0 <;> by_cases h2 : b < 0 <;> simp [h1, h2] <;> rw [hw _ (by omega)]

/-- R70 for a non-negative dividend and a positive divisor, in integers. -/
theorem divide_nonneg (a b : Int) (ha : IsRaw a) (hb : IsRaw b) (ha0 : 0 ≤ a) (hb0 : 0 < b) :
    divide a b = if 9223372036854775808 * b ≤ a * 4294967296 then rawMax
      else (2 * (a * 4294967296) + b) / (2 * b) := by
  rw [divide_closed a b ha hb (by omega)]
  have h1 : ¬ a < 0 := by omega
  have h2 : ¬ b < 0 := by omega
  obtain ⟨n, rfl⟩ := Int.eq_ofNat_of_zero_le ha0
  obtain ⟨m, rfl⟩ := Int.eq_ofNat_of_zero_le hb0.le
  simp only [h1, h2, quotientMagnitude, Int.natAbs_natCast, ne_eq, not_true_eq_false, if_false, one_mul]
  norm_cast

/-- DIV is odd in its dividend where the dividend can be negated (R70). -/
theorem divide_neg_left (a b : Int) (ha : IsRaw a) (hb : IsRaw b) (h0 : b ≠ 0) (hm : a ≠ rawMin)
    (hs : a.natAbs * 4294967296 < 9223372036854775808 * b.natAbs) :
    divide (-a) b = -divide a b := by
  have hna : IsRaw (-a) := by simp only [IsRaw, rawMin, rawMax] at *; omega
  rw [divide_closed (-a) b hna hb h0, divide_closed a b ha hb h0]
  simp only [quotientMagnitude, Int.natAbs_neg, not_le.2 hs, if_false]
  by_cases ha0 : a = 0
  · subst ha0
    have hb0 := Int.natAbs_pos.2 h0
    have : b.natAbs / (2 * b.natAbs) = 0 := Nat.div_eq_of_lt (by omega)
    simp only [Int.natAbs_zero, Nat.zero_mul, Nat.zero_add, this, Nat.cast_zero, mul_zero,
      neg_zero]
  · by_cases c1 : a < 0 <;> by_cases c2 : b < 0 <;> by_cases c3 : 0 < a <;> simp [c1, c2, c3] <;> omega

/-- DIV answers a raw value (R60). -/
theorem divide_isRaw (a b : Int) (ha : IsRaw a) (hb : IsRaw b) (h0 : b ≠ 0) : IsRaw (divide a b) := by
  rw [divide_closed a b ha hb h0]
  have hB0 : 0 < b.natAbs := Int.natAbs_pos.2 h0
  split_ifs with h1 h2 h2
  · decide
  · decide
  all_goals
    have hle : quotientMagnitude a b ≤ 9223372036854775807 := by
      have hne := doubled_quotient_ne a.natAbs b.natAbs
        (by simp only [IsRaw, rawMin, rawMax] at ha; omega) hB0
      rw [quotientMagnitude, Nat.div_le_iff_le_mul_add_pred (by omega)]
      have h3 : a.natAbs * 8589934592 / b.natAbs < 18446744073709551615 := by
        have : a.natAbs * 8589934592 / b.natAbs < 18446744073709551616 :=
          (Nat.div_lt_iff_lt_mul hB0).2 (by omega)
        omega
      have h4 := (Nat.div_lt_iff_lt_mul hB0).1 h3
      omega
    simp only [IsRaw, rawMin, rawMax]
    omega

/-- The sign of a quotient: not negative where the operands agree in sign, not positive where they do not
(R70). -/
theorem divide_sign (a b : Int) (ha : IsRaw a) (hb : IsRaw b) (h0 : b ≠ 0) :
    if (a < 0) ≠ (b < 0) then divide a b ≤ 0 else 0 ≤ divide a b := by
  rw [divide_closed a b ha hb h0]
  split_ifs <;> first | decide | omega

/-- F_DIV for a non-zero divisor. -/
theorem fDiv_of_ne (a b : Int) (h : b ≠ 0) : fDiv a b = .value (divide a b) := if_neg h

end Sys2Proof.Machine
end

