-- ==== Sys2Proof/Laws/Encode.lean ====
section
/-!
SUPPORT. The fields of an encoded word (R46, R56): each field of `encodeFields` reads back as it was put,
and a word is the join of its fields.
-/

namespace Sys2Proof

variable (opc : BitVec 8) (rd ra rb : Reg)

/-- The number a word of five fields stands for (R56). -/
theorem encodeFields_toNat : (encodeFields opc rd ra rb).toNat =
    opc.toNat * 16777216 + rd.toNat * 1048576 + ra.toNat * 65536 + rb.toNat * 4096 := by
  have h1 := opc.isLt
  have h2 := rd.isLt
  have h3 := ra.isLt
  have h4 := rb.isLt
  simp only [encodeFields, BitVec.toNat_append, BitVec.toNat_ofNat]
  rw [← Nat.shiftLeft_add_eq_or_of_lt (by omega), ← Nat.shiftLeft_add_eq_or_of_lt (by omega),
    ← Nat.shiftLeft_add_eq_or_of_lt (by omega), ← Nat.shiftLeft_add_eq_or_of_lt (by omega)]
  simp only [Nat.shiftLeft_eq]
  omega

@[simp] theorem opcField_encodeFields : opcField (encodeFields opc rd ra rb) = opc := by
  have h1 := opc.isLt
  have h2 := rd.isLt
  have h3 := ra.isLt
  have h4 := rb.isLt
  apply BitVec.eq_of_toNat_eq
  simp only [opcField, BitVec.extractLsb'_toNat, encodeFields_toNat, Nat.shiftRight_eq_div_pow]
  omega

@[simp] theorem rdField_encodeFields : rdField (encodeFields opc rd ra rb) = rd := by
  have h1 := opc.isLt
  have h2 := rd.isLt
  have h3 := ra.isLt
  have h4 := rb.isLt
  apply BitVec.eq_of_toNat_eq
  simp only [rdField, BitVec.extractLsb'_toNat, encodeFields_toNat, Nat.shiftRight_eq_div_pow]
  omega

@[simp] theorem raField_encodeFields : raField (encodeFields opc rd ra rb) = ra := by
  have h1 := opc.isLt
  have h2 := rd.isLt
  have h3 := ra.isLt
  have h4 := rb.isLt
  apply BitVec.eq_of_toNat_eq
  simp only [raField, BitVec.extractLsb'_toNat, encodeFields_toNat, Nat.shiftRight_eq_div_pow]
  omega

@[simp] theorem rbField_encodeFields : rbField (encodeFields opc rd ra rb) = rb := by
  have h1 := opc.isLt
  have h2 := rd.isLt
  have h3 := ra.isLt
  have h4 := rb.isLt
  apply BitVec.eq_of_toNat_eq
  simp only [rbField, BitVec.extractLsb'_toNat, encodeFields_toNat, Nat.shiftRight_eq_div_pow]
  omega

@[simp] theorem zeroField_encodeFields : zeroField (encodeFields opc rd ra rb) = 0#12 := by
  have h1 := opc.isLt
  have h2 := rd.isLt
  have h3 := ra.isLt
  have h4 := rb.isLt
  apply BitVec.eq_of_toNat_eq
  simp only [zeroField, BitVec.extractLsb'_toNat, encodeFields_toNat, BitVec.toNat_ofNat,
    Nat.shiftRight_eq_div_pow]
  omega

/-- A word whose ZERO field is zero is the join of its other fields (R46). -/
theorem encodeFields_fields (w : CmdWord) (h : zeroField w = 0#12) :
    encodeFields (opcField w) (rdField w) (raField w) (rbField w) = w := by
  have h0 := congrArg BitVec.toNat h
  have hw := w.isLt
  apply BitVec.eq_of_toNat_eq
  rw [encodeFields_toNat]
  simp only [zeroField, opcField, rdField, raField, rbField, BitVec.extractLsb'_toNat, BitVec.toNat_ofNat,
    Nat.shiftRight_eq_div_pow] at *
  omega

end Sys2Proof
end

