-- ==== Sys2Proof/Laws/Multiply.lean ====
section
/-!
SUPPORT. What the multiplier of R65 computes: its accumulated sum is the floor product modulo `2^64` (R66),
and its saturation policy clamps that product, but for one narrow band (R67).
-/

namespace Sys2Proof.Machine

@[simp] theorem addOv_fst (x y : Int) (ov : Bool) : (addOv x y ov).1 = wrap64 (x + y) := rfl

theorem wrap64_add_wrap64_left (x y : Int) : wrap64 (wrap64 x + y) = wrap64 (x + y) := by
  simp [wrap64_eq_bmod]

theorem wrap64_add_wrap64_right (x y : Int) : wrap64 (x + wrap64 y) = wrap64 (x + y) := by
  simp [wrap64_eq_bmod]

/-- The partial products of R65 add up to the floor product (R66). -/
theorem mulfloor_halves (a b : Int) :
    mulfloor a b = lowHalf a * lowHalf b / 4294967296 + lowHalf a * highHalf b +
      highHalf a * lowHalf b + highHalf a * highHalf b * 4294967296 := by
  obtain ⟨ha, -, -⟩ := halves a
  obtain ⟨hb, -, -⟩ := halves b
  have : a * b = lowHalf a * lowHalf b + (lowHalf a * highHalf b + highHalf a * lowHalf b +
      highHalf a * highHalf b * 4294967296) * 4294967296 := by
    conv_lhs => rw [← ha, ← hb]
    ring
  rw [mulfloor, this, Int.add_mul_ediv_right _ _ (by norm_num)]
  ring

/-- R66: the accumulated sum is the floor product modulo `2^64`. -/
theorem mulSum_fst (a b : Int) : (mulSum a b).1 = wrap64 (mulfloor a b) := by
  simp only [mulSum, addOv_fst, wrap64_add_wrap64_left, wrap64_add_wrap64_right, mulfloor_halves]

/-- The carry into bit 63 of an addition, in terms of signs (R65). -/
theorem addOv_snd (x y : Int) (ov : Bool) (hx : IsRaw x) (hy : IsRaw y) :
    (addOv x y ov).2 = (ov || (decide (x < 0) ^^ decide (y < 0) ^^ decide (wrap64 (x + y) < 0))) := by
  have h : ∀ v : Int, IsRaw v → (Word.ofRaw v).msb = decide (v < 0) := by
    intro v hv
    rw [BitVec.msb_eq_toInt]
    have := raw_ofRaw hv
    rw [Word.raw] at this
    rw [this]
  simp only [addOv, BitVec.msb_xor, h x hx, h y hy, h _ (wrap64_isRaw _)]

/-- Bounds of the halves of a raw value. -/
theorem highHalf_bounds {v : Int} (h : IsRaw v) : -2147483648 ≤ highHalf v ∧ highHalf v ≤ 2147483647 := by
  simp only [IsRaw, rawMin, rawMax, highHalf] at *
  omega

/-- A wrap subtracts a multiple of `2^64` and lands in the raw range. -/
theorem wrap64_spec (v : Int) : ∃ k : Int, wrap64 v = v - k * 18446744073709551616 ∧
    -9223372036854775808 ≤ wrap64 v ∧ wrap64 v ≤ 9223372036854775807 := by
  have h := wrap64_isRaw v
  simp only [IsRaw, rawMin, rawMax] at h
  refine ⟨(v - wrap64 v) / 18446744073709551616, ?_, h.1, h.2⟩
  have : (18446744073709551616 : Int) ∣ v - wrap64 v := by
    rw [wrap64_eq_bmod]
    exact Int.dvd_self_sub_bmod
  obtain ⟨k, hk⟩ := this
  omega

/-- The pairs on which R65 saturates although the floor product is representable (R67): one operand
`−(2^32 + 1)`, the other in `[0x8000000080000001, 0x80000000FFFFFFFF]`. -/
def mulBand (a b : Int) : Prop :=
  a = -4294967297 ∧ -9223372034707292159 ≤ b ∧ b ≤ -9223372032559808513

/-- Two operands of which none is negative: the policy of R65 clamps the floor product. -/
theorem fMul_nonneg (a b : Int) (ha : IsRaw a) (hb : IsRaw b) (ha0 : 0 ≤ a) (hb0 : 0 ≤ b) :
    fMul a b = clamp (mulfloor a b) := by
  have hP := mulfloor_halves a b
  have hs := mulSum_fst a b
  have hX := highHalf_bounds ha
  have hY := highHalf_bounds hb
  obtain ⟨hax, hx0, hx1⟩ := halves a
  obtain ⟨hby, hy0, hy1⟩ := halves b
  have hov : (mulSum a b).2 = (addOv (wrap64 (wrap64 (lowHalf a * lowHalf b / 4294967296 + lowHalf a *
      highHalf b) + highHalf a * lowHalf b)) (wrap64 (highHalf a * highHalf b * 4294967296)) (addOv (wrap64
      (lowHalf a * lowHalf b / 4294967296 + lowHalf a * highHalf b)) (highHalf a * lowHalf b) (addOv
      (lowHalf a * lowHalf b / 4294967296) (lowHalf a * highHalf b) false).2).2).2 := rfl
  simp only [fMul, hs, hov]
  generalize highHalf a = X at *
  generalize lowHalf a = x at *
  generalize highHalf b = Y at *
  generalize lowHalf b = y at *
  have hX0 : 0 ≤ X := by omega
  have hY0 : 0 ≤ Y := by omega
  have hh0 : 0 ≤ X * Y := mul_nonneg hX0 hY0
  have hh1 : X * Y ≤ 2147483647 * 2147483647 := mul_le_mul hX.2 hY.2 hY0 (by norm_num)
  have hu0 : 0 ≤ x * Y := mul_nonneg hx0 hY0
  have hu1 : x * Y ≤ 4294967295 * 2147483647 := mul_le_mul (by omega) hY.2 hY0 (by norm_num)
  have hv0 : 0 ≤ X * y := mul_nonneg hX0 hy0
  have hv1 : X * y ≤ 2147483647 * 4294967295 := mul_le_mul hX.2 (by omega) hy0 (by norm_num)
  have hl0 : 0 ≤ x * y := mul_nonneg hx0 hy0
  have hl1 : x * y ≤ 4294967295 * 4294967295 := mul_le_mul (by omega) (by omega) hy0 (by norm_num)
  have hl2 : x * y / 4294967296 ≤ 4294967294 := by omega
  have hl3 : 0 ≤ x * y / 4294967296 := by omega
  -- a zero first operand makes a zero product
  have haz : a = 0 → mulfloor a b = 0 := by rintro rfl; simp [mulfloor]
  rw [wrap64_of_isRaw (v := x * y / 4294967296 + x * Y) (by simp only [IsRaw, rawMin, rawMax]; omega)]
  rw [addOv_snd _ _ _ (wrap64_isRaw _) (wrap64_isRaw _), addOv_snd _ _ _ (by simp only [IsRaw, rawMin, rawMax]; omega) (by simp only [IsRaw, rawMin, rawMax]; omega),
    addOv_snd _ _ _ (by simp only [IsRaw, rawMin, rawMax]; omega) (by simp only [IsRaw, rawMin, rawMax]; omega)]
  rw [wrap64_add_wrap64_left, wrap64_add_wrap64_right, show x * y / 4294967296 + x * Y + X * y + X * Y * 4294967296 = mulfloor a b by rw [hP],
    wrap64_of_isRaw (v := x * y / 4294967296 + x * Y) (by simp only [IsRaw, rawMin, rawMax]; omega)]
  obtain ⟨k, hk, hk1, hk2⟩ := wrap64_spec (mulfloor a b)
  obtain ⟨k', hk', hk1', hk2'⟩ := wrap64_spec (X * Y * 4294967296)
  obtain ⟨k'', hk'', hk1'', hk2''⟩ := wrap64_spec (x * y / 4294967296 + x * Y + X * y)
  generalize wrap64 (mulfloor a b) = s at *
  generalize wrap64 (X * Y * 4294967296) = t at *
  generalize wrap64 (x * y / 4294967296 + x * Y + X * y) = r at *
  generalize mulfloor a b = P at *
  generalize x * y / 4294967296 = l at *
  generalize X * Y = h at *
  generalize x * Y = u at *
  generalize X * y = v at *
  have e1 : decide (a < 0) = false := by simpa using ha0
  have e2 : decide (b < 0) = false := by simpa using hb0
  have e3 : decide (l < 0) = false := by simpa using hl3
  have e4 : decide (u < 0) = false := by simpa using hu0
  have e5 : decide (v < 0) = false := by simpa using hv0
  have e6 : decide (l + u < 0) = false := by simp; omega
  simp only [e1, e2, e3, e4, e5, e6, clamp, rawMin, rawMax, highHalf]
  by_cases c1 : r < 0 <;> by_cases c2 : t < 0 <;> by_cases c3 : s < 0 <;> simp [c1, c2, c3] <;> split_ifs <;>
    omega

/-- The facts about a product of a non-negative and a negative raw value that decide its saturation (R65,
R67): in range, neither policy (b) nor policy (c) can fire; out of range, one of the three does. -/
theorem mixed_product (X x Y y : Int) (hX0 : 0 ≤ X) (hX : X ≤ 2147483647) (hx0 : 0 ≤ x)
    (hx1 : x < 4294967296) (hY : -2147483648 ≤ Y) (hY0 : Y < 0) (hy0 : 0 ≤ y) (hy1 : y < 4294967296)
    (P : Int) (hP : P = x * y / 4294967296 + x * Y + X * y + X * Y * 4294967296) :
    P ≤ 0 ∧ X * Y ≤ 0 ∧
      (-9223372036854775808 ≤ P → -4294967296 ≤ X * Y) ∧
      (4294967296 < X * 4294967296 + x → P ≤ Y * 4294967296 + y) ∧
      (P < -9223372036854775808 → -4294967296 ≤ X * Y → -27670116110564327424 ≤ P ∧
        (P ≤ -18446744073709551616 → Y * 4294967296 + y < P + 18446744073709551616 ∧
          Y * 4294967296 + y < -4294967296 ∧ 4294967296 < X * 4294967296 + x)) := by
  have hh : X * Y ≤ 0 := mul_nonpos_of_nonneg_of_nonpos hX0 (by omega)
  have hu0 : x * Y ≤ -x := by nlinarith
  have hu1 : 4294967295 * Y ≤ x * Y := by nlinarith
  have hv0 : 0 ≤ X * y := mul_nonneg hX0 hy0
  have hv1 : X * y ≤ X * 4294967295 := by nlinarith
  have hl0 : 0 ≤ x * y := mul_nonneg hx0 hy0
  have hl1 : x * y ≤ x * 4294967295 := by nlinarith
  have hb : X * y + X * Y * 4294967296 ≤ 0 := by nlinarith
  have hb1 : 1 ≤ X → X * y + X * Y * 4294967296 ≤ y + Y * 4294967296 ∧ y ≤ X * y ∧ X * Y ≤ Y :=
    fun h => ⟨by nlinarith, by nlinarith, by nlinarith⟩
  have hXz : X = 0 → X * y = 0 ∧ X * Y = 0 := by rintro rfl; simp
  have hYX : -2147483648 * X ≤ X * Y := by nlinarith
  have hYX2 : 2147483647 * Y ≤ X * Y := by nlinarith
  generalize X * Y = h at *
  generalize x * Y = u at *
  generalize X * y = v at *
  generalize x * y = m at *
  refine ⟨by omega, hh, fun h1 => by omega, fun h1 => ?_, fun h1 h2 => ?_⟩
  · obtain ⟨c1, c2, c3⟩ := hb1 (by omega)
    omega
  · have hX1 : 1 ≤ X := by
      by_contra hc
      obtain ⟨e1, e2⟩ := hXz (by omega)
      omega
    obtain ⟨c1, c2, c3⟩ := hb1 hX1
    exact ⟨by omega, fun h3 => ⟨by omega, by omega, by omega⟩⟩

/-- Operands of different signs: the policy of R65 clamps the floor product. -/
theorem fMul_mixed (a b : Int) (ha : IsRaw a) (hb : IsRaw b) (h : (0 ≤ a ∧ b < 0) ∨ (a < 0 ∧ 0 ≤ b)) :
    fMul a b = clamp (mulfloor a b) := by
  have hP := mulfloor_halves a b
  have hX := highHalf_bounds ha
  have hY := highHalf_bounds hb
  obtain ⟨hax, hx0, hx1⟩ := halves a
  obtain ⟨hby, hy0, hy1⟩ := halves b
  have hs : decide (a < 0) = !decide (b < 0) := by
    rcases h with h | h <;> by_cases c : a < 0 <;> by_cases d : b < 0 <;> simp_all <;> omega
  simp only [fMul, mulSum_fst, hs]
  obtain ⟨k, hk, hk1, hk2⟩ := wrap64_spec (mulfloor a b)
  generalize wrap64 (mulfloor a b) = s at *
  generalize mulfloor a b = P at *
  simp only [clamp, rawMin, rawMax, rawOne, highHalf] at *
  rcases h with ⟨h1, h2⟩ | ⟨h1, h2⟩
  · have F := mixed_product (a / 4294967296) (lowHalf a) (b / 4294967296) (lowHalf b) (by omega)
      (by omega) hx0 hx1 (by omega) (by omega) hy0 hy1 P hP
    rw [hax, hby] at F
    obtain ⟨f1, f2, f3, f4, f5⟩ := F
    have d : decide (b < 0) = true := by simpa using h2
    simp only [d, if_pos (show a > b by omega)]
    simp
    split_ifs <;> omega
  · have F := mixed_product (b / 4294967296) (lowHalf b) (a / 4294967296) (lowHalf a) (by omega)
      (by omega) hy0 hy1 (by omega) (by omega) hx0 hx1 P (by rw [hP]; ring_nf)
    rw [hax, hby, mul_comm (b / 4294967296)] at F
    obtain ⟨f1, f2, f3, f4, f5⟩ := F
    have d : decide (b < 0) = false := by simpa using h2
    simp only [d, if_neg (show ¬ a > b by omega)]
    simp
    split_ifs <;> omega

/-- The facts about a product of two negative raw values (R65, R67): where the top of the high product is
not zero, the floor product is `MAX` or more, but for the band. -/
theorem negative_product (A B U V : Int) (hA : (U - 1) * 4294967296 < A) (hB : (V - 1) * 4294967296 < B)
    (hU : U ≤ 2147483648) (hV : V ≤ 2147483648) (hU1 : 1 ≤ U) (hV1 : 1 ≤ V)
    (hB1 : B ≤ V * 4294967296) (hUV : 4294967296 ≤ U * V) (hle : U ≤ V) :
    9223372036854775807 * 4294967296 ≤ A * B ∨
      (A = 4294967297 ∧ 9223372032559808513 ≤ B ∧ B ≤ 9223372034707292159) := by
  have h2 : 2 ≤ U := by nlinarith
  have hA0 : 0 < A := by omega
  have hB0 : 0 < B := by omega
  have key : ((U - 1) * 4294967296 + 1) * ((V - 1) * 4294967296 + 1) ≤ A * B :=
    mul_le_mul (by omega) (by omega) (by nlinarith) (by omega)
  rcases eq_or_lt_of_le h2 with rfl | h3
  · have hVe : V = 2147483648 := by omega
    subst hVe
    by_cases hA2 : A = 4294967297
    · subst hA2
      omega
    · left
      have : 4294967298 * 9223372032559808513 ≤ A * B :=
        mul_le_mul (by omega) (by omega) (by norm_num) (by omega)
      omega
  · left
    have hq : 2147483648 ≤ (U - 1) * (V - 1) := by
      rcases le_or_gt U 65536 with c | c
      · nlinarith
      · nlinarith
    nlinarith

/-- Two negative operands: the policy of R65 clamps the floor product, but for the band of R67. -/
theorem fMul_negative (a b : Int) (ha : IsRaw a) (hb : IsRaw b) (ha0 : a < 0) (hb0 : b < 0) :
    fMul a b = if 4294967296 ≤ highHalf a * highHalf b then rawMax else clamp (mulfloor a b) := by
  have hP := mulfloor_halves a b
  have hX := highHalf_bounds ha
  have hY := highHalf_bounds hb
  obtain ⟨hax, hx0, hx1⟩ := halves a
  obtain ⟨hby, hy0, hy1⟩ := halves b
  simp only [fMul, mulSum_fst, ha0, hb0]
  obtain ⟨k, hk, hk1, hk2⟩ := wrap64_spec (mulfloor a b)
  have hP0 : 0 ≤ mulfloor a b := by
    have := mul_pos_of_neg_of_neg ha0 hb0
    simp only [mulfloor]
    omega
  generalize wrap64 (mulfloor a b) = s at *
  generalize mulfloor a b = P at *
  generalize highHalf a = X at *
  generalize highHalf b = Y at *
  generalize lowHalf a = x at *
  generalize lowHalf b = y at *
  simp only [clamp, rawMin, rawMax, rawOne, highHalf] at *
  have hh0 : 0 < X * Y := mul_pos_of_neg_of_neg (by omega) (by omega)
  have hu : x * Y ≤ 0 := mul_nonpos_of_nonneg_of_nonpos hx0 (by omega)
  have hv : X * y ≤ 0 := mul_nonpos_of_nonpos_of_nonneg (by omega) hy0
  have hl1 : x * y ≤ 4294967295 * 4294967295 := mul_le_mul (by omega) (by omega) hy0 (by norm_num)
  generalize X * Y = h at *
  generalize x * Y = u at *
  generalize X * y = v at *
  generalize x * y = m at *
  simp only [show ¬ (0 < a) by omega]
  simp
  split_ifs <;> omega

/-- R67, on the band: MUL answers `MAX`. -/
theorem fMul_band (a b : Int) (h : mulBand a b ∨ mulBand b a) : fMul a b = rawMax := by
  have hr : ∀ a b, mulBand a b → IsRaw a ∧ IsRaw b ∧ a < 0 ∧ b < 0 ∧
      4294967296 ≤ highHalf a * highHalf b := by
    rintro a b ⟨rfl, g1, g2⟩
    have : highHalf b = -2147483648 := by simp only [highHalf]; omega
    rw [this]
    simp only [IsRaw, rawMin, rawMax]
    refine ⟨by omega, by omega, by omega, by omega, by decide⟩
  rcases h with h | h
  · obtain ⟨h1, h2, h3, h4, h5⟩ := hr a b h
    rw [fMul_negative a b h1 h2 h3 h4, if_pos h5]
  · obtain ⟨h1, h2, h3, h4, h5⟩ := hr b a h
    rw [fMul_negative a b h2 h1 h4 h3, if_pos (by rw [mul_comm]; exact h5)]

/-- R67: MUL clamps the floor product on every pair of operands but those of the band. -/
theorem fMul_closed (a b : Int) (ha : IsRaw a) (hb : IsRaw b) (hband : ¬ (mulBand a b ∨ mulBand b a)) :
    fMul a b = clamp (mulfloor a b) := by
  by_cases h1 : a < 0 <;> by_cases h2 : b < 0
  · rw [fMul_negative a b ha hb h1 h2]
    split_ifs with hc
    · have hX := highHalf_bounds ha
      have hY := highHalf_bounds hb
      obtain ⟨hax, hx0, hx1⟩ := halves a
      obtain ⟨hby, hy0, hy1⟩ := halves b
      have hB := mulfloor_bounds a b
      have F : 9223372036854775807 * 4294967296 ≤ a * b := by
        rcases le_total (-highHalf a) (-highHalf b) with hle | hle
        · have := negative_product (-a) (-b) (-highHalf a) (-highHalf b) (by omega) (by omega)
            (by omega) (by omega) (by omega) (by omega) (by omega) (by rw [neg_mul_neg]; exact hc) hle
          rw [neg_mul_neg] at this
          simp only [mulBand] at hband
          omega
        · have := negative_product (-b) (-a) (-highHalf b) (-highHalf a) (by omega) (by omega)
            (by omega) (by omega) (by omega) (by omega) (by omega)
            (by rw [neg_mul_neg, mul_comm]; exact hc) hle
          rw [neg_mul_neg, mul_comm b a] at this
          simp only [mulBand] at hband
          omega
      have : rawMax ≤ mulfloor a b := by simp only [rawMax]; omega
      simp only [clamp]
      rcases eq_or_lt_of_le this with e | e
      · rw [← e]; decide
      · rw [if_pos e]
    · rfl
  · exact fMul_mixed a b ha hb (by omega)
  · exact fMul_mixed a b ha hb (by omega)
  · exact fMul_nonneg a b ha hb (by omega) (by omega)

/-- MUL answers a raw value on every pair of raw values (R60). -/
theorem fMul_isRaw (a b : Int) (ha : IsRaw a) (hb : IsRaw b) : IsRaw (fMul a b) := by
  by_cases h : mulBand a b ∨ mulBand b a
  · rw [fMul_band a b h]; decide
  · rw [fMul_closed a b ha hb h]; exact clamp_isRaw _

/-- MUL is exact on operands of which one is at least zero and whose product is representable (R67). -/
theorem fMul_of_nonneg (a b : Int) (ha : IsRaw a) (hb : IsRaw b) (h0 : 0 ≤ a)
    (h : IsRaw (mulfloor a b)) : fMul a b = mulfloor a b := by
  rw [fMul_closed a b ha hb (by simp only [mulBand]; omega), clamp_of_isRaw h]

end Sys2Proof.Machine
end

