-- ==== Sys2Proof/Laws/LogPow.lean ====
section
/-!
SUPPORT. The Log/Pow Engine: what the binary logarithm's loops compute, that the series of R108 raises
nothing and stays below `2·ONE`, and that POW2 and POW answer on every operand R153 lets them.
-/

namespace Sys2Proof.Machine

/-! ## Binary logarithm -/

/-- The doubling loop of R105. -/
theorem log2Double_spec (fuel : Nat) (m y : Int) (hm : 0 < m) (hf : rawOne ≤ m * 2 ^ fuel) :
    ∃ j : Nat, log2Double fuel m y = (m * 2 ^ j, y - j * rawOne) ∧ rawOne ≤ m * 2 ^ j ∧
      (j ≠ 0 → m * 2 ^ j < 2 * rawOne) := by
  induction fuel generalizing m y with
  | zero => exact ⟨0, by simp [log2Double], by simpa using hf, by simp⟩
  | succ n ih =>
    rw [log2Double]
    split_ifs with h
    · obtain ⟨j, h1, h2, h3⟩ := ih (m * 2) (y - rawOne) (by omega)
        (by rw [mul_assoc, ← pow_succ']; exact hf)
      refine ⟨j + 1, ?_, by rw [pow_succ', ← mul_assoc]; exact h2, fun _ => ?_⟩
      · rw [h1, pow_succ', ← mul_assoc]; congr 1; push_cast; ring
      · rw [pow_succ', ← mul_assoc]
        rcases Nat.eq_zero_or_pos j with rfl | hj
        · simp; omega
        · exact h3 (by omega)
    · exact ⟨0, by simp, by simpa using h, by simp⟩

/-- The halving loop of R105. -/
theorem log2Halve_spec (fuel : Nat) (m y : Int) (hm : rawOne ≤ m) (hf : m < 2 * rawOne * 2 ^ fuel) :
    ∃ j : Nat, log2Halve fuel m y = (m / 2 ^ j, y + j * rawOne) ∧ rawOne ≤ m / 2 ^ j ∧
      m / 2 ^ j < 2 * rawOne := by
  induction fuel generalizing m y with
  | zero => exact ⟨0, by simp [log2Halve], by simpa using hm, by simpa using hf⟩
  | succ n ih =>
    rw [log2Halve]
    split_ifs with h
    · obtain ⟨j, h1, h2, h3⟩ := ih (m / 2) (y + rawOne) (by omega)
        (by rw [pow_succ', mul_left_comm] at hf; omega)
      have e : m / 2 / 2 ^ j = m / 2 ^ (j + 1) := by
        rw [Int.ediv_ediv_of_nonneg (by norm_num), pow_succ']
      refine ⟨j + 1, ?_, by rw [← e]; exact h2, by rw [← e]; exact h3⟩
      rw [h1, e]; congr 1; push_cast; ring
    · exact ⟨0, by simp, by simpa using hm, by simp; omega⟩

/-- The squaring loop of R105 adds a fraction below twice its first weight. -/
theorem log2Digits_bounds (d : Nat) (m y : Int) (h1 : rawOne ≤ m) (h2 : m < 2 * rawOne) :
    y ≤ log2Digits d m (2 ^ d / 2) y ∧ log2Digits d m (2 ^ d / 2) y < y + 2 ^ d := by
  induction d generalizing m y with
  | zero => simp [log2Digits]
  | succ d ih =>
    have hw : (2 : Int) ^ (d + 1) / 2 = 2 ^ d := by rw [pow_succ]; omega
    have hp : (2 : Int) ^ (d + 1) = 2 ^ d + 2 ^ d := by rw [pow_succ]; ring
    have hpos : (0 : Int) < 2 ^ d := by positivity
    have hB := mulfloor_bounds m m
    have hlo : rawOne * rawOne ≤ m * m := mul_le_mul h1 h1 (by decide) (by omega)
    have hhi : m * m ≤ (2 * rawOne - 1) * (2 * rawOne - 1) :=
      mul_le_mul (by omega) (by omega) (by omega) (by decide)
    rw [log2Digits, hw]
    simp only [rawOne] at *
    split_ifs with h
    · obtain ⟨i1, i2⟩ := ih (mulfloor m m / 2) (y + 2 ^ d) (by omega) (by omega)
      omega
    · obtain ⟨i1, i2⟩ := ih (mulfloor m m) y (by omega) (by omega)
      omega

/-- A mantissa of exactly one adds no fraction (R105). -/
theorem log2Digits_one (d : Nat) (w y : Int) : log2Digits d rawOne w y = y := by
  induction d generalizing w with
  | zero => rfl
  | succ d ih =>
    rw [log2Digits]
    have : mulfloor rawOne rawOne = rawOne := by decide
    simp only [this]
    rw [if_neg (by decide)]
    exact ih _

/-- The normalisation of R105: the exponent, and the mantissa the squaring loop starts with. -/
theorem fLog2_normal (a : Int) (h0 : 0 < a) (ha : IsRaw a) :
    ∃ m : Int, rawOne ≤ m ∧ m < 2 * rawOne ∧
      (a = 2 ^ Nat.log2 a.toNat → m = rawOne) ∧
      fLog2 a = .value (log2Digits 32 m 2147483648 ((Nat.log2 a.toNat - 32 : Int) * rawOne)) := by
  obtain ⟨j, d1, d2, d3⟩ := log2Double_spec 32 a 0 h0 (by simp only [rawOne]; norm_num; omega)
  have hup : a * 2 ^ j < 2 * rawOne * 2 ^ 30 := by
    rcases Nat.eq_zero_or_pos j with rfl | hj
    · simp only [IsRaw, rawMax, rawOne] at *; norm_num; omega
    · have := d3 (by omega)
      simp only [rawOne] at *; norm_num; omega
  obtain ⟨k, e1, e2, e3⟩ := log2Halve_spec 30 (a * 2 ^ j) (0 - j * rawOne) d2 hup
  refine ⟨a * 2 ^ j / 2 ^ k, e2, e3, ?_⟩
  obtain ⟨n, rfl⟩ := Int.eq_ofNat_of_zero_le h0.le
  have hn0 : n ≠ 0 := by rintro rfl; simp at h0
  have hjk : j = 0 ∨ k = 0 := by
    rcases Nat.eq_zero_or_pos j with hj | hj
    · exact Or.inl hj
    · right
      by_contra hk
      obtain ⟨q, rfl⟩ : ∃ q, k = q + 1 := ⟨k - 1, by omega⟩
      have h3 := d3 (by omega)
      rw [pow_succ', ← Int.ediv_ediv_of_nonneg (by norm_num)] at e2
      have := Int.ediv_le_self (b := 2 ^ q) (a := (n : Int) * 2 ^ j / 2) (by omega)
      omega
  have hlog : (Nat.log2 n : Int) = 32 + k - j := by
    have key : Nat.log2 n = 32 + k - j ∧ j ≤ 32 := by
      rcases hjk with rfl | rfl
      · simp only [pow_zero, mul_one] at e2 e3
        have f2 : 4294967296 * 2 ^ k ≤ n := by
          have := (Int.le_ediv_iff_mul_le (by positivity)).1 e2
          simp only [rawOne] at this
          exact_mod_cast this
        have f3 : n < 8589934592 * 2 ^ k := by
          have := (Int.ediv_lt_iff_lt_mul (by positivity)).1 e3
          simp only [rawOne] at this
          norm_num at this
          exact_mod_cast this
        refine ⟨(Nat.log2_eq_iff hn0).2 ⟨?_, ?_⟩, by omega⟩
        · rw [Nat.sub_zero, pow_add]; norm_num; omega
        · rw [Nat.sub_zero, show 32 + k + 1 = 33 + k by omega, pow_add]; norm_num; omega
      · simp only [pow_zero, Int.ediv_one, rawOne] at e2 e3
        have f2 : 4294967296 ≤ n * 2 ^ j := by exact_mod_cast e2
        have f3 : n * 2 ^ j < 8589934592 := by norm_num at e3; exact_mod_cast e3
        have hj : j ≤ 32 := by
          by_contra hc
          have : 2 ^ 33 ≤ 2 ^ j := Nat.pow_le_pow_right (by norm_num) (by omega)
          have : 1 * 2 ^ 33 ≤ n * 2 ^ j := Nat.mul_le_mul (by omega) this
          norm_num at this
          omega
        have hpw : 2 ^ (32 - j) * 2 ^ j = 4294967296 := by rw [← pow_add, Nat.sub_add_cancel hj]; norm_num
        refine ⟨(Nat.log2_eq_iff hn0).2 ⟨?_, ?_⟩, hj⟩
        · rw [Nat.add_zero]
          exact Nat.le_of_mul_le_mul_right (by rw [hpw]; exact f2) (by positivity : 0 < 2 ^ j)
        · rw [Nat.add_zero, pow_succ]
          exact Nat.lt_of_mul_lt_mul_right (a := 2 ^ j) (by rw [mul_right_comm, hpw]; exact f3)
    omega
  have hlogN : Nat.log2 (Int.toNat (n : Int)) = Nat.log2 n := by simp
  refine ⟨fun hp => ?_, ?_⟩
  · rw [hlogN] at hp
    rcases hjk with rfl | rfl
    · simp only [pow_zero, mul_one]
      rw [hp, show Nat.log2 n = 32 + k by omega, pow_add, Int.mul_ediv_cancel _ (by positivity)]
      norm_num [rawOne]
    · simp only [pow_zero, Int.ediv_one]
      rw [hp, ← pow_add, show Nat.log2 n + j = 32 by omega]
      norm_num [rawOne]
  · rw [fLog2, if_neg (by omega)]
    rw [hlogN, show ((Nat.log2 n : Int) - 32) * rawOne = 0 - j * rawOne + k * rawOne by rw [hlog]; ring]
    dsimp only
    rw [d1]
    dsimp only
    rw [e1]

/-- LOG2 (R105): the integer part of the result is the exponent; the whole lies in `[−32·ONE, 31·ONE − 1]`,
and a power of two has no fraction. -/
theorem fLog2_spec (a : Int) (h0 : 0 < a) (ha : IsRaw a) :
    ∃ v : Int, fLog2 a = .value v ∧ highHalf v = Nat.log2 a.toNat - 32 ∧
      -137438953472 ≤ v ∧ v ≤ 133143986175 ∧
      (a = 2 ^ Nat.log2 a.toNat → lowHalf v = 0) := by
  obtain ⟨m, h1, h2, h3, h4⟩ := fLog2_normal a h0 ha
  refine ⟨_, h4, ?_⟩
  have hB := log2Digits_bounds 32 m ((Nat.log2 a.toNat - 32 : Int) * rawOne) h1 h2
  norm_num only at hB
  have hl : Nat.log2 a.toNat ≤ 62 := by
    have : Nat.log2 a.toNat < 63 :=
      (Nat.log2_lt (by omega)).2 (by simp only [IsRaw, rawMax] at ha; norm_num; omega)
    omega
  have hone : a = 2 ^ Nat.log2 a.toNat →
      log2Digits 32 m 2147483648 ((Nat.log2 a.toNat - 32 : Int) * rawOne) =
        (Nat.log2 a.toNat - 32 : Int) * rawOne := by
    intro h
    rw [h3 h, log2Digits_one]
  generalize log2Digits 32 m 2147483648 ((Nat.log2 a.toNat - 32 : Int) * rawOne) = v at *
  generalize Nat.log2 a.toNat = e at *
  simp only [rawOne, highHalf, lowHalf] at *
  exact ⟨by omega, by omega, by omega, fun h => by have := hone h; omega⟩

/-! ## Powers of two -/

/-- One term of R108's series: it raises nothing, and is not negative and not above the term before it. -/
theorem pow2_term (ln2 f t i : Int) (hl : 0 ≤ ln2) (hl1 : ln2 < rawOne) (hf : 0 ≤ f) (hf1 : f < rawOne)
    (ht : 0 ≤ t) (ht1 : t ≤ rawOne) (hi : 1 ≤ i) (hi1 : i ≤ 2147483647) :
    fItof i = .value (i * 4294967296) ∧
      fDiv (mulfloor (mulfloor f t) ln2) (i * 4294967296) =
        .value ((2 * mulfloor (mulfloor f t) ln2 + i) / (2 * i)) ∧
      0 ≤ mulfloor (mulfloor f t) ln2 ∧ mulfloor (mulfloor f t) ln2 ≤ t ∧
      0 ≤ (2 * mulfloor (mulfloor f t) ln2 + i) / (2 * i) ∧
      (2 * mulfloor (mulfloor f t) ln2 + i) / (2 * i) ≤ t := by
  have B1 := mulfloor_bounds f t
  have P1 : 0 ≤ f * t := mul_nonneg hf ht
  have P2 : f * t ≤ 4294967296 * t := mul_le_mul_of_nonneg_right (by simp only [rawOne] at hf1; omega) ht
  have hp0 : 0 ≤ mulfloor f t := by omega
  have hp1 : mulfloor f t ≤ t := by omega
  have B2 := mulfloor_bounds (mulfloor f t) ln2
  have P3 : 0 ≤ mulfloor f t * ln2 := mul_nonneg hp0 hl
  have P4 : mulfloor f t * ln2 ≤ mulfloor f t * 4294967296 :=
    mul_le_mul_of_nonneg_left (by simp only [rawOne] at hl1; omega) hp0
  have hq0 : 0 ≤ mulfloor (mulfloor f t) ln2 := by omega
  have hq1 : mulfloor (mulfloor f t) ln2 ≤ t := by omega
  generalize mulfloor (mulfloor f t) ln2 = p at *
  refine ⟨by rw [fItof, if_neg (by omega)], ?_, hq0, hq1, Int.ediv_nonneg (by omega) (by omega), ?_⟩
  · rw [fDiv_of_ne _ _ (by omega), divide_nonneg p (i * 4294967296)
      (by simp only [IsRaw, rawMin, rawMax, rawOne] at *; omega)
      (by simp only [IsRaw, rawMin, rawMax] at *; omega) hq0 (by omega),
      if_neg (by simp only [rawOne] at *; omega)]
    congr 1
    rw [show 2 * (p * 4294967296) + i * 4294967296 = (2 * p + i) * 4294967296 by ring,
      show 2 * (i * 4294967296) = 2 * i * 4294967296 by ring,
      Int.mul_ediv_mul_of_pos_left _ _ (by norm_num)]
  · rcases eq_or_lt_of_le ht with rfl | h
    · obtain rfl : p = 0 := by omega
      rw [Int.ediv_eq_zero_of_lt (by omega) (by omega)]
    · rw [← Int.lt_add_one_iff, Int.ediv_lt_iff_lt_mul (by omega)]
      nlinarith

/-- One pass of R108's loop, where the term is not zero. -/
theorem pow2Series_succ (ln2 f t r i : Int) (n : Nat) (hl : 0 ≤ ln2) (hl1 : ln2 < rawOne) (hf : 0 ≤ f)
    (hf1 : f < rawOne) (ht : 0 ≤ t) (ht1 : t ≤ rawOne) (hz : t ≠ 0) (hi : 1 ≤ i) (hi1 : i ≤ 2147483647) :
    pow2Series ln2 f (n + 1) t r i =
      pow2Series ln2 f n ((2 * mulfloor (mulfloor f t) ln2 + i) / (2 * i))
        (fAdd r ((2 * mulfloor (mulfloor f t) ln2 + i) / (2 * i))) (i + 1) := by
  obtain ⟨c1, c2, -⟩ := pow2_term ln2 f t i hl hl1 hf hf1 ht ht1 hi hi1
  rw [pow2Series, if_neg hz, c1]
  simp only [Res.andThen, c2]

/-- The terms of R108's series on the fraction `f`, from the first, `ONE`, on. -/
def pow2Term (ln2 f : Int) : Nat → Int
  | 0 => rawOne
  | i + 1 => (2 * mulfloor (mulfloor f (pow2Term ln2 f i)) ln2 + (i + 1)) / (2 * (i + 1))

/-- The terms of R108 lie in `[0, ONE]`. -/
theorem pow2Term_bounds (ln2 f : Int) (hl : 0 ≤ ln2) (hl1 : ln2 < rawOne) (hf : 0 ≤ f) (hf1 : f < rawOne)
    (i : Nat) (hi : i < 1000) : 0 ≤ pow2Term ln2 f i ∧ pow2Term ln2 f i ≤ rawOne := by
  induction i with
  | zero => exact ⟨by simp only [pow2Term, rawOne]; norm_num, le_rfl⟩
  | succ i ih =>
    obtain ⟨h0, h1⟩ := ih (by omega)
    obtain ⟨-, -, -, -, h2, h3⟩ := pow2_term ln2 f (pow2Term ln2 f i) (i + 1) hl hl1 hf hf1 h0 h1
      (by omega) (by omega)
    exact ⟨h2, le_trans h3 h1⟩

/-- The terms of R108 grow with the fraction. -/
theorem pow2Term_mono (ln2 f g : Int) (hl : 0 ≤ ln2) (hl1 : ln2 < rawOne) (hf : 0 ≤ f) (hfg : f ≤ g)
    (hg : g < rawOne) (i : Nat) (hi : i < 1000) : pow2Term ln2 f i ≤ pow2Term ln2 g i := by
  induction i with
  | zero => exact le_rfl
  | succ i ih =>
    have h0 := (pow2Term_bounds ln2 f hl hl1 hf (by omega) i (by omega)).1
    have h1 : mulfloor f (pow2Term ln2 f i) ≤ mulfloor g (pow2Term ln2 g i) :=
      Int.ediv_le_ediv (by norm_num) (mul_le_mul hfg (ih (by omega)) h0 (by omega))
    have h2 : mulfloor (mulfloor f (pow2Term ln2 f i)) ln2 ≤ mulfloor (mulfloor g (pow2Term ln2 g i)) ln2 :=
      Int.ediv_le_ediv (by norm_num) (mul_le_mul_of_nonneg_right h1 hl)
    exact Int.ediv_le_ediv (by omega) (by omega)

/-- The terms of R108 at the largest fraction, computed one from the other: the twelfth is zero. -/
theorem pow2Term_last : pow2Term 2977044471 4294967295 12 = 0 := by
  have step : ∀ (i : Nat) (t u : Int), pow2Term 2977044471 4294967295 i = t →
      (2 * mulfloor (mulfloor 4294967295 t) 2977044471 + (i + 1)) / (2 * ((i : Int) + 1)) = u →
      pow2Term 2977044471 4294967295 (i + 1) = u := by
    rintro i t u rfl rfl
    rfl
  have h0 : pow2Term 2977044471 4294967295 0 = 4294967296 := rfl
  have h1 := step 0 _ 2977044470 h0 (by decide +kernel)
  have h2 := step 1 _ 1031764990 h1 (by decide +kernel)
  have h3 := step 2 _ 238388331 h2 (by decide +kernel)
  have h4 := step 3 _ 41309550 h3 (by decide +kernel)
  have h5 := step 4 _ 5726719 h4 (by decide +kernel)
  have h6 := step 5 _ 661576 h5 (by decide +kernel)
  have h7 := step 6 _ 65510 h6 (by decide +kernel)
  have h8 := step 7 _ 5676 h7 (by decide +kernel)
  have h9 := step 8 _ 437 h8 (by decide +kernel)
  have h10 := step 9 _ 30 h9 (by decide +kernel)
  have h11 := step 10 _ 2 h10 (by decide +kernel)
  exact step 11 _ 0 h11 (by decide +kernel)

/-- R109 (b): under the default constants the twelfth term is zero on every fraction, so the loop has ended by
then. -/
theorem pow2Term_ends (f : Int) (h0 : 0 ≤ f) (h1 : f < rawOne) : pow2Term 2977044471 f 12 = 0 :=
  le_antisymm
    (le_trans (pow2Term_mono 2977044471 f 4294967295 (by decide) (by decide) h0
      (by simp only [rawOne] at h1; omega) (by decide) 12 (by norm_num)) pow2Term_last.le)
    (pow2Term_bounds 2977044471 f (by decide) (by decide) h0 h1 12 (by norm_num)).1

/-- After a zero term every term of R108 is zero. -/
theorem pow2Term_zero (ln2 f : Int) (i j : Nat) (hz : pow2Term ln2 f i = 0) : pow2Term ln2 f (i + j) = 0 := by
  induction j with
  | zero => exact hz
  | succ j ih =>
    rw [← add_assoc, pow2Term, ih]
    simp only [mulfloor, mul_zero, Int.zero_ediv, zero_mul, zero_add]
    exact Int.ediv_eq_zero_of_lt (by omega) (by omega)

/-- A run of R108's loop adds up the terms from the next one on, as far as it may run. -/
theorem pow2Series_sum (ln2 f : Int) (hl : 0 ≤ ln2) (hl1 : ln2 < rawOne) (hf : 0 ≤ f) (hf1 : f < rawOne)
    (fuel i : Nat) (hi : i + fuel < 1000) (r : Int) (hr : 0 ≤ r) (hr1 : r ≤ (i + 1) * rawOne) :
    pow2Series ln2 f fuel (pow2Term ln2 f i) r (i + 1) =
      .value (r + ∑ j ∈ Finset.range fuel, pow2Term ln2 f (i + j + 1)) := by
  induction fuel generalizing i r with
  | zero => simp [pow2Series]
  | succ n ih =>
    obtain ⟨h0, h1⟩ := pow2Term_bounds ln2 f hl hl1 hf hf1 i (by omega)
    have h2 := (pow2Term_bounds ln2 f hl hl1 hf hf1 (i + 1) (by omega))
    by_cases hz : pow2Term ln2 f i = 0
    · -- the loop has ended: every later term is zero
      have hsum : ∑ j ∈ Finset.range (n + 1), pow2Term ln2 f (i + j + 1) = 0 :=
        Finset.sum_eq_zero fun j _ => pow2Term_zero ln2 f i (j + 1) hz
      rw [hsum, add_zero, hz, pow2Series, if_pos rfl]
    · rw [pow2Series_succ ln2 f _ r (i + 1) n hl hl1 hf hf1 h0 h1 hz (by omega) (by omega), ← pow2Term]
      have hadd : fAdd r (pow2Term ln2 f (i + 1)) = r + pow2Term ln2 f (i + 1) := by
        rw [fAdd, clamp_of_isRaw]
        simp only [IsRaw, rawMin, rawMax, rawOne] at *
        omega
      have := ih (i + 1) (by omega) (r + pow2Term ln2 f (i + 1)) (by have := h2.1; omega)
        (by push_cast; simp only [rawOne] at *; omega)
      rw [hadd]
      push_cast at this
      have hsum : ∑ j ∈ Finset.range n, pow2Term ln2 f (i + 1 + j + 1) =
          ∑ j ∈ Finset.range n, pow2Term ln2 f (i + (j + 1) + 1) :=
        Finset.sum_congr rfl fun j _ => by rw [show i + 1 + j + 1 = i + (j + 1) + 1 by omega]
      rw [this, hsum, Finset.sum_range_succ', add_zero, add_assoc, add_comm (pow2Term ln2 f (i + 1))]

/-- Saturating addition is non-decreasing (R61). -/
theorem fAdd_mono {a b a' b' : Int} (h1 : a ≤ a') (h2 : b ≤ b') : fAdd a b ≤ fAdd a' b' := by
  simp only [fAdd, clamp, rawMin, rawMax]
  split_ifs <;> omega

/-- R108's series raises nothing, and its sum grows with the fraction: two runs side by side. -/
theorem pow2Series_mono (fuel : Nat) (ln2 f g t u r q i : Int) (hl : 0 ≤ ln2) (hl1 : ln2 < rawOne)
    (hf : 0 ≤ f) (hfg : f ≤ g) (hg : g < rawOne) (ht : 0 ≤ t) (htu : t ≤ u) (hu : u ≤ rawOne)
    (hr : IsRaw r) (hrq : r ≤ q) (hq : IsRaw q) (hi : 1 ≤ i) (hi1 : i + fuel ≤ 2147483647) :
    ∃ v w, pow2Series ln2 f fuel t r i = .value v ∧ pow2Series ln2 g fuel u q i = .value w ∧
      r ≤ v ∧ q ≤ w ∧ v ≤ w := by
  induction fuel generalizing t u r q i with
  | zero => exact ⟨r, q, rfl, rfl, le_rfl, le_rfl, hrq⟩
  | succ n ih =>
    obtain ⟨a1, a2, a3, a4, a5, a6⟩ := pow2_term ln2 f t i hl hl1 hf (by omega) ht (by omega) hi (by omega)
    obtain ⟨b1, b2, b3, b4, b5, b6⟩ := pow2_term ln2 g u i hl hl1 (by omega) hg (by omega) hu hi (by omega)
    have hstep : ∀ z s : Int, 0 ≤ z → IsRaw s → s ≤ fAdd s z := by
      intro z s hz hs
      simp only [fAdd, clamp, IsRaw, rawMin, rawMax] at *
      split_ifs <;> omega
    have hmono : mulfloor (mulfloor f t) ln2 ≤ mulfloor (mulfloor g u) ln2 := by
      have h1 : mulfloor f t ≤ mulfloor g u :=
        Int.ediv_le_ediv (by norm_num) (mul_le_mul hfg htu ht (by omega))
      exact Int.ediv_le_ediv (by norm_num) (mul_le_mul_of_nonneg_right h1 hl)
    have hmono2 : (2 * mulfloor (mulfloor f t) ln2 + i) / (2 * i) ≤
        (2 * mulfloor (mulfloor g u) ln2 + i) / (2 * i) :=
      Int.ediv_le_ediv (by omega) (by omega)
    by_cases hu0 : u = 0
    · subst hu0
      obtain rfl : t = 0 := by omega
      exact ⟨r, q, by simp [pow2Series], by simp [pow2Series], le_rfl, le_rfl, hrq⟩
    · rw [pow2Series_succ ln2 g u q i n hl hl1 (by omega) hg (by omega) hu hu0 hi (by omega)]
      by_cases ht0 : t = 0
      · subst ht0
        -- the first run has ended; the second goes on upward
        have hz : (2 * mulfloor (mulfloor f 0) ln2 + i) / (2 * i) = 0 := by omega
        obtain ⟨v, w, e1, e2, e3, e4, e5⟩ := ih ((2 * mulfloor (mulfloor f 0) ln2 + i) / (2 * i)) _ r _ (i + 1)
          a5 hmono2 (by omega) hr (le_trans hrq (hstep _ q b5 hq)) (fAdd_isRaw _ _) (by omega)
          (by push_cast at hi1; omega)
        have hv : v = r := by
          rw [hz] at e1
          rcases n with _ | n <;> simp [pow2Series] at e1 <;> exact e1.symm
        subst hv
        exact ⟨v, w, by simp [pow2Series], e2, le_rfl, le_trans (hstep _ q b5 hq) e4, e5⟩
      · rw [pow2Series_succ ln2 f t r i n hl hl1 hf (by omega) ht (by omega) ht0 hi (by omega)]
        obtain ⟨v, w, e1, e2, e3, e4, e5⟩ := ih _ _ _ _ (i + 1) a5 hmono2 (by omega)
          (fAdd_isRaw r _) (fAdd_mono hrq hmono2) (fAdd_isRaw q _) (by omega) (by push_cast at hi1; omega)
        exact ⟨v, w, e1, e2, le_trans (hstep _ r a5 hr) e3, le_trans (hstep _ q b5 hq) e4, e5⟩

/-- The largest sum of the series, at the largest fraction (R109 (a)). -/
theorem pow2Series_last :
    pow2Series 2977044471 4294967295 32 rawOne rawOne 1 = .value 8589934587 := by decide +kernel

/-- R109 (a): the series raises nothing, and its sum is in `[ONE, 0x1FFFFFFFB]`. -/
theorem pow2Series_spec (f : Int) (h0 : 0 ≤ f) (h1 : f < rawOne) :
    ∃ v, pow2Series 2977044471 f 32 rawOne rawOne 1 = .value v ∧ rawOne ≤ v ∧ v ≤ 8589934587 := by
  obtain ⟨v, w, e1, e2, e3, e4, e5⟩ := pow2Series_mono 32 2977044471 f 4294967295 rawOne rawOne rawOne rawOne 1
    (by decide) (by decide) h0 (by simp only [rawOne] at h1; omega) (by decide) (by decide) le_rfl le_rfl
    (by decide) le_rfl (by decide) le_rfl (by decide)
  rw [pow2Series_last] at e2
  obtain rfl : w = 8589934587 := by simpa using e2.symm
  exact ⟨v, e1, e3, e5⟩

/-- The reciprocal of a positive raw value at most `2^63 − 2^32` is at least two ticks (R108). -/
theorem reciprocal_bounds (r : Int) (h1 : rawOne ≤ r) (h2 : r ≤ rawMax) :
    2 ≤ divide rawOne r ∧ divide rawOne r ≤ rawOne := by
  rw [divide_nonneg rawOne r (by decide) (by simp only [IsRaw, rawMin, rawMax, rawOne] at *; omega)
    (by decide) (by simp only [rawOne] at h1; omega), if_neg (by simp only [rawOne] at *; omega)]
  simp only [rawOne, rawMax] at *
  constructor
  · rw [Int.le_ediv_iff_mul_le (by omega)]; omega
  · rw [← Int.lt_add_one_iff, Int.ediv_lt_iff_lt_mul (by omega)]; nlinarith

/-- POW2 (R108, R109) answers on every operand: at least two ticks; at least one for a non-negative
exponent, at most one for a negative. -/
theorem fPow2_spec (a : Int) (ha : IsRaw a) :
    ∃ v, fPow2 defaults a = .value v ∧ 2 ≤ v ∧ v ≤ rawMax ∧ (0 ≤ a → rawOne ≤ v) ∧
      (a < 0 → v ≤ rawOne) := by
  have hx : ∀ x, (x = if a < 0 then fNeg a else a) → a ≠ 0 → 0 < x ∧ x ≤ rawMax := by
    rintro x rfl h
    simp only [fNeg, IsRaw, rawMin, rawMax] at *
    split_ifs <;> omega
  rw [fPow2]
  simp only
  generalize hxe : (if a < 0 then fNeg a else a) = x
  by_cases h0 : a = 0
  · rw [if_pos h0]
    exact ⟨rawOne, rfl, by decide, by decide, fun _ => le_rfl, fun _ => le_rfl⟩
  rw [if_neg h0]
  obtain ⟨hx0, hx1⟩ := hx x hxe.symm h0
  -- a positive intermediate result, and its reciprocal for a negative exponent
  have hfin : ∀ r : Int, rawOne ≤ r → r ≤ rawMax →
      ∃ v, (if a < 0 then fDiv rawOne r else .value r) = .value v ∧ 2 ≤ v ∧ v ≤ rawMax ∧
        (0 ≤ a → rawOne ≤ v) ∧ (a < 0 → v ≤ rawOne) := by
    intro r h1 h2
    obtain ⟨h3, h4⟩ := reciprocal_bounds r h1 h2
    by_cases c : a < 0
    · rw [if_pos c, fDiv_of_ne _ _ (by simp only [rawOne] at h1; omega)]
      exact ⟨_, rfl, h3, by simp only [rawOne, rawMax] at *; omega, fun h => by omega, fun _ => h4⟩
    · rw [if_neg c]
      exact ⟨r, rfl, by simp only [rawOne] at *; omega, h2, fun _ => h1, fun h => absurd h c⟩
  -- the series branch: its sum, shifted, stays a raw value
  have hser : ¬ x ≥ defaults.log2Max → ∃ sum,
      pow2Series defaults.ln2 (lowHalf x) 32 rawOne rawOne 1 = .value sum ∧
        rawOne ≤ wrap64 (sum * 2 ^ (fFtoi (fFloor x)).toNat) ∧
        wrap64 (sum * 2 ^ (fFtoi (fFloor x)).toNat) ≤ rawMax := by
    intro h2
    obtain ⟨sum, e1, e2, e3⟩ := pow2Series_spec (lowHalf x) (halves x).2.1 (halves x).2.2
    refine ⟨sum, e1, ?_⟩
    have hip : fFtoi (fFloor x) = highHalf x := by simp only [fFtoi, fFloor, highHalf]; omega
    have hhx : 0 ≤ highHalf x ∧ highHalf x ≤ 30 := by
      simp only [defaults, highHalf] at *; omega
    rw [hip]
    have hpw : (2 : Int) ^ (highHalf x).toNat ≤ 2 ^ 30 := pow_le_pow_right₀ (by norm_num) (by omega)
    have hpw1 : (1 : Int) ≤ 2 ^ (highHalf x).toNat := one_le_pow₀ (by norm_num)
    generalize (2 : Int) ^ (highHalf x).toNat = p at *
    norm_num only at hpw
    have b0 : 0 ≤ sum := le_trans (by decide) e2
    have b1 : sum * p ≤ 8589934587 * 1073741824 := mul_le_mul e3 hpw (by omega) (by norm_num)
    have b2 : rawOne * 1 ≤ sum * p := mul_le_mul e2 hpw1 (by norm_num) b0
    rw [mul_one] at b2
    rw [wrap64_of_isRaw (by simp only [IsRaw, rawMin, rawMax, rawOne] at *; omega)]
    exact ⟨b2, by simp only [rawMax]; omega⟩
  by_cases hs : a < 0
  · simp only [if_pos hs] at hfin ⊢
    split_ifs with h1 h2 h4
    · exact ⟨2147483648, by decide +kernel, by decide, by decide, fun h => by omega, fun _ => by decide⟩
    · exact hfin rawMax (by decide) le_rfl
    · simp only [defaults] at h4; omega
    · obtain ⟨sum, e1, e2, e3⟩ := hser h2
      rw [e1]
      exact hfin _ e2 e3
  · simp only [if_neg hs] at hfin ⊢
    split_ifs with h1 h2 h4
    · exact ⟨2 * rawOne, rfl, by decide, by decide, fun _ => by decide, fun h => absurd h hs⟩
    · exact hfin rawMax (by decide) le_rfl
    · simp only [defaults] at h4; omega
    · obtain ⟨sum, e1, e2, e3⟩ := hser h2
      rw [e1]
      exact hfin _ e2 e3

/-- POW (R110) answers for every positive base: two ticks or more. -/
theorem fPow_positive (b e : Int) (hb : IsRaw b) (he : IsRaw e) (h : 0 < b) :
    ∃ v, fPow defaults b e = .value v ∧ 2 ≤ v ∧ v ≤ rawMax := by
  rw [fPow]
  split_ifs with h1 h2 h3 h4
  · exact ⟨rawOne, rfl, by decide, by decide⟩
  · exact ⟨rawOne, rfl, by decide, by decide⟩
  · omega
  · omega
  · obtain ⟨l, hl, -, h5, h6, -⟩ := fLog2_spec b h hb
    rw [hl]
    obtain ⟨v, h7, h8, h9, -⟩ := fPow2_spec (fMul e l)
      (fMul_isRaw e l he (by simp only [IsRaw, rawMin, rawMax]; omega))
    exact ⟨v, h7, h8, h9⟩

end Sys2Proof.Machine
end

