-- ==== Sys2Proof/Laws/Sqrt.lean ====
section
/-!
SUPPORT. What the root of R101 computes: each pass is an exact integer square root; the correction step
between the passes lowers the radicand by `2^30`, a quarter of a tick of the scaled root. Where the
correction is not taken the result is therefore the closed form of R102; where it is taken the two can
differ by one tick, and R101 governs (notes/assumptions/20.md).
-/

namespace Sys2Proof.Machine

/-- The square root between two consecutive squares. -/
theorem sqrt_unique {v r : Nat} (h1 : r ^ 2 ≤ v) (h2 : v < (r + 1) ^ 2) : Nat.sqrt v = r := by
  apply le_antisymm
  · exact Nat.lt_succ_iff.1 (Nat.sqrt_lt.2 (by rw [← pow_two]; exact h2))
  · exact Nat.le_sqrt.2 (by rw [← pow_two]; exact h1)

/-- A pass of R101 with `n` digits to go, the root so far being `q`, ends at the square root. -/
theorem sqrtPass_spec (fuel n q v : Nat) (hf : n ≤ fuel) (h1 : q ^ 2 ≤ v) (h2 : v < (q + 2 ^ n) ^ 2) :
    sqrtPass fuel (v - q ^ 2) (q * 2 ^ n) (4 ^ n / 4) = (v - Nat.sqrt v ^ 2, Nat.sqrt v) := by
  induction fuel generalizing n q with
  | zero =>
    obtain rfl : n = 0 := by omega
    rw [sqrt_unique h1 (by simpa using h2)]
    simp [sqrtPass]
  | succ fuel ih =>
    rcases n with _ | m
    · rw [sqrt_unique h1 (by simpa using h2)]
      simp [sqrtPass]
    · have hb : 4 ^ (m + 1) / 4 = 4 ^ m := by rw [pow_succ]; omega
      have hp : 4 ^ m = 2 ^ m * 2 ^ m := by rw [← mul_pow]; norm_num
      have hsq : (q + 2 ^ m) ^ 2 = q ^ 2 + (q * 2 ^ (m + 1) + 4 ^ m) := by rw [hp, pow_succ]; ring
      have hhalf : q * 2 ^ (m + 1) / 2 = q * 2 ^ m := by rw [pow_succ, ← mul_assoc]; omega
      rw [sqrtPass, hb, if_neg (by positivity), hhalf]
      split_ifs with ht
      · have : q * 2 ^ m + 4 ^ m = (q + 2 ^ m) * 2 ^ m := by rw [hp]; ring
        rw [this, show v - q ^ 2 - (q * 2 ^ (m + 1) + 4 ^ m) = v - (q + 2 ^ m) ^ 2 by omega]
        exact ih m (q + 2 ^ m) (by omega) (by omega) (by rw [add_assoc, ← two_mul, ← pow_succ']; exact h2)
      · exact ih m q (by omega) h1 (by omega)

/-- The alignment of the probe bit leaves no digit above it (R101). -/
theorem sqrtAlign_spec (fuel n v : Nat) (hn : n ≤ fuel) (h : v < 4 ^ n) :
    ∃ m, m ≤ n ∧ v < 4 ^ m ∧ sqrtAlign fuel v (4 ^ n / 4) = 4 ^ m / 4 := by
  induction fuel generalizing n with
  | zero => exact ⟨n, le_refl n, h, rfl⟩
  | succ fuel ih =>
    rw [sqrtAlign]
    split_ifs with hc
    · rcases n with _ | k
      · simp at hc
      · have hb : 4 ^ (k + 1) / 4 = 4 ^ k := by rw [pow_succ]; omega
        rw [hb] at hc ⊢
        obtain ⟨m, h1, h2, h3⟩ := ih k (by omega) hc
        exact ⟨m, by omega, h2, h3⟩
    · exact ⟨n, le_refl n, h, rfl⟩

/-- The radicand of the second pass: the operand scaled by `2^32`, lowered by `2^30` where the correction
step is taken (R101: the remainder of the first pass is above `2^32 − 1`). -/
def sqrtRadicand (a : Nat) : Nat :=
  a * 4294967296 - (if a - Nat.sqrt a ^ 2 > 4294967295 then 1073741824 else 0)

/-- R101 in closed form: the radicand's integer square root, rounded up where the remainder exceeds it. -/
theorem sqrtCore_closed (a : Nat) (ha : a < 9223372036854775808) :
    sqrtCore a = if sqrtRadicand a - Nat.sqrt (sqrtRadicand a) ^ 2 > Nat.sqrt (sqrtRadicand a)
      then Nat.sqrt (sqrtRadicand a) + 1 else Nat.sqrt (sqrtRadicand a) := by
  obtain ⟨m, hm, hm1, hm2⟩ := sqrtAlign_spec 32 32 a le_rfl (by norm_num; omega)
  have hp := sqrtPass_spec 32 m 0 a hm (by simp) (by rw [zero_add, ← pow_mul, mul_comm, pow_mul]; exact hm1)
  have hs1 : Nat.sqrt a ^ 2 ≤ a := by rw [pow_two]; exact Nat.sqrt_le a
  have hs2 : a < (Nat.sqrt a + 1) ^ 2 := by rw [pow_two]; exact Nat.lt_succ_sqrt a
  rw [zero_pow two_ne_zero, Nat.sub_zero, zero_mul] at hp
  rw [sqrtCore, show 4611686018427387904 = 4 ^ 32 / 4 by norm_num, hm2, hp]
  have hr : Nat.sqrt a < 3037000500 := by
    rw [Nat.sqrt_lt]; omega
  generalize hg : Nat.sqrt a = r at *
  have hq : ∀ q v : Nat, q ^ 2 ≤ v → v < (q + 65536) ^ 2 →
      sqrtPass 16 (v - q ^ 2) (q * 65536) 1073741824 = (v - Nat.sqrt v ^ 2, Nat.sqrt v) :=
    fun q v h1 h2 => sqrtPass_spec 16 16 q v le_rfl h1 h2
  have hrad : sqrtRadicand a = a * 4294967296 - (if a - r ^ 2 > 4294967295 then 1073741824 else 0) := by
    rw [sqrtRadicand, hg]
  have hsc : (sqrtScale (a - r ^ 2) r) = (sqrtRadicand a - (if a - r ^ 2 > 4294967295 then
      r * 65536 + 32768 else r * 65536) ^ 2, (if a - r ^ 2 > 4294967295 then
      r * 65536 + 32768 else r * 65536) * 65536) ∧ (if a - r ^ 2 > 4294967295 then
      r * 65536 + 32768 else r * 65536) ^ 2 ≤ sqrtRadicand a ∧ sqrtRadicand a < ((if a - r ^ 2 > 4294967295 then
      r * 65536 + 32768 else r * 65536) + 65536) ^ 2 := by
    rw [hrad]
    have e1 : (r * 65536 + 32768) ^ 2 = r ^ 2 * 4294967296 + r * 4294967296 + 1073741824 := by ring
    have e2 : (r * 65536) ^ 2 = r ^ 2 * 4294967296 := by ring
    have e3 : (r * 65536 + 32768 + 65536) ^ 2 = r ^ 2 * 4294967296 + r * 12884901888 + 9663676416 := by ring
    have e4 : (r * 65536 + 65536) ^ 2 = r ^ 2 * 4294967296 + r * 8589934592 + 4294967296 := by ring
    have e5 : (r + 1) ^ 2 = r ^ 2 + 2 * r + 1 := by ring
    rw [e5] at hs2
    simp only [sqrtScale, u64, Nat.shiftLeft_eq]
    norm_num only [Nat.reducePow]
    split_ifs with hc
    · rw [e1, e3]
      generalize r ^ 2 = t at *
      refine ⟨?_, by omega, by omega⟩
      rw [Nat.mod_eq_of_lt (by omega), Nat.mod_eq_of_lt (by omega)]
      refine Prod.ext ?_ ?_ <;> simp only <;> omega
    · rw [e2, e4]
      generalize r ^ 2 = t at *
      refine ⟨?_, by omega, by omega⟩
      rw [Nat.mod_eq_of_lt (by omega), Nat.mod_eq_of_lt (by omega)]
      refine Prod.ext ?_ ?_ <;> simp only <;> omega
  obtain ⟨h1, h2, h3⟩ := hsc
  simp only
  rw [h1, hq _ _ h2 h3]

/-- The root is a raw value (R100: at most `0x0000B504F333F9DE`, so it never saturates). -/
theorem sqrtCore_le (a : Nat) (ha : a < 9223372036854775808) : sqrtCore a ≤ 199032864766430 := by
  rw [sqrtCore_closed a ha]
  have h : Nat.sqrt (sqrtRadicand a) ≤ Nat.sqrt (9223372036854775807 * 4294967296) :=
    Nat.sqrt_le_sqrt (by simp only [sqrtRadicand]; omega)
  have h0 : Nat.sqrt (9223372036854775807 * 4294967296) = 199032864766430 := by
    apply sqrt_unique <;> norm_num
  rw [h0] at h
  split_ifs with hc
  · rcases Nat.lt_or_ge (Nat.sqrt (sqrtRadicand a)) 199032864766430 with c | c
    · omega
    · exfalso
      have he : Nat.sqrt (sqrtRadicand a) = 199032864766430 := by omega
      rw [he] at hc
      have : sqrtRadicand a ≤ 9223372036854775807 * 4294967296 := by simp only [sqrtRadicand]; omega
      norm_num at hc this
      omega
  · exact h

/-- SQRT answers for every operand that is not negative (R100). -/
theorem fSqrt_spec (a : Int) (h0 : 0 ≤ a) (ha : IsRaw a) :
    ∃ t : Int, fSqrt a = .value t ∧ 0 ≤ t ∧ t ≤ 199032864766430 := by
  have h := sqrtCore_le a.toNat (by simp only [IsRaw, rawMax] at ha; omega)
  refine ⟨(sqrtCore a.toNat : Int), if_neg (by omega), ?_⟩
  generalize sqrtCore a.toNat = n at h ⊢
  omega

end Sys2Proof.Machine
end

