-- ==== Sys2Proof/Laws/InvTrig.lean ====
section
/-!
SUPPORT. The inverse trigonometric functions: no inner primitive raises, so each answers on every operand
R153 lets it, and within the range the spec gives (R140 to R144).
-/

namespace Sys2Proof.Machine

/-! ## Arctangent -/

/-- The ratio of R140's `k`-th term, `2k·z² / ((2k+1)·(1+z²))`, is at most one half. -/
theorem atan_ratio (w k : Int) (hw0 : 0 ≤ w) (hw1 : w ≤ rawOne) (hk0 : 1 ≤ k) (hk1 : k ≤ 28) :
    ∃ q, fDiv (k * (2 * w)) ((2 * k + 1) * (w + rawOne)) = .value q ∧ 0 ≤ q ∧ q ≤ 2147483648 := by
  have h1 : 0 ≤ k * w := mul_nonneg (by omega) hw0
  have h2 : k * w ≤ 28 * w := mul_le_mul_of_nonneg_right hk1 hw0
  have e1 : k * (2 * w) = 2 * (k * w) := by ring
  have e2 : (2 * k + 1) * (w + rawOne) = 2 * (k * w) + w + (2 * k + 1) * 4294967296 := by
    simp only [rawOne]; ring
  rw [e1, e2]
  simp only [rawOne] at hw1
  rw [fDiv_of_ne _ _ (by omega), divide_nonneg _ _ (by simp only [IsRaw, rawMin, rawMax]; omega)
    (by simp only [IsRaw, rawMin, rawMax]; omega) (by omega) (by omega), if_neg (by omega)]
  refine ⟨_, rfl, Int.ediv_nonneg (by omega) (by omega), ?_⟩
  have h3 : k * w ≤ k * 4294967296 := mul_le_mul_of_nonneg_left hw1 (by omega)
  rw [← Int.lt_add_one_iff, Int.ediv_lt_iff_lt_mul (by omega)]
  omega

/-- R140's loop raises nothing; its sum stays within twice its first term. -/
theorem atanSeries_spec (w : Int) (hw0 : 0 ≤ w) (hw1 : w ≤ rawOne) (fuel : Nat) (k term result : Int)
    (hk0 : 1 ≤ k) (hk1 : k + fuel ≤ 29) (ht0 : 0 ≤ term) (hr0 : rawOne ≤ result)
    (hs : result + term ≤ 2 * rawOne) :
    ∃ v, atanSeries ⟨2 * w, 2 * (w + rawOne)⟩ fuel term result (k * (2 * w))
        ((2 * k + 1) * (w + rawOne)) = .value v ∧ rawOne ≤ v ∧ v ≤ 2 * rawOne := by
  induction fuel generalizing k term result with
  | zero => exact ⟨result, rfl, hr0, by omega⟩
  | succ n ih =>
    have hk28 : k ≤ 28 := by push_cast at hk1; omega
    obtain ⟨q, hq, hq0, hq1⟩ := atan_ratio w k hw0 hw1 hk0 hk28
    have hkw : k * w ≤ 28 * w := mul_le_mul_of_nonneg_right hk28 hw0
    have hkw0 : 0 ≤ k * w := mul_nonneg (by omega) hw0
    have hB := mulfloor_bounds term q
    have hp0 : 0 ≤ term * q := mul_nonneg ht0 hq0
    have hp1 : term * q ≤ term * 2147483648 := mul_le_mul_of_nonneg_left hq1 ht0
    have hm : fMul term q = mulfloor term q := by
      simp only [rawOne] at *
      exact fMul_of_nonneg _ _ (by simp only [IsRaw, rawMin, rawMax]; omega)
        (by simp only [IsRaw, rawMin, rawMax]; omega) ht0 (by simp only [IsRaw, rawMin, rawMax]; omega)
    have ha : ∀ x y : Int, IsRaw (x + y) → fAdd x y = x + y := fun x y h => clamp_of_isRaw h
    have hd1 : fAdd (k * (2 * w)) (2 * w) = (k + 1) * (2 * w) := by
      rw [ha _ _ (by simp only [IsRaw, rawMin, rawMax, rawOne] at *
                     rw [show k * (2 * w) = 2 * (k * w) by ring]; omega)]
      ring
    have hd2 : fAdd ((2 * k + 1) * (w + rawOne)) (2 * (w + rawOne)) = (2 * (k + 1) + 1) * (w + rawOne) := by
      rw [ha _ _ (by
        rw [show (2 * k + 1) * (w + rawOne) = 2 * (k * w) + w + (2 * k + 1) * rawOne by ring]
        simp only [IsRaw, rawMin, rawMax, rawOne] at *
        omega)]
      ring
    have hr1 : fAdd result (mulfloor term q) = result + mulfloor term q := by
      apply ha
      simp only [IsRaw, rawMin, rawMax, rawOne] at *
      omega
    rw [atanSeries, hq]
    simp only [Res.andThen_value, hm, hr1, hd1, hd2]
    split_ifs with h0
    · exact ⟨_, rfl, by omega, by omega⟩
    · exact ih (k + 1) _ _ (by omega) (by push_cast at hk1; omega) (by omega) (by omega)
        (by simp only [rawOne] at *; omega)

/-- The arctangent of `0 ≤ z ≤ ONE` (R140): no primitive raises, and the result is in `[0, ONE]`. -/
theorem atanUnit_spec (z : Int) (h0 : 0 ≤ z) (h1 : z ≤ rawOne) :
    ∃ r, atanUnit z = .value r ∧ 0 ≤ r ∧ r ≤ rawOne := by
  have hz : z * z ≤ z * 4294967296 := mul_le_mul_of_nonneg_left h1 h0
  have hz0 : 0 ≤ z * z := mul_nonneg h0 h0
  have hB := mulfloor_bounds z z
  have hraw : IsRaw z := by simp only [IsRaw, rawMin, rawMax, rawOne] at *; omega
  have e1 : fMul z z = mulfloor z z :=
    fMul_of_nonneg _ _ hraw hraw h0 (by simp only [IsRaw, rawMin, rawMax, rawOne] at *; omega)
  -- twice the angle is within one plus its square
  have hsq : 2 * z ≤ mulfloor z z + rawOne := by
    have : 0 ≤ (z - 4294967296) * (z - 4294967296) := mul_self_nonneg _
    have e : (z - 4294967296) * (z - 4294967296) = z * z - 8589934592 * z + 18446744073709551616 := by ring
    simp only [rawOne]
    omega
  generalize hw : mulfloor z z = w at *
  have hw0 : 0 ≤ w := by omega
  have hw1 : w ≤ rawOne := by simp only [rawOne] at *; omega
  have hmul : ∀ x n : Int, 0 ≤ x → x ≤ 2 * rawOne → 0 ≤ n → n ≤ 3 → fMul x (n * rawOne) = n * x := by
    intro x n hx0 hx1 hn0 hn1
    have e : mulfloor x (n * rawOne) = n * x := by
      simp only [mulfloor, rawOne]
      rw [show x * (n * 4294967296) = n * x * 4294967296 by ring, Int.mul_ediv_cancel _ (by norm_num)]
    have b0 : 0 ≤ n * x := mul_nonneg hn0 hx0
    have b1 : n * x ≤ 3 * x := mul_le_mul_of_nonneg_right hn1 hx0
    simp only [rawOne] at *
    rw [fMul_of_nonneg _ _ (by simp only [IsRaw, rawMin, rawMax]; omega)
      (by simp only [IsRaw, rawMin, rawMax]; omega) hx0 (by rw [e]; simp only [IsRaw, rawMin, rawMax]; omega), e]
  have e2 : fAdd w rawOne = w + rawOne := clamp_of_isRaw (by simp only [IsRaw, rawMin, rawMax, rawOne] at *; omega)
  obtain ⟨v, hv, hv0, hv1⟩ := atanSeries_spec w hw0 hw1 28 1 rawOne rawOne le_rfl (by norm_num)
    (by decide) le_rfl (by decide)
  have hB2 := mulfloor_bounds v z
  have hp0 : 0 ≤ v * z := mul_nonneg (le_trans (by decide) hv0) h0
  have hp1 : v * z ≤ 2 * rawOne * z := mul_le_mul_of_nonneg_right hv1 h0
  have hm0 : 0 ≤ mulfloor v z := by omega
  have hm1 : mulfloor v z ≤ w + rawOne := by simp only [rawOne] at *; omega
  have e3 : fMul v z = mulfloor v z :=
    fMul_of_nonneg _ _ (by simp only [IsRaw, rawMin, rawMax, rawOne] at *; omega) hraw
      (le_trans (by decide) hv0) (by simp only [IsRaw, rawMin, rawMax, rawOne] at *; omega)
  have t1 := hmul w 2 hw0 (by omega) (by norm_num) (by norm_num)
  have t2 := hmul (w + rawOne) 2 (by simp only [rawOne]; omega) (by omega) (by norm_num) (by norm_num)
  have t3 := hmul (w + rawOne) 3 (by simp only [rawOne]; omega) (by omega) (by norm_num) (by norm_num)
  rw [show (1 : Int) * (2 * w) = 2 * w by ring, show (2 * 1 + 1 : Int) * (w + rawOne) = 3 * (w + rawOne) by ring] at hv
  simp only [atanUnit, e1, e2, t1, t2, t3]
  rw [hv]
  simp only [Res.andThen_value, e3]
  have hne : w + rawOne ≠ 0 := by simp only [rawOne]; omega
  rw [fDiv_of_ne _ _ hne]
  refine ⟨_, rfl, ?_⟩
  generalize mulfloor v z = u at *
  simp only [rawOne] at *
  rw [divide_nonneg _ _ (by simp only [IsRaw, rawMin, rawMax]; omega)
    (by simp only [IsRaw, rawMin, rawMax]; omega) hm0 (by omega), if_neg (by omega)]
  refine ⟨Int.ediv_nonneg (by omega) (by omega), ?_⟩
  rw [← Int.lt_add_one_iff, Int.ediv_lt_iff_lt_mul (by omega)]
  omega

/-- The magnitude R140 works on: `abs(a)`, saturated. -/
def atanMagnitude (a : Int) : Int := if a < 0 then fNeg a else a

/-- The magnitude of R140 does not see the sign. -/
theorem atanMagnitude_neg (a : Int) (ha : IsRaw a) (hm : a ≠ rawMin) :
    atanMagnitude (-a) = atanMagnitude a := by
  simp only [atanMagnitude, fNeg, IsRaw, rawMin, rawMax] at *
  split_ifs <;> omega

/-- ATAN answers on every operand (R140): the arctangent of the magnitude, at most π/2, with the operand's
sign. -/
theorem fAtan_value (a : Int) (ha : IsRaw a) :
    ∃ r, fAtan defaults a = .value (if a < 0 then -r else r) ∧ 0 ≤ r ∧ r ≤ defaults.piOver2 ∧
      (a = 0 → r = 0) ∧
      (a ≠ 0 → ∃ z u, atanUnit z = .value u ∧
        z = (if atanMagnitude a > rawOne then divide rawOne (atanMagnitude a) else atanMagnitude a) ∧
        r = if atanMagnitude a > rawOne then defaults.piOver2 - u else u) := by
  by_cases h0 : a = 0
  · subst h0
    exact ⟨0, rfl, le_rfl, by decide, fun _ => rfl, fun h => absurd rfl h⟩
  have hM : 0 < atanMagnitude a ∧ atanMagnitude a ≤ rawMax := by
    simp only [atanMagnitude, fNeg, IsRaw, rawMin, rawMax] at *
    split_ifs <;> omega
  have hfa : fAtan defaults a =
      (if atanMagnitude a > rawOne then fDiv rawOne (atanMagnitude a) else .value (atanMagnitude a)).andThen
        fun z => (atanUnit z).andThen fun r => .value (if a < 0 then
          fNeg (if atanMagnitude a > rawOne then fSub defaults.piOver2 r else r) else
          (if atanMagnitude a > rawOne then fSub defaults.piOver2 r else r)) := by
    rw [fAtan, if_neg h0]
    rfl
  rw [hfa]
  generalize atanMagnitude a = m at *
  have hpo : defaults.piOver2 = 6746518852 := rfl
  -- the argument of the series, in [0, ONE]
  obtain ⟨z, hz, hz0, hz1, hz2⟩ : ∃ z, (if m > rawOne then fDiv rawOne m else .value m) = .value z ∧ 0 ≤ z ∧
      z ≤ rawOne ∧ z = if m > rawOne then divide rawOne m else m := by
    by_cases hc : m > rawOne
    · obtain ⟨b1, b2⟩ := reciprocal_bounds m hc.le hM.2
      rw [if_pos hc, if_pos hc, fDiv_of_ne _ _ (by omega)]
      exact ⟨_, rfl, by omega, b2, rfl⟩
    · rw [if_neg hc, if_neg hc]
      exact ⟨m, rfl, hM.1.le, by omega, rfl⟩
  obtain ⟨u, hu, hu0, hu1⟩ := atanUnit_spec z hz0 hz1
  rw [hz]
  simp only [Res.andThen_value, hu]
  have hsub : fSub defaults.piOver2 u = defaults.piOver2 - u :=
    clamp_of_isRaw (by simp only [IsRaw, rawMin, rawMax, rawOne, hpo] at *; omega)
  refine ⟨if m > rawOne then defaults.piOver2 - u else u, ?_, ?_, ?_, fun h => absurd h h0,
    fun _ => ⟨z, u, hu, hz2, rfl⟩⟩
  · rw [hsub]
    congr 2
    simp only [fNeg]
    rw [if_neg (by simp only [rawMin, rawOne, hpo] at *; split_ifs <;> omega)]
  · simp only [rawOne, hpo] at *; split_ifs <;> omega
  · simp only [rawOne, hpo] at *; split_ifs <;> omega

/-- ATAN is odd, but for `MIN` (R141). -/
theorem fAtan_neg (a : Int) (ha : IsRaw a) (hm : a ≠ rawMin) :
    ∃ v, fAtan defaults a = .value v ∧ fAtan defaults (-a) = .value (-v) := by
  have hna : IsRaw (-a) := by simp only [IsRaw, rawMin, rawMax] at *; omega
  obtain ⟨r, h1, -, -, h2, h3⟩ := fAtan_value a ha
  obtain ⟨q, g1, -, -, g2, g3⟩ := fAtan_value (-a) hna
  refine ⟨_, h1, ?_⟩
  rw [g1]
  by_cases h0 : a = 0
  · rw [h2 h0, g2 (by omega)]; simp
  · have hmag := atanMagnitude_neg a ha hm
    obtain ⟨z, u, k1, k2, k3⟩ := h3 h0
    obtain ⟨z', u', l1, l2, l3⟩ := g3 (by omega)
    rw [hmag] at l2 l3
    have hz : z' = z := by rw [l2, k2]
    rw [hz, k1] at l1
    have hu : u = u' := by simpa using l1
    have hq : q = r := by rw [l3, k3, hu]
    rw [hq]
    congr 1
    split_ifs <;> omega

/-! ## Arccosine -/

/-- ACOS (R144) answers on its domain: in `[0, PI]`. -/
theorem fAcos_spec (a : Int) (h0 : -rawOne ≤ a) (h1 : a ≤ rawOne) :
    ∃ v, fAcos defaults a = .value v ∧ 0 ≤ v ∧ v ≤ defaults.pi := by
  have hpi : defaults.pi = 13493037704 := rfl
  have hpo : defaults.piOver2 = 6746518852 := rfl
  have hraw : IsRaw a := by simp only [IsRaw, rawMin, rawMax, rawOne] at *; omega
  rw [fAcos, if_neg (by omega)]
  by_cases ha : a = 0
  · rw [if_pos ha]
    exact ⟨_, rfl, by decide, by decide⟩
  rw [if_neg ha]
  -- 1 − a² is in [0, ONE]
  have hsq : a * a ≤ 4294967296 * 4294967296 := by
    simp only [rawOne] at *
    nlinarith
  have hsq0 : 0 ≤ a * a := mul_self_nonneg a
  have hB := mulfloor_bounds a a
  have e1 : fMul a a = mulfloor a a := by
    rw [fMul_closed a a hraw hraw (by simp only [mulBand]; omega), clamp_of_isRaw]
    simp only [IsRaw, rawMin, rawMax]; omega
  have e2 : fSub rawOne (mulfloor a a) = rawOne - mulfloor a a :=
    clamp_of_isRaw (by simp only [IsRaw, rawMin, rawMax, rawOne]; omega)
  have hs0 : 0 ≤ rawOne - mulfloor a a := by simp only [rawOne]; omega
  obtain ⟨t, ht, ht0, ht1⟩ := fSqrt_spec (rawOne - mulfloor a a) hs0
    (by simp only [IsRaw, rawMin, rawMax, rawOne]; omega)
  rw [e1, e2, ht]
  simp only [Res.andThen_value, fDiv_of_ne _ _ ha]
  have htr : IsRaw t := by simp only [IsRaw, rawMin, rawMax]; omega
  have hq := divide_isRaw t a htr hraw ha
  have hsg := divide_sign t a htr hraw ha
  obtain ⟨r, f1, f2, f3, f4, -⟩ := fAtan_value (divide t a) hq
  rw [f1]
  have htn : ¬ t < 0 := by omega
  by_cases hn : a < 0
  · simp only [htn, hn, ne_eq, eq_iff_iff, iff_true, not_false_eq_true, if_true] at hsg ⊢
    have hadd : ∀ x : Int, -6746518852 ≤ x → x ≤ 0 → fAdd x defaults.pi = x + 13493037704 := by
      intro x _ _
      exact clamp_of_isRaw (by simp only [IsRaw, rawMin, rawMax, hpi]; omega)
    rw [hpo] at f3
    refine ⟨_, rfl, ?_⟩
    rcases eq_or_lt_of_le hsg with hz | hz
    · rw [f4 hz, hz, if_neg (by omega), hadd 0 (by omega) (by omega), hpi]
      omega
    · rw [if_pos hz, hadd _ (by omega) (by omega), hpi]
      omega
  · simp only [htn, hn, ne_eq, not_true_eq_false, if_false] at hsg ⊢
    rw [if_neg (by omega)]
    exact ⟨r, rfl, f2, by rw [hpo] at f3; rw [hpi]; omega⟩

/-! ## Two-argument arctangent -/

/-- A quotient by a divisor of no smaller magnitude is at most one. -/
theorem divide_le_one (a b : Int) (ha : IsRaw a) (hb : IsRaw b) (h0 : b ≠ 0)
    (h : a.natAbs ≤ b.natAbs) : -rawOne ≤ divide a b ∧ divide a b ≤ rawOne := by
  have hB0 : 0 < b.natAbs := Int.natAbs_pos.2 h0
  have hq : quotientMagnitude a b ≤ 4294967296 := by
    rw [quotientMagnitude, Nat.div_le_iff_le_mul_add_pred (by omega)]
    omega
  rw [divide_closed a b ha hb h0, if_neg (by omega)]
  simp only [rawOne]
  split_ifs <;> omega

/-- A quotient by at least one is no larger than its dividend. -/
theorem divide_le_self (a b : Int) (ha : IsRaw a) (hb : IsRaw b) (h : rawOne ≤ b)
    (hs : a.natAbs < 4294967296) : (divide a b).natAbs ≤ a.natAbs := by
  simp only [rawOne] at *
  have hB : 4294967296 ≤ b.natAbs := by omega
  have hq : quotientMagnitude a b ≤ a.natAbs := by
    rw [quotientMagnitude, Nat.div_le_iff_le_mul_add_pred (by omega)]
    have := Nat.mul_le_mul_left a.natAbs hB
    have e : 2 * b.natAbs * a.natAbs = 2 * (a.natAbs * b.natAbs) := by ring
    omega
  rw [divide_closed a b ha hb (by omega), if_neg (by omega)]
  split_ifs <;> omega

/-- A square is not negative, and at least its root from one on, where it does not saturate (R65). -/
theorem fMul_self_bounds (z : Int) (hz : IsRaw z) :
    fMul z z = clamp (mulfloor z z) ∧ 0 ≤ fMul z z ∧
      (4294967296 ≤ z.natAbs → fMul z z = rawMax ∨ (z.natAbs : Int) ≤ fMul z z) := by
  have e : fMul z z = clamp (mulfloor z z) := fMul_closed z z hz hz (by simp only [mulBand]; omega)
  have hB := mulfloor_bounds z z
  have h0 : 0 ≤ z * z := mul_self_nonneg z
  refine ⟨e, ?_, fun h => ?_⟩
  · rw [e]; simp only [clamp, rawMin, rawMax]; split_ifs <;> omega
  · have h1 : 4294967296 * (z.natAbs : Int) ≤ z * z := by
      rw [← Int.natAbs_mul_self' z]
      exact mul_le_mul_of_nonneg_right (by omega) (by omega)
    rw [e]
    simp only [clamp, rawMin, rawMax]
    split_ifs <;> omega

/-- The magnitude test of R142 is on the absolute value. -/
theorem fAbs_lt_one (z : Int) : fAbs z < rawOne ↔ z.natAbs < 4294967296 := by
  simp only [fAbs, Int.abs_eq_natAbs]
  split_ifs with h
  · subst h; decide
  · simp only [rawOne]; omega

/-- The denominator of R142's rational form is at least one. -/
theorem atan2_denominator (z : Int) (hz : IsRaw z) :
    rawOne ≤ fAdd rawOne (fMul (fMul defaults.k028 z) z) := by
  have hk : defaults.k028 = 1202590843 := rfl
  rw [hk]
  have hB := mulfloor_bounds 1202590843 z
  have hin : IsRaw (mulfloor 1202590843 z) := by simp only [IsRaw, rawMin, rawMax] at *; omega
  have e1 : fMul 1202590843 z = mulfloor 1202590843 z :=
    fMul_of_nonneg _ _ (by decide) hz (by norm_num) hin
  rw [e1]
  have hsign : 0 ≤ mulfloor 1202590843 z * z := by
    rcases le_or_gt 0 z with h | h
    · exact mul_nonneg (by omega) h
    · exact mul_nonneg_of_nonpos_of_nonpos (by omega) (by omega)
  have h0 : 0 ≤ fMul (mulfloor 1202590843 z) z := by
    by_cases hb : mulBand (mulfloor 1202590843 z) z ∨ mulBand z (mulfloor 1202590843 z)
    · rw [fMul_band _ _ hb]; decide
    · rw [fMul_closed _ _ hin hz hb]
      have := mulfloor_bounds (mulfloor 1202590843 z) z
      simp only [clamp, rawMin, rawMax]
      split_ifs <;> omega
  simp only [fAdd, clamp, rawMin, rawMax, rawOne]
  split_ifs <;> omega

/-- Sums and differences of angles do not saturate. -/
theorem angle_sum (u w : Int) (h1 : -20000000000 ≤ u ∧ u ≤ 20000000000)
    (h2 : -20000000000 ≤ w ∧ w ≤ 20000000000) : fAdd u w = u + w ∧ fSub u w = u - w :=
  ⟨clamp_of_isRaw (by simp only [IsRaw, rawMin, rawMax]; omega),
    clamp_of_isRaw (by simp only [IsRaw, rawMin, rawMax]; omega)⟩

/-- The first form of R142, `z / (1 + 0.28 z²)`: a quotient below one with the sign of `z`. -/
theorem atan2_small (z den : Int) (hz : IsRaw z) (hd : IsRaw den) (h1 : rawOne ≤ den) (hs : z.natAbs < 4294967296) :
    fDiv z den = .value (divide z den) ∧ -rawOne ≤ divide z den ∧ divide z den ≤ rawOne ∧
      (0 ≤ z → 0 ≤ divide z den) ∧ (z ≤ 0 → divide z den ≤ 0) := by
  have hne : den ≠ 0 := by simp only [rawOne] at h1; omega
  have hdn : ¬ den < 0 := by simp only [rawOne] at h1; omega
  have hq := divide_le_self z den hz hd h1 hs
  have hsg := divide_sign z den hz hd hne
  refine ⟨fDiv_of_ne _ _ hne, by simp only [rawOne]; omega, by simp only [rawOne]; omega,
    fun h => ?_, fun h => ?_⟩
  · rwa [if_neg (by simp [hdn, not_lt.2 h])] at hsg
  · rcases eq_or_lt_of_le h with rfl | h
    · omega
    · rwa [if_pos (by simp [hdn, h])] at hsg

/-- The second form of R142, `z / (z² + 0.28)`: a quotient of at most one. -/
theorem atan2_large (z : Int) (hz : IsRaw z) (hs : 4294967296 ≤ z.natAbs) :
    ∃ q, fDiv z (fAdd (fMul z z) defaults.k028) = .value q ∧ -rawOne ≤ q ∧ q ≤ rawOne ∧
      (0 ≤ z → 0 ≤ q) ∧ (z ≤ 0 → q ≤ 0) := by
  have hk : defaults.k028 = 1202590843 := rfl
  obtain ⟨s1, s2, s3⟩ := fMul_self_bounds z hz
  have h3 := s3 hs
  have hDr : IsRaw (fAdd (fMul z z) defaults.k028) := fAdd_isRaw _ _
  have hD : fAdd (fMul z z) defaults.k028 = rawMax ∨ (z.natAbs : Int) ≤ fAdd (fMul z z) defaults.k028 := by
    rw [hk]
    generalize fMul z z = m at *
    simp only [fAdd, clamp, rawMin, rawMax, IsRaw] at *
    split_ifs <;> omega
  generalize fAdd (fMul z z) defaults.k028 = D at *
  clear s1 s2 s3 h3
  have hD0 : 0 < D := by
    rcases hD with h | h
    · rw [h]; decide
    · omega
  have hDn : ¬ D < 0 := by omega
  have hsg := divide_sign z D hz hDr (by omega)
  have hq : -rawOne ≤ divide z D ∧ divide z D ≤ rawOne := by
    by_cases hle : z.natAbs ≤ D.natAbs
    · exact divide_le_one z D hz hDr (by omega) hle
    · have hmx : D = rawMax := by omega
      have hzm : z = rawMin := by
        rw [hmx] at hle
        simp only [IsRaw, rawMin, rawMax] at *
        omega
      rw [hmx, hzm]
      decide +kernel
  refine ⟨_, fDiv_of_ne _ _ (by omega), hq.1, hq.2, fun h => ?_, fun h => ?_⟩
  · rwa [if_neg (by simp [hDn, not_lt.2 h])] at hsg
  · rwa [if_pos (by simp [hDn, show z < 0 by omega])] at hsg

/-- ATAN2 (R142) answers on every pair of operands: in `[−PI, PI]`. -/
theorem fAtan2_spec (y x : Int) (hy : IsRaw y) (hx : IsRaw x) :
    ∃ v, fAtan2 defaults y x = .value v ∧ -13493037704 ≤ v ∧ v ≤ 13493037704 := by
  have hpi : defaults.pi = 13493037704 := rfl
  have hpo : defaults.piOver2 = 6746518852 := rfl
  have hnp : fNeg 6746518852 = -6746518852 := rfl
  rw [fAtan2]
  by_cases hx0 : x = 0
  · rw [if_pos hx0]
    refine ⟨_, rfl, ?_⟩
    rw [hpo, hnp]
    split_ifs <;> omega
  rw [if_neg hx0, fDiv_of_ne _ _ hx0]
  simp only [Res.andThen_value]
  have hz := divide_isRaw y x hy hx hx0
  have hsg := divide_sign y x hy hx hx0
  have hden := atan2_denominator _ hz
  generalize divide y x = z at *
  have hdr : IsRaw (fAdd rawOne (fMul (fMul defaults.k028 z) z)) := fAdd_isRaw _ _
  generalize fAdd rawOne (fMul (fMul defaults.k028 z) z) = den at *
  by_cases hm : den = rawMax
  · rw [if_pos hm]
    refine ⟨_, rfl, ?_⟩
    rw [hpo, hnp]
    split_ifs <;> omega
  rw [if_neg hm]
  by_cases hz1 : fAbs z < rawOne
  · obtain ⟨q1, q2, q3, q4, q5⟩ := atan2_small z den hz hdr hden ((fAbs_lt_one z).1 hz1)
    rw [if_pos hz1, q1]
    generalize divide z den = q at *
    simp only [rawOne] at q2 q3
    obtain ⟨a1, a2⟩ := angle_sum q defaults.pi (by omega) (by rw [hpi]; norm_num)
    simp only [Res.andThen_value, a1, a2]
    simp only [hpi]
    clear hden hz1 hm hdr a1 a2 hz q1
    refine ⟨_, rfl, ?_⟩
    by_cases c1 : x < 0
    · by_cases c2 : y < 0
      · simp only [c1, c2, ne_eq, not_true_eq_false, if_false, if_true] at hsg ⊢
        have := q4 hsg
        omega
      · simp only [c1, c2, if_true, if_false] at hsg ⊢
        simp at hsg
        have := q5 hsg
        omega
    · simp only [c1, if_false]
      omega
  · obtain ⟨q, q1, q2, q3, q4, q5⟩ := atan2_large z hz (not_lt.1 (mt (fAbs_lt_one z).2 hz1))
    rw [if_neg hz1, q1]
    simp only [rawOne] at q2 q3
    obtain ⟨-, a1⟩ := angle_sum defaults.piOver2 q (by rw [hpo]; norm_num) (by omega)
    obtain ⟨-, a2⟩ := angle_sum (defaults.piOver2 - q) defaults.pi (by rw [hpo]; omega) (by rw [hpi]; norm_num)
    simp only [Res.andThen_value, a1, a2]
    simp only [hpi, hpo]
    refine ⟨_, rfl, ?_⟩
    split_ifs <;> omega

end Sys2Proof.Machine
end

