-- ==== Sys2Proof/Laws/State.lean ====
section
/-!
SUPPORT. The small lemmas of the state's updates: one per field per update, so that no later proof unfolds
a record update; reading an X register after a write.
-/

namespace Sys2Proof.Machine

variable (s : State) (r q : Reg) (w : Word) (k : ErrorKind) (c : CmdWord)

@[simp] theorem State.writeX_err : (s.writeX r w).err = s.err := rfl
@[simp] theorem State.writeX_fcmd : (s.writeX r w).fcmd = s.fcmd := rfl
@[simp] theorem State.writeX_inbox : (s.writeX r w).inbox = s.inbox := rfl
@[simp] theorem State.writeX_replies : (s.writeX r w).replies = s.replies := rfl
@[simp] theorem State.writeX_draws : (s.writeX r w).draws = s.draws := rfl

@[simp] theorem State.raise_x : (s.raise k c).x = s.x := rfl
@[simp] theorem State.raise_err : (s.raise k c).err = .latched k := rfl
@[simp] theorem State.raise_fcmd : (s.raise k c).fcmd = c := rfl
@[simp] theorem State.raise_inbox : (s.raise k c).inbox = s.inbox := rfl
@[simp] theorem State.raise_replies : (s.raise k c).replies = s.replies := rfl
@[simp] theorem State.raise_draws : (s.raise k c).draws = s.draws := rfl
@[simp] theorem State.raise_readX : (s.raise k c).readX q = s.readX q := rfl

@[simp] theorem State.acknowledge_x : s.acknowledge.x = s.x := rfl
@[simp] theorem State.acknowledge_err : s.acknowledge.err = .none := rfl
@[simp] theorem State.acknowledge_fcmd : s.acknowledge.fcmd = s.fcmd := rfl
@[simp] theorem State.acknowledge_inbox : s.acknowledge.inbox = s.inbox := rfl
@[simp] theorem State.acknowledge_replies : s.acknowledge.replies = s.replies := rfl
@[simp] theorem State.acknowledge_draws : s.acknowledge.draws = s.draws := rfl
@[simp] theorem State.acknowledge_readX : s.acknowledge.readX q = s.readX q := rfl

@[simp] theorem State.resetUnit_err : s.resetUnit.err = .none := rfl
@[simp] theorem State.resetUnit_fcmd : s.resetUnit.fcmd = 0#32 := rfl
@[simp] theorem State.resetUnit_inbox : s.resetUnit.inbox = s.inbox := rfl
@[simp] theorem State.resetUnit_replies : s.resetUnit.replies = s.replies := rfl
@[simp] theorem State.resetUnit_draws : s.resetUnit.draws = s.draws := rfl
@[simp] theorem State.resetUnit_readX : s.resetUnit.readX q = 0#64 := by
  simp [State.resetUnit, State.readX, State.reset]

@[simp] theorem State.writeAny_err : (s.writeAny r).err = s.err := rfl
@[simp] theorem State.writeAny_fcmd : (s.writeAny r).fcmd = s.fcmd := rfl
@[simp] theorem State.writeAny_inbox : (s.writeAny r).inbox = s.inbox := rfl
@[simp] theorem State.writeAny_replies : (s.writeAny r).replies = s.replies := rfl
@[simp] theorem State.writeAny_draws : (s.writeAny r).draws = s.draws + 1 := rfl

/-- The register written reads back the word written. -/
@[simp] theorem State.readX_writeX_self : (s.writeX r w).readX r = w := by
  simp [State.readX, State.writeX]

/-- A write leaves every other register alone. -/
theorem State.readX_writeX_of_ne (h : q ≠ r) : (s.writeX r w).readX q = s.readX q := by
  have : r.toNat ≠ q.toNat := fun e => h (BitVec.eq_of_toNat_eq e.symm)
  simp [State.readX, State.writeX, Vector.getElem_set_ne, this]

@[simp] theorem State.readX_writeAny_self : (s.writeAny r).readX r = Config.anyWord s.draws :=
  s.readX_writeX_self r _

theorem State.readX_writeAny_of_ne (h : q ≠ r) : (s.writeAny r).readX q = s.readX q :=
  s.readX_writeX_of_ne r q _ h

/-- A register holds a raw value: 64 bits read as two's complement are in `[MIN, MAX]` (R11). -/
theorem State.rawX_isRaw : IsRaw (s.rawX r) := by
  have h1 := (s.readX r).le_toInt
  have h2 := (s.readX r).toInt_lt
  simp only [IsRaw, State.rawX, Word.raw, rawMin, rawMax]
  norm_num at h1 h2
  omega

@[simp] theorem State.faultO_eq_false_iff : s.faultO = false ↔ s.err = .none := by
  simp [State.faultO]

end Sys2Proof.Machine
end

