-- ==== Sys2Proof/Laws/Ops.lean ====
section
/-!
SUPPORT. What each shared operation can do, said once: the completion of a command, its two operand forms,
the execution of any command, a CMD write, a host transaction and a step.
-/

namespace Sys2Proof.Machine

/-- A write of an X register is a write of that register alone. -/
theorem writesOnly_writeX (s : State) (rd : Reg) (w : Word) : WritesOnly s (s.writeX rd w) rd w :=
  ⟨s.readX_writeX_self rd w, fun q h => s.readX_writeX_of_ne rd q w h, rfl, rfl, rfl, rfl⟩

/-- A drawn write is a write of that register alone. -/
theorem writesOnly_writeAny (s : State) (rd : Reg) :
    WritesOnly s (s.writeAny rd) rd (Config.anyWord s.draws) :=
  ⟨s.readX_writeAny_self rd, fun q h => s.readX_writeAny_of_ne rd q h, rfl, rfl, rfl, rfl⟩

/-- A raise changes `ERR` and `FCMD` alone (R152). -/
theorem raisesOnly_raise (s : State) (k : ErrorKind) (w : CmdWord) : RaisesOnly s (s.raise k w) k w :=
  ⟨fun _ => rfl, rfl, rfl, rfl, rfl, rfl⟩

/-- Everything the completion of a command can do (R50). -/
theorem finish_next {w : CmdWord} {rd : Reg} {r : Res} {s t : State} (h : finish w rd r s = .next t) :
    (∃ v, r = .value v ∧ t = s.writeX rd (Word.ofRaw v)) ∨ (r = .any ∧ t = s.writeAny rd) ∨
      (r = .divideByZero ∧ t = s.raise .divideByZero w) ∨ (r = .domainError ∧ t = s.raise .domainError w) := by
  cases r <;> simp only [finish, Host.Outcome.next.injEq, reduceCtorEq] at h
  · exact Or.inl ⟨_, rfl, h.symm⟩
  · exact Or.inr (Or.inl ⟨rfl, h.symm⟩)
  · exact Or.inr (Or.inr (Or.inl ⟨rfl, h.symm⟩))
  · exact Or.inr (Or.inr (Or.inr ⟨rfl, h.symm⟩))

/-- The answer of a command's own function on its operands (R9, R50); `noEntry` for a constant index R49
reserves. -/
def answer (c : Configuration) (s : State) : Instr → Res
  | .add _ ra rb => .value (fAdd (s.rawX ra) (s.rawX rb))
  | .sub _ ra rb => .value (fSub (s.rawX ra) (s.rawX rb))
  | .mul _ ra rb => .value (fMul (s.rawX ra) (s.rawX rb))
  | .div _ ra rb => fDiv (s.rawX ra) (s.rawX rb)
  | .mod _ ra rb => fMod (s.rawX ra) (s.rawX rb)
  | .fadd _ ra rb => fFadd (s.rawX ra) (s.rawX rb)
  | .fsub _ ra rb => fFsub (s.rawX ra) (s.rawX rb)
  | .fmul _ ra rb => fFmul (s.rawX ra) (s.rawX rb)
  | .fmod _ ra rb => fFmod (s.rawX ra) (s.rawX rb)
  | .ceq _ ra rb => .value (truth ((s.rawX ra) = (s.rawX rb)))
  | .cne _ ra rb => .value (truth ((s.rawX ra) ≠ (s.rawX rb)))
  | .clt _ ra rb => .value (truth ((s.rawX ra) < (s.rawX rb)))
  | .cle _ ra rb => .value (truth ((s.rawX ra) ≤ (s.rawX rb)))
  | .cgt _ ra rb => .value (truth ((s.rawX ra) > (s.rawX rb)))
  | .cge _ ra rb => .value (truth ((s.rawX ra) ≥ (s.rawX rb)))
  | .pow _ ra rb => fPow c.cfg (s.rawX ra) (s.rawX rb)
  | .atan2 _ ra rb => fAtan2 c.cfg (s.rawX ra) (s.rawX rb)
  | .neg _ ra => .value (fNeg (s.rawX ra))
  | .itof _ ra => fItof (s.rawX ra)
  | .ftoi _ ra => .value (fFtoi (s.rawX ra))
  | .sign _ ra => .value (fSign (s.rawX ra))
  | .abs _ ra => .value (fAbs (s.rawX ra))
  | .floor _ ra => .value (fFloor (s.rawX ra))
  | .ceil _ ra => .value (fCeil (s.rawX ra))
  | .round _ ra => .value (fRound (s.rawX ra))
  | .sqrt _ ra => fSqrt (s.rawX ra)
  | .log2 _ ra => fLog2 (s.rawX ra)
  | .ln _ ra => fLn c.cfg (s.rawX ra)
  | .pow2 _ ra => fPow2 c.cfg (s.rawX ra)
  | .sin _ ra => fSin c.cfg (s.rawX ra)
  | .cos _ ra => fCos c.cfg (s.rawX ra)
  | .tan _ ra => fTan c.cfg (s.rawX ra)
  | .fsin _ ra => fFsin c.cfg (s.rawX ra)
  | .fcos _ ra => fFcos c.cfg (s.rawX ra)
  | .acos _ ra => fAcos c.cfg (s.rawX ra)
  | .atan _ ra => fAtan c.cfg (s.rawX ra)
  | .ldc _ k => match constant c.cfg k with
    | some v => .value v
    | none => .noEntry

/-- A constant index of at most 10 names a constant (R49). -/
theorem constant_isSome (c : Config) {k : BitVec 4} (h : k.toNat ≤ 10) : ∃ v, constant c k = some v := by
  have all : ∀ n : Fin 16, (BitVec.ofFin n : BitVec 4).toNat ≤ 10 →
      (constant c (BitVec.ofFin n)).isSome = true := by
    intro n
    fin_cases n <;> first | exact fun _ => rfl | exact fun h => absurd h (by decide)
  exact Option.isSome_iff_exists.1 (all k.toFin h)

/-- Under the default configuration execution is `exec` (R7, R171). -/
@[simp] theorem execWith_fmu (i : Instr) (s : State) : execWith fmu i s = exec i s := by
  cases i <;> rfl

/-- Under the default configuration a step is `step` (R7, R171). -/
@[simp] theorem stepWith_fmu (s : State) : stepWith fmu s = step s := by
  have h : execWith fmu = exec := funext fun i => funext (execWith_fmu i)
  simp only [stepWith, step, h]

/-- Under every configuration a well-formed command is the completion of its own function's answer (R50). -/
theorem execWith_eq_finish (c : Configuration) (i : Instr) (s : State) (hw : i.wellFormed = true) :
    execWith c i s = finish (encode i) (destination i) (answer c s i) s := by
  cases i
  case ldc rd k =>
    obtain ⟨v, hv⟩ := constant_isSome c.cfg (by simpa [Instr.wellFormed, constantIndexOk] using hw)
    simp only [execWith, execLdcWith, destination, answer, hv]
  all_goals rfl

/-- Every well-formed command is the completion of its own function's answer (R50). -/
theorem exec_eq_finish (i : Instr) (s : State) (hw : i.wellFormed = true) :
    exec i s = finish (encode i) (destination i) (answer fmu s i) s := by
  rw [← execWith_fmu, execWith_eq_finish fmu i s hw]

/-- A well-formed command whose function answers a value completes with it. -/
theorem completes_of_answer {i : Instr} {s : State} {v : Int} (hw : i.wellFormed = true)
    (h : answer fmu s i = .value v) : Completes i s (destination i) (Word.ofRaw v) :=
  ⟨_, by rw [exec_eq_finish i s hw, h]; rfl, writesOnly_writeX s _ _, rfl⟩

/-- A well-formed command whose function answers `ANY` completes with a draw. -/
theorem completesAny_of_answer {i : Instr} {s : State} (hw : i.wellFormed = true)
    (h : answer fmu s i = .any) : CompletesAny i s (destination i) :=
  ⟨_, by rw [exec_eq_finish i s hw, h]; rfl, writesOnly_writeAny s _, rfl⟩

/-- A well-formed command whose function raises DivideByZero raises it and changes nothing else. -/
theorem raises_of_divideByZero {i : Instr} {s : State} (hw : i.wellFormed = true)
    (h : answer fmu s i = .divideByZero) : Raises i s .divideByZero :=
  ⟨_, by rw [exec_eq_finish i s hw, h]; rfl, raisesOnly_raise s _ _⟩

/-- A well-formed command whose function raises DomainError raises it and changes nothing else. -/
theorem raises_of_domainError {i : Instr} {s : State} (hw : i.wellFormed = true)
    (h : answer fmu s i = .domainError) : Raises i s .domainError :=
  ⟨_, by rw [exec_eq_finish i s hw, h]; rfl, raisesOnly_raise s _ _⟩

/-- Everything the execution of a command can do: its destination is written, or an error is latched with its
word. -/
theorem exec_next {i : Instr} {s t : State} (h : exec i s = .next t) :
    (∃ w, t = s.writeX (destination i) w) ∨ t = s.writeAny (destination i) ∨
      ∃ k, t = s.raise k (encode i) := by
  by_cases hw : i.wellFormed = true
  · rw [exec_eq_finish i s hw] at h
    rcases finish_next h with ⟨v, -, rfl⟩ | ⟨-, rfl⟩ | ⟨-, rfl⟩ | ⟨-, rfl⟩
    · exact Or.inl ⟨_, rfl⟩
    · exact Or.inr (Or.inl rfl)
    · exact Or.inr (Or.inr ⟨_, rfl⟩)
    · exact Or.inr (Or.inr ⟨_, rfl⟩)
  · cases i <;> simp only [Instr.wellFormed, not_true_eq_false] at hw
    rename_i rd k
    simp only [exec, execLdc, execLdcWith] at h
    cases hc : constant fmu.cfg k with
    | some v =>
      rw [hc] at h
      exact Or.inl ⟨_, (Host.Outcome.next.inj h).symm⟩
    | none =>
      rw [hc] at h
      exact Or.inr (Or.inr ⟨_, (Host.Outcome.next.inj h).symm⟩)

/-- Everything a CMD write can do (R50): dropped, illegal, or the decoded command. -/
theorem issue_cases (run : Instr → State → Result) (v : Word) (s : State) :
    (s.err ≠ .none ∧ issue run v s = .next s) ∨
      (s.err = .none ∧ (v.extractLsb' 32 32 ≠ 0#32 ∨ ∃ r, decode (v.extractLsb' 0 32) = .illegal r) ∧
        issue run v s = .next (s.raise .illegalCommand (v.extractLsb' 0 32))) ∨
      (s.err = .none ∧ v.extractLsb' 32 32 = 0#32 ∧
        ∃ i, decode (v.extractLsb' 0 32) = .command i ∧ issue run v s = run i s) := by
  simp only [issue]
  by_cases h : s.err = .none
  · simp only [h, ne_eq, not_true_eq_false, if_false, true_and]
    by_cases hu : v.extractLsb' 32 32 = 0#32
    · simp only [hu, not_true_eq_false, if_false, true_and]
      cases decode (v.extractLsb' 0 32) with
      | command i => exact Or.inr (Or.inr ⟨i, rfl, rfl⟩)
      | illegal r => exact Or.inr (Or.inl ⟨Or.inr ⟨r, rfl⟩, rfl⟩)
    · rw [if_pos hu]
      exact Or.inr (Or.inl ⟨Or.inl hu, rfl⟩)
  · rw [if_pos h]
    exact Or.inl ⟨h, rfl⟩

/-- Everything a host write can do (R34). -/
theorem hostWrite_cases (run : Instr → State → Result) (n : PortReg) (v : Word) (s : State) :
    (∃ r, portX n = some r ∧ hostWrite run n v s = .next (s.writeX r v)) ∨
      (n = 0x10#5 ∧ hostWrite run n v s = issue run v s) ∨
      (n = 0x12#5 ∧ hostWrite run n v s = .next s.acknowledge) ∨
      (portX n = none ∧ n ≠ 0x10#5 ∧ n ≠ 0x12#5 ∧ hostWrite run n v s = .next s) := by
  simp only [hostWrite]
  cases hp : portX n with
  | some r => exact Or.inl ⟨r, rfl, rfl⟩
  | none =>
    by_cases h1 : n = 0x10#5
    · exact Or.inr (Or.inl ⟨h1, by simp only [h1, if_true]⟩)
    · by_cases h2 : n = 0x12#5
      · exact Or.inr (Or.inr (Or.inl ⟨h2, by simp only [h2, if_true]; rfl⟩))
      · exact Or.inr (Or.inr (Or.inr ⟨rfl, h1, h2, by simp only [h1, h2, if_false]⟩))

/-- With nothing to come a step is idle (R168). -/
theorem step_nil {s : State} (h : s.inbox = []) : step s = .next s := by
  simp only [step, transact, h]

/-- A step performs the next event of the host (R12, R40). -/
theorem step_cons {s : State} {e : HostEvent} {rest : List HostEvent} (h : s.inbox = e :: rest) :
    step s = perform exec e { s with inbox := rest } := by
  simp only [step, transact, h]

/-- A run of one more step, where the step answers a next state. -/
theorem run_succ {s t : State} (k : Nat) (h : step s = .next t) :
    Sys2Proof.core.run (k + 1) s = Sys2Proof.core.run k t := by
  have hs : Sys2Proof.core.step s = .next t := h
  simp only [Host.Core.run, hs]

/-- The port number of an X register names that register (R34). -/
theorem portX_setWidth (r : Reg) : portX (r.setWidth 5) = some r := by
  have h := r.isLt
  simp only [portX, BitVec.toNat_setWidth]
  rw [if_pos (by omega)]
  congr 1
  apply BitVec.eq_of_toNat_eq
  simp only [BitVec.toNat_setWidth]
  omega

/-- A port number below 16 names the register of that number (R34). -/
theorem portX_of_lt {n : PortReg} (h : n.toNat < 16) : portX n = some (BitVec.ofNat 4 n.toNat) := by
  simp only [portX, if_pos h, Option.some.injEq]
  apply BitVec.eq_of_toNat_eq
  simp

/-- A port number from 16 on names no X register (R34). -/
theorem portX_of_ge {n : PortReg} (h : 16 ≤ n.toNat) : portX n = none := by
  simp only [portX, if_neg (not_lt.2 h)]

/-- A CMD write is issued as a command (R34). -/
theorem hostWrite_cmd (run : Instr → State → Result) (v : Word) (s : State) :
    hostWrite run 0x10#5 v s = issue run v s := rfl

/-- A ready unit executes the command a CMD write decodes to (R50). -/
theorem issue_command (run : Instr → State → Result) {v : Word} {s : State} {i : Instr}
    (he : s.err = .none) (hu : v.extractLsb' 32 32 = 0#32)
    (hd : decode (v.extractLsb' 0 32) = .command i) : issue run v s = run i s := by
  simp only [issue, he, hu, hd, ne_eq, not_true_eq_false, if_false]

/-- A unit in error hold drops a CMD write (R156). -/
theorem issue_dropped (run : Instr → State → Result) (v : Word) {s : State} (he : s.err ≠ .none) :
    issue run v s = .next s := if_pos he

end Sys2Proof.Machine
end

