-- ==== Sys2Proof/Laws/PerInstr.lean ====
section
/-!
SUPPORT. A statement about every instruction as syntax, one lemma per constructor: its encoding has an
assigned opcode, its destination in the RD field, and a ZERO field of zeros (R46, R51).
-/

namespace Sys2Proof.Laws.EncodedFields

open Sys2Proof.Machine

/-- The fixed fields of the word that encodes an instruction (R46, R51). -/
def Statement (i : Instr) : Prop :=
  (formatOf (opcField (encode i))).isSome = true ∧ rdField (encode i) = destination i ∧
    zeroField (encode i) = 0#12

/-- A word put together from an assigned opcode and its fields has them. -/
theorem of_fields {i : Instr} {opc : BitVec 8} {rd ra rb : Reg} (he : encode i = encodeFields opc rd ra rb)
    (ho : (formatOf opc).isSome = true) (hd : destination i = rd) : Statement i := by
  simp only [Statement, he, hd, opcField_encodeFields, rdField_encodeFields, zeroField_encodeFields, ho,
    and_self]

theorem add (rd ra rb : Reg) : Statement (.add rd ra rb) := of_fields rfl rfl rfl
theorem sub (rd ra rb : Reg) : Statement (.sub rd ra rb) := of_fields rfl rfl rfl
theorem mul (rd ra rb : Reg) : Statement (.mul rd ra rb) := of_fields rfl rfl rfl
theorem div (rd ra rb : Reg) : Statement (.div rd ra rb) := of_fields rfl rfl rfl
theorem mod (rd ra rb : Reg) : Statement (.mod rd ra rb) := of_fields rfl rfl rfl
theorem neg (rd ra : Reg) : Statement (.neg rd ra) := of_fields rfl rfl rfl
theorem fadd (rd ra rb : Reg) : Statement (.fadd rd ra rb) := of_fields rfl rfl rfl
theorem fsub (rd ra rb : Reg) : Statement (.fsub rd ra rb) := of_fields rfl rfl rfl
theorem fmul (rd ra rb : Reg) : Statement (.fmul rd ra rb) := of_fields rfl rfl rfl
theorem fmod (rd ra rb : Reg) : Statement (.fmod rd ra rb) := of_fields rfl rfl rfl
theorem ceq (rd ra rb : Reg) : Statement (.ceq rd ra rb) := of_fields rfl rfl rfl
theorem cne (rd ra rb : Reg) : Statement (.cne rd ra rb) := of_fields rfl rfl rfl
theorem clt (rd ra rb : Reg) : Statement (.clt rd ra rb) := of_fields rfl rfl rfl
theorem cle (rd ra rb : Reg) : Statement (.cle rd ra rb) := of_fields rfl rfl rfl
theorem cgt (rd ra rb : Reg) : Statement (.cgt rd ra rb) := of_fields rfl rfl rfl
theorem cge (rd ra rb : Reg) : Statement (.cge rd ra rb) := of_fields rfl rfl rfl
theorem itof (rd ra : Reg) : Statement (.itof rd ra) := of_fields rfl rfl rfl
theorem ftoi (rd ra : Reg) : Statement (.ftoi rd ra) := of_fields rfl rfl rfl
theorem ldc (rd : Reg) (k : BitVec 4) : Statement (.ldc rd k) := of_fields rfl rfl rfl
theorem sign (rd ra : Reg) : Statement (.sign rd ra) := of_fields rfl rfl rfl
theorem abs (rd ra : Reg) : Statement (.abs rd ra) := of_fields rfl rfl rfl
theorem floor (rd ra : Reg) : Statement (.floor rd ra) := of_fields rfl rfl rfl
theorem ceil (rd ra : Reg) : Statement (.ceil rd ra) := of_fields rfl rfl rfl
theorem round (rd ra : Reg) : Statement (.round rd ra) := of_fields rfl rfl rfl
theorem sqrt (rd ra : Reg) : Statement (.sqrt rd ra) := of_fields rfl rfl rfl
theorem log2 (rd ra : Reg) : Statement (.log2 rd ra) := of_fields rfl rfl rfl
theorem ln (rd ra : Reg) : Statement (.ln rd ra) := of_fields rfl rfl rfl
theorem pow2 (rd ra : Reg) : Statement (.pow2 rd ra) := of_fields rfl rfl rfl
theorem pow (rd ra rb : Reg) : Statement (.pow rd ra rb) := of_fields rfl rfl rfl
theorem sin (rd ra : Reg) : Statement (.sin rd ra) := of_fields rfl rfl rfl
theorem cos (rd ra : Reg) : Statement (.cos rd ra) := of_fields rfl rfl rfl
theorem tan (rd ra : Reg) : Statement (.tan rd ra) := of_fields rfl rfl rfl
theorem fsin (rd ra : Reg) : Statement (.fsin rd ra) := of_fields rfl rfl rfl
theorem fcos (rd ra : Reg) : Statement (.fcos rd ra) := of_fields rfl rfl rfl
theorem acos (rd ra : Reg) : Statement (.acos rd ra) := of_fields rfl rfl rfl
theorem atan (rd ra : Reg) : Statement (.atan rd ra) := of_fields rfl rfl rfl
theorem atan2 (rd ra rb : Reg) : Statement (.atan2 rd ra rb) := of_fields rfl rfl rfl

end Sys2Proof.Laws.EncodedFields
end

