-- ==== Sys2Proof/Laws/Tables.lean ====
section
/-!
SUPPORT. The computed table entries (spec/10_state.md rules R17 and R18) against the exact sine and tangent:
the truncated series is within 64 units of `2^-128` of the sine and the cosine, so it rises and falls with
them (P3, P4), and an entry is the floor its rule names to within a margin far below a tick.
-/

namespace Sys2Proof.Machine

open Finset

/-- The series of `alternating` over the exact reals, `n` terms of it, for a first term of one. -/
noncomputable def alternatingReal (y : ℝ) : (n k : ℕ) → ℝ
  | 0, _ => 0
  | n + 1, k => 1 - y / (k * (k + 1)) * alternatingReal y n (k + 2)

/-- Past its first term the exact series lies between zero and one. -/
theorem alternatingReal_mem {y : ℝ} (h0 : 0 ≤ y) (h6 : y ≤ 6) (n k : ℕ) (hk : 2 ≤ k) :
    0 ≤ alternatingReal y n k ∧ alternatingReal y n k ≤ 1 := by
  induction n generalizing k with
  | zero => simp [alternatingReal]
  | succ n ih =>
    obtain ⟨i0, i1⟩ := ih (k + 2) (by omega)
    have hk' : (2 : ℝ) ≤ k := by exact_mod_cast hk
    have hq0 : 0 ≤ y / (k * (k + 1)) := by positivity
    have hq1 : y / (k * (k + 1)) ≤ 1 := by
      rw [div_le_one (by positivity)]; nlinarith
    simp only [alternatingReal]
    constructor <;> nlinarith [mul_le_one₀ hq1 i0 i1, mul_nonneg hq0 i0]

/-- The exact series as a sum. -/
theorem alternatingReal_sum (y : ℝ) (n k : ℕ) :
    alternatingReal y n (k + 1) = ∑ j ∈ range n, (-1) ^ j * y ^ j * (k.factorial / (k + 2 * j).factorial) := by
  induction n generalizing k with
  | zero => simp [alternatingReal]
  | succ n ih =>
    rw [sum_range_succ', alternatingReal, ih (k + 2), mul_sum, sub_eq_add_neg, add_comm, ← sum_neg_distrib]
    congr 1
    · refine sum_congr rfl fun j _ => ?_
      have e1 : ((k + 2).factorial : ℝ) = (k + 2) * (k + 1) * k.factorial := by
        rw [Nat.factorial_succ, Nat.factorial_succ]; push_cast; ring
      have e2 : k + 2 + 2 * j = k + 2 * (j + 1) := by ring
      rw [e1, e2]
      push_cast
      have := Nat.factorial_pos (k + 2 * (j + 1))
      field_simp
      ring
    · have := Nat.factorial_pos k
      simp
      field_simp

/-- The Taylor polynomials of the sine and the cosine, with the remainder of the exponential. -/
theorem taylor_close (x : ℝ) (n : ℕ) (hx : |x| ≤ n + 1 / 2) :
    |Real.sin x - ∑ j ∈ range n, (-1) ^ j * x ^ (2 * j + 1) / (2 * j + 1).factorial| ≤
      |x| ^ (2 * n) / (2 * n).factorial * 2 ∧
    |Real.cos x - ∑ j ∈ range n, (-1) ^ j * x ^ (2 * j) / (2 * j).factorial| ≤
      |x| ^ (2 * n) / (2 * n).factorial * 2 := by
  have hb := Complex.exp_bound' (x := x * Complex.I) (n := 2 * n) (by
    rw [norm_mul, Complex.norm_I, mul_one, Complex.norm_real, Real.norm_eq_abs, div_le_iff₀ (by positivity)]
    push_cast
    linarith)
  rw [norm_mul, Complex.norm_I, mul_one, Complex.norm_real, Real.norm_eq_abs] at hb
  have hs : ∑ m ∈ range (2 * n), (x * Complex.I) ^ m / (m.factorial : ℂ) =
      ((∑ j ∈ range n, (-1) ^ j * x ^ (2 * j) / (2 * j).factorial : ℝ) : ℂ) +
        ((∑ j ∈ range n, (-1) ^ j * x ^ (2 * j + 1) / (2 * j + 1).factorial : ℝ) : ℂ) * Complex.I := by
    clear hb hx
    induction n with
    | zero => simp
    | succ n ih =>
      rw [show 2 * (n + 1) = 2 * n + 1 + 1 by ring, sum_range_succ, sum_range_succ, ih, sum_range_succ,
        sum_range_succ]
      have hI : Complex.I ^ (2 * n) = (-1) ^ n := by rw [pow_mul, Complex.I_sq]
      push_cast
      rw [mul_pow, mul_pow, pow_succ Complex.I, hI]
      ring
  rw [hs, Complex.exp_mul_I] at hb
  constructor
  · refine le_trans ?_ hb
    refine le_trans (le_of_eq ?_) (Complex.abs_im_le_norm _)
    congr 1
    simp only [Complex.sub_im, Complex.add_im, Complex.mul_im, ← Complex.ofReal_cos, ← Complex.ofReal_sin,
      Complex.ofReal_im, Complex.ofReal_re, Complex.I_re, Complex.I_im]
    ring
  · refine le_trans ?_ hb
    refine le_trans (le_of_eq ?_) (Complex.abs_re_le_norm _)
    congr 1
    simp only [Complex.sub_re, Complex.add_re, Complex.mul_re, ← Complex.ofReal_cos, ← Complex.ofReal_sin,
      Complex.ofReal_im, Complex.ofReal_re, Complex.I_re, Complex.I_im]
    ring

/-- One truncated term is within two units of the exact one. -/
theorem term_close (x2 t k : ℕ) (y : ℝ) (hk : 1 ≤ k) (ht : t ≤ 2 ^ 129)
    (h1 : (x2 : ℝ) / 2 ^ 128 ≤ y) (h2 : y ≤ (x2 : ℝ) / 2 ^ 128 + 1 / 2 ^ 128) :
    |((((t * x2) >>> 128) / (k * (k + 1)) : ℕ) : ℝ) - t * (y / (k * (k + 1)))| ≤ 2 := by
  have hk' : (1 : ℝ) ≤ k := by exact_mod_cast hk
  have ht' : (t : ℝ) ≤ 2 ^ 129 := by exact_mod_cast ht
  have hd : (2 : ℝ) ≤ k * (k + 1) := by nlinarith
  rw [Nat.shiftRight_eq_div_pow, Nat.div_div_eq_div_mul]
  set q : ℕ := t * x2 / (2 ^ 128 * (k * (k + 1))) with hq
  have hpos : 0 < 2 ^ 128 * (k * (k + 1)) := by positivity
  have l1 : q * (2 ^ 128 * (k * (k + 1))) ≤ t * x2 := Nat.div_mul_le_self _ _
  have l2 : t * x2 < (q + 1) * (2 ^ 128 * (k * (k + 1))) := by
    rw [mul_comm (q + 1)]; exact Nat.lt_mul_div_succ _ hpos
  have r1 : (q : ℝ) * (2 ^ 128 * (k * (k + 1))) ≤ t * x2 := by exact_mod_cast l1
  have r2 : (t : ℝ) * x2 < (q + 1) * (2 ^ 128 * (k * (k + 1))) := by exact_mod_cast l2
  have hd0 : (0 : ℝ) < k * (k + 1) := by linarith
  have hy : (t : ℝ) * (y / (k * (k + 1))) = t * y / (k * (k + 1)) := by ring
  have t0 : (0 : ℝ) ≤ t := Nat.cast_nonneg t
  have u1 : (t : ℝ) * x2 / 2 ^ 128 ≤ t * y := by
    have := mul_le_mul_of_nonneg_left h1 t0
    rw [mul_div_assoc]; exact this
  have u2 : (t : ℝ) * y ≤ t * x2 / 2 ^ 128 + 2 := by
    have a := mul_le_mul_of_nonneg_left h2 t0
    have : (t : ℝ) * (1 / 2 ^ 128) ≤ 2 := by
      calc (t : ℝ) * (1 / 2 ^ 128) ≤ 2 ^ 129 * (1 / 2 ^ 128) := by gcongr
        _ = 2 := by norm_num
    calc (t : ℝ) * y ≤ t * (x2 / 2 ^ 128 + 1 / 2 ^ 128) := a
      _ = t * x2 / 2 ^ 128 + t * (1 / 2 ^ 128) := by ring
      _ ≤ _ := by linarith
  rw [hy, abs_le]
  constructor
  · have : (t : ℝ) * y / (k * (k + 1)) ≤ q + 2 := by
      rw [div_le_iff₀ hd0]
      have : (t : ℝ) * x2 / 2 ^ 128 ≤ (q + 1) * (k * (k + 1)) := by
        rw [div_le_iff₀ (by positivity)]; linarith
      nlinarith
    linarith
  · have : (q : ℝ) ≤ t * y / (k * (k + 1)) := by
      rw [le_div_iff₀ hd0]
      have : (q : ℝ) * (k * (k + 1)) ≤ t * x2 / 2 ^ 128 := by
        rw [le_div_iff₀ (by positivity)]; linarith
      linarith
    linarith

/-- Truncated natural subtraction of close values. -/
theorem sub_close {a b : ℕ} {c e : ℝ} (hc : 0 ≤ c) (h : |(a : ℝ) - b - c| ≤ e) :
    |((a - b : ℕ) : ℝ) - c| ≤ e := by
  rcases le_total b a with hab | hab
  · rwa [Nat.cast_sub hab]
  · rw [Nat.sub_eq_zero_of_le hab]
    have : (a : ℝ) ≤ b := by exact_mod_cast hab
    rw [abs_le] at h ⊢
    push_cast
    constructor <;> linarith

/-- One level of the series: two units more of error. -/
theorem alternating_step (x2 t k n : ℕ) (y : ℝ) (hk : 1 ≤ k) (ht : t ≤ 2 ^ 129)
    (h1 : (x2 : ℝ) / 2 ^ 128 ≤ y) (h2 : y ≤ (x2 : ℝ) / 2 ^ 128 + 1 / 2 ^ 128) (h6 : y ≤ 6) (hy : 0 ≤ y)
    (hpos : 0 ≤ alternatingReal y (n + 1) k)
    (ih : |(alternating x2 n (((t * x2) >>> 128) / (k * (k + 1))) (k + 2) : ℝ) -
      ((((t * x2) >>> 128) / (k * (k + 1)) : ℕ) : ℝ) * alternatingReal y n (k + 2)| ≤ 2 * n) :
    |(alternating x2 (n + 1) t k : ℝ) - t * alternatingReal y (n + 1) k| ≤ 2 * (n + 1) := by
  simp only [alternating]
  split_ifs with h
  · subst h
    push_cast
    rw [zero_mul, sub_zero, abs_zero]
    positivity
  · refine sub_close (by positivity) ?_
    have hc := term_close x2 t k y hk ht h1 h2
    obtain ⟨m0, m1⟩ := alternatingReal_mem hy h6 n (k + 2) (by omega)
    generalize ((t * x2) >>> 128) / (k * (k + 1)) = u at *
    generalize alternating x2 n u (k + 2) = v at *
    simp only [alternatingReal]
    generalize alternatingReal y n (k + 2) = g at *
    generalize y / (k * (k + 1)) = r at *
    have e : (t : ℝ) - v - t * (1 - r * g) = -(((v : ℝ) - u * g) + (u - t * r) * g) := by ring
    rw [e, abs_neg]
    refine le_trans (abs_add_le _ _) ?_
    have : |((u : ℝ) - t * r) * g| ≤ 2 * 1 := by
      rw [abs_mul, abs_of_nonneg m0]
      gcongr
    linarith

/-- The computed series is within two units a term of the exact series, past its first term. -/
theorem alternating_close (x2 t k n : ℕ) (y : ℝ) (hk : 2 ≤ k) (ht : t ≤ 2 ^ 129)
    (h1 : (x2 : ℝ) / 2 ^ 128 ≤ y) (h2 : y ≤ (x2 : ℝ) / 2 ^ 128 + 1 / 2 ^ 128) (h6 : y ≤ 6) (hy : 0 ≤ y) :
    |(alternating x2 n t k : ℝ) - t * alternatingReal y n k| ≤ 2 * n := by
  induction n generalizing t k with
  | zero => simp [alternating, alternatingReal]
  | succ n ih =>
    have := alternating_step x2 t k n y (by omega) ht h1 h2 h6 hy (alternatingReal_mem hy h6 _ _ hk).1
      (ih _ (k + 2) (by omega) ?_)
    · push_cast; exact this
    · refine le_trans ?_ ht
      rw [Nat.shiftRight_eq_div_pow, Nat.div_div_eq_div_mul]
      refine Nat.div_le_of_le_mul ?_
      have hx : (x2 : ℝ) ≤ 6 * 2 ^ 128 := by
        have := le_trans h1 h6
        rwa [div_le_iff₀ (by positivity)] at this
      have hx' : x2 ≤ 6 * 2 ^ 128 := by exact_mod_cast hx
      have : 6 ≤ k * (k + 1) := by nlinarith
      calc t * x2 ≤ t * (2 ^ 128 * (k * (k + 1))) := Nat.mul_le_mul_left _ (by nlinarith)
        _ = _ := by ring

/-! ## The angles -/

/-- The angle of entry `i` as the tables hold it, in radians. -/
noncomputable def angleReal (i : ℕ) : ℝ := entryAngle i / 2 ^ 128

/-- The angle in decimal bounds. -/
theorem angleReal_bounds (i : ℕ) :
    (3.1415926535 * i / 411772 - 1 / 2 ^ 128 : ℝ) ≤ angleReal i ∧ angleReal i ≤ 3.1415926536 * i / 411772 := by
  have hp : (3.1415926535 : ℝ) ≤ (piScaled : ℝ) / 2 ^ 128 ∧ (piScaled : ℝ) / 2 ^ 128 ≤ 3.1415926536 := by
    simp only [piScaled]; norm_num
  have l1 : entryAngle i * 411772 ≤ piScaled * i := Nat.div_mul_le_self _ _
  have l2 : piScaled * i < (entryAngle i + 1) * 411772 := by
    rw [mul_comm (entryAngle i + 1)]; exact Nat.lt_mul_div_succ _ (by norm_num)
  have r1 : (entryAngle i : ℝ) * 411772 ≤ piScaled * i := by exact_mod_cast l1
  have r2 : (piScaled : ℝ) * i < (entryAngle i + 1) * 411772 := by exact_mod_cast l2
  have hi : (0 : ℝ) ≤ i := Nat.cast_nonneg i
  simp only [angleReal]
  generalize (entryAngle i : ℝ) = x at *
  generalize (piScaled : ℝ) = p at *
  obtain ⟨p1, p2⟩ := hp
  have q1 := mul_le_mul_of_nonneg_right p1 hi
  have q2 := mul_le_mul_of_nonneg_right p2 hi
  constructor
  · have : 3.1415926535 * (i : ℝ) / 411772 ≤ x / 2 ^ 128 + 1 / 2 ^ 128 := by
      rw [← add_div, div_le_iff₀ (by norm_num)]
      refine le_trans q1 ?_
      rw [div_mul_eq_mul_div, div_mul_eq_mul_div]
      gcongr
    linarith
  · rw [le_div_iff₀ (by norm_num)]
    refine le_trans ?_ q2
    rw [div_mul_eq_mul_div, div_mul_eq_mul_div]
    gcongr

/-- No angle is negative. -/
theorem angleReal_nonneg (i : ℕ) : 0 ≤ angleReal i := by
  simp only [angleReal]; positivity

/-- An angle below the last entry is a step below π/2. -/
theorem angleReal_le (i : ℕ) (hi : i < lastEntry) : angleReal i ≤ 3.1415926536 * 205885 / 411772 := by
  refine le_trans (angleReal_bounds i).2 ?_
  have : (i : ℝ) ≤ 205885 := by exact_mod_cast (by simp only [lastEntry] at hi; omega : i ≤ 205885)
  gcongr

/-- The square of the angle as the series holds it. -/
theorem angle_sq (i : ℕ) :
    ((((entryAngle i * entryAngle i) >>> 128 : ℕ) : ℝ) / 2 ^ 128 ≤ angleReal i ^ 2) ∧
      angleReal i ^ 2 ≤ (((entryAngle i * entryAngle i) >>> 128 : ℕ) : ℝ) / 2 ^ 128 + 1 / 2 ^ 128 := by
  rw [Nat.shiftRight_eq_div_pow]
  simp only [angleReal]
  generalize entryAngle i = x
  have l1 : x * x / 2 ^ 128 * 2 ^ 128 ≤ x * x := Nat.div_mul_le_self _ _
  have l2 : x * x < (x * x / 2 ^ 128 + 1) * 2 ^ 128 := by
    rw [mul_comm (_ + 1)]; exact Nat.lt_mul_div_succ _ (by positivity)
  have r1 : ((x * x / 2 ^ 128 : ℕ) : ℝ) * 2 ^ 128 ≤ x * x := by exact_mod_cast l1
  have r2 : (x : ℝ) * x < (((x * x / 2 ^ 128 : ℕ) : ℝ) + 1) * 2 ^ 128 := by exact_mod_cast l2
  have e : ((x : ℝ) / 2 ^ 128) ^ 2 = x * x / 2 ^ 128 / 2 ^ 128 := by ring
  rw [e, ← add_div]
  constructor
  · gcongr; rwa [le_div_iff₀ (by positivity)]
  · gcongr; rw [div_le_iff₀ (by positivity)]; exact r2.le

/-- The truncation of the exact series. -/
theorem remainder_small {x : ℝ} (h0 : 0 ≤ x) (h1 : x ≤ 1.6) :
    |x| ^ (2 * 24) / (2 * 24).factorial * 2 ≤ 1 / 2 ^ 128 := by
  rw [abs_of_nonneg h0]
  calc x ^ (2 * 24) / ((2 * 24).factorial : ℝ) * 2 ≤ 1.6 ^ (2 * 24) / ((2 * 24).factorial : ℝ) * 2 := by gcongr
    _ ≤ 1 / 2 ^ 128 := by norm_num [Nat.factorial]

/-- The exact series of the sine. -/
theorem sum_sin (x : ℝ) (n : ℕ) : x * alternatingReal (x ^ 2) n 2 =
    ∑ j ∈ range n, (-1) ^ j * x ^ (2 * j + 1) / (2 * j + 1).factorial := by
  rw [alternatingReal_sum (x ^ 2) n 1, mul_sum]
  refine sum_congr rfl fun j _ => ?_
  rw [← pow_mul, pow_succ, show 1 + 2 * j = 2 * j + 1 by ring]
  simp
  ring

/-- The exact series of the cosine. -/
theorem sum_cos (x : ℝ) (n : ℕ) : alternatingReal (x ^ 2) n 1 =
    ∑ j ∈ range n, (-1) ^ j * x ^ (2 * j) / (2 * j).factorial := by
  rw [alternatingReal_sum (x ^ 2) n 0]
  refine sum_congr rfl fun j _ => ?_
  rw [← pow_mul, zero_add]
  simp
  ring

/-- The computed sine of every entry below the last one is within 64 units of `2^-128` of the sine of its
angle. -/
theorem sinScaled_close (i : ℕ) (hi : i < lastEntry) :
    |(sinScaled i : ℝ) - 2 ^ 128 * Real.sin (angleReal i)| ≤ 64 := by
  have a0 := angleReal_nonneg i
  have a1 : angleReal i ≤ 1.6 := le_trans (angleReal_le i hi) (by norm_num)
  obtain ⟨s1, s2⟩ := angle_sq i
  have ht : entryAngle i ≤ 2 ^ 129 := by
    have : (entryAngle i : ℝ) ≤ 2 ^ 129 := by
      have := a1
      simp only [angleReal] at this
      rw [div_le_iff₀ (by positivity)] at this
      refine le_trans this (by norm_num)
    exact_mod_cast this
  have h := alternating_close _ (entryAngle i) 2 24 (angleReal i ^ 2) le_rfl ht s1 s2 (by nlinarith)
    (by positivity)
  have hr := le_trans (taylor_close (angleReal i) 24 (by rw [abs_of_nonneg a0]; norm_num; linarith)).1
    (remainder_small a0 a1)
  rw [← sum_sin] at hr
  have e : (entryAngle i : ℝ) = 2 ^ 128 * angleReal i := by simp only [angleReal]; field_simp
  rw [e, mul_assoc] at h
  simp only [sinScaled]
  rw [abs_le] at h hr ⊢
  norm_num at h hr ⊢
  constructor <;> linarith

/-- The cosine of an entry below the last is not small. -/
theorem cos_angle_pos (i : ℕ) (hi : i < lastEntry) : 1 / 1000000 ≤ Real.cos (angleReal i) := by
  have hpi := Real.pi_gt_d20
  have a1 := angleReal_le i hi
  have := Real.one_sub_mul_le_cos (angleReal_nonneg i) (by linarith)
  refine le_trans ?_ this
  rw [div_mul_eq_mul_div, le_sub_comm, div_le_iff₀ (by linarith)]
  linarith

/-- The computed cosine of every entry below the last one is within 64 units of `2^-128` of the cosine of its
angle. -/
theorem cosScaled_close (i : ℕ) (hi : i < lastEntry) :
    |(cosScaled i : ℝ) - 2 ^ 128 * Real.cos (angleReal i)| ≤ 64 := by
  have a0 := angleReal_nonneg i
  have a1 : angleReal i ≤ 1.6 := le_trans (angleReal_le i hi) (by norm_num)
  obtain ⟨s1, s2⟩ := angle_sq i
  have hr := le_trans (taylor_close (angleReal i) 24 (by rw [abs_of_nonneg a0]; norm_num; linarith)).2
    (remainder_small a0 a1)
  rw [← sum_cos] at hr
  have hpos := cos_angle_pos i hi
  have hy6 : angleReal i ^ 2 ≤ 3 := by nlinarith
  have hone : 1 <<< 128 = 2 ^ 128 := by rw [Nat.shiftLeft_eq, one_mul]
  have h := alternating_step _ (2 ^ 128) 1 23 (angleReal i ^ 2) le_rfl (by norm_num) s1 s2 (by linarith)
    (by positivity) (by rw [abs_le] at hr; norm_num at hr ⊢; linarith)
    (alternating_close _ _ _ 23 _ (by norm_num) (by
      rw [Nat.shiftRight_eq_div_pow, Nat.div_div_eq_div_mul]
      refine Nat.div_le_of_le_mul ?_
      have hx : (((entryAngle i * entryAngle i) >>> 128 : ℕ) : ℝ) ≤ 3 * 2 ^ 128 := by
        have := le_trans s1 hy6
        rwa [div_le_iff₀ (by positivity)] at this
      have hx' : (entryAngle i * entryAngle i) >>> 128 ≤ 3 * 2 ^ 128 := by exact_mod_cast hx
      norm_num
      omega) s1 s2 (by linarith) (by positivity))
  simp only [cosScaled, hone]
  rw [abs_le] at h hr ⊢
  norm_num at h hr ⊢
  constructor <;> linarith

/-! ## Order -/

/-- Neighbouring angles differ by a step. -/
theorem angleReal_step (i : ℕ) : angleReal i + 7 / 1000000 ≤ angleReal (i + 1) := by
  have l2 : piScaled * i / 411772 + 2 ^ 111 ≤ piScaled * (i + 1) / 411772 := by
    rw [Nat.le_div_iff_mul_le (by norm_num), add_mul, mul_add]
    exact add_le_add (Nat.div_mul_le_self _ _) (by simp only [piScaled]; norm_num)
  have l3 : (entryAngle i : ℝ) + 2 ^ 111 ≤ entryAngle (i + 1) := by exact_mod_cast l2
  simp only [angleReal]
  rw [← sub_nonneg]
  have : (entryAngle (i + 1) : ℝ) / 2 ^ 128 - (entryAngle i / 2 ^ 128 + 7 / 1000000) =
    ((entryAngle (i + 1) - (entryAngle i + 2 ^ 111)) + (2 ^ 111 - 7 / 1000000 * 2 ^ 128)) / 2 ^ 128 := by
    field_simp; ring
  rw [this]
  refine div_nonneg (add_nonneg (by linarith) (by norm_num)) (by positivity)

/-- What two angles a step apart below π/2 make of a sine or a cosine. -/
theorem gap_bounds {a b : ℝ} (ha : 0 ≤ a) (hab : a + 7 / 1000000 ≤ b)
    (hb : b ≤ 3.1415926536 * 205885 / 411772) :
    Real.sin a + 1 / 10 ^ 12 ≤ Real.sin b ∧ Real.cos b + 1 / 10 ^ 12 ≤ Real.cos a := by
  have hpi := Real.pi_gt_d20
  have hpi' := Real.pi_lt_d20
  have hs : 1 / 10 ^ 6 ≤ Real.sin ((b - a) / 2) := by
    refine le_trans ?_ (Real.mul_le_sin (by linarith) (by linarith))
    rw [div_mul_eq_mul_div, le_div_iff₀ (by linarith)]
    linarith
  have hc : 1 / 10 ^ 6 ≤ Real.cos ((b + a) / 2) := by
    refine le_trans ?_ (Real.one_sub_mul_le_cos (by linarith) (by linarith))
    rw [div_mul_eq_mul_div, le_sub_comm, div_le_iff₀ (by linarith)]
    linarith
  have hm : 1 / 10 ^ 6 ≤ Real.sin ((b + a) / 2) := by
    refine le_trans ?_ (Real.mul_le_sin (by linarith) (by linarith))
    rw [div_mul_eq_mul_div, le_div_iff₀ (by linarith)]
    linarith
  have e1 := Real.sin_sub_sin b a
  have e2 := Real.cos_sub_cos b a
  have m1 := mul_le_mul hs hc (by norm_num) (by linarith)
  have m2 := mul_le_mul hm hs (by norm_num) (by linarith)
  norm_num at m1 m2 ⊢
  constructor <;> linarith

/-- The computed sines rise and the computed cosines fall, and are not zero, below the last entry. -/
theorem scaled_order (i : ℕ) (hi : i + 1 < lastEntry) :
    sinScaled i ≤ sinScaled (i + 1) ∧ cosScaled (i + 1) ≤ cosScaled i ∧ 0 < cosScaled (i + 1) := by
  obtain ⟨g1, g2⟩ := gap_bounds (angleReal_nonneg i) (angleReal_step i) (angleReal_le (i + 1) hi)
  have s1 := abs_le.1 (sinScaled_close i (by omega))
  have s2 := abs_le.1 (sinScaled_close (i + 1) hi)
  have c1 := abs_le.1 (cosScaled_close i (by omega))
  have c2 := abs_le.1 (cosScaled_close (i + 1) hi)
  have hp := cos_angle_pos (i + 1) hi
  norm_num at *
  refine ⟨?_, ?_, ?_⟩
  · have : (sinScaled i : ℝ) ≤ sinScaled (i + 1) := by linarith
    exact_mod_cast this
  · have : (cosScaled (i + 1) : ℝ) ≤ cosScaled i := by linarith
    exact_mod_cast this
  · have : (0 : ℝ) < cosScaled (i + 1) := by linarith
    exact_mod_cast this

/-- A computed sine below the last entry is below one by more than the error. -/
theorem sinScaled_le_one (i : ℕ) (hi : i < lastEntry) : sinScaled i ≤ 2 ^ 128 + 64 := by
  have h := abs_le.1 (sinScaled_close i hi)
  have := Real.sin_le_one (angleReal i)
  have : (sinScaled i : ℝ) ≤ 2 ^ 128 + 64 := by linarith
  exact_mod_cast this

/-! ## The entries against the exact sine and tangent -/

/-- The angle a table holds is within `10^-20` of the angle of R17 and R18. -/
theorem angleReal_exact (i : ℕ) (hi : i < lastEntry) :
    |angleReal i - i * (Real.pi / 2) / 205886| ≤ 1 / 10 ^ 20 := by
  have hp1 := Real.pi_gt_d20
  have hp2 := Real.pi_lt_d20
  have hq : |(piScaled : ℝ) / 2 ^ 128 - Real.pi| ≤ 1 / 10 ^ 20 := by
    rw [abs_le]
    simp only [piScaled]
    norm_num
    norm_num at hp1 hp2
    constructor <;> linarith
  have l1 : entryAngle i * 411772 ≤ piScaled * i := Nat.div_mul_le_self _ _
  have l2 : piScaled * i < (entryAngle i + 1) * 411772 := by
    rw [mul_comm (entryAngle i + 1)]; exact Nat.lt_mul_div_succ _ (by norm_num)
  have r1 : (entryAngle i : ℝ) * 411772 ≤ piScaled * i := by exact_mod_cast l1
  have r2 : (piScaled : ℝ) * i < (entryAngle i + 1) * 411772 := by exact_mod_cast l2
  have hi0 : (0 : ℝ) ≤ i := Nat.cast_nonneg i
  have hi1 : (i : ℝ) ≤ 205885 := by exact_mod_cast (by simp only [lastEntry] at hi; omega : i ≤ 205885)
  have hm : |((piScaled : ℝ) / 2 ^ 128 - Real.pi) * i| ≤ 1 / 10 ^ 20 * 205885 := by
    rw [abs_mul, abs_of_nonneg hi0]
    exact mul_le_mul hq hi1 hi0 (by norm_num)
  have e : angleReal i - i * (Real.pi / 2) / 205886 =
      ((entryAngle i : ℝ) * 411772 - piScaled * i) / (411772 * 2 ^ 128) +
        ((piScaled : ℝ) / 2 ^ 128 - Real.pi) * i / 411772 := by
    simp only [angleReal]
    field_simp
    ring
  rw [e]
  refine le_trans (abs_add_le _ _) ?_
  have a1 : |((entryAngle i : ℝ) * 411772 - piScaled * i) / (411772 * 2 ^ 128)| ≤ 1 / 2 ^ 128 := by
    rw [abs_div, abs_of_pos (by positivity : (0 : ℝ) < 411772 * 2 ^ 128), div_le_iff₀ (by positivity), abs_le]
    norm_num
    constructor <;> linarith
  have a2 : |((piScaled : ℝ) / 2 ^ 128 - Real.pi) * i / 411772| ≤ 1 / 10 ^ 20 * 205885 / 411772 := by
    rw [abs_div, abs_of_pos (by norm_num : (0 : ℝ) < 411772)]
    gcongr
  refine le_trans (add_le_add a1 a2) ?_
  norm_num

/-- The computed sine and cosine of an entry below the last, against the exact angle of R17 and R18. -/
theorem scaled_exact (i : ℕ) (hi : i < lastEntry) :
    |(sinScaled i : ℝ) / 2 ^ 128 - Real.sin (i * (Real.pi / 2) / 205886)| ≤ 2 / 10 ^ 20 ∧
      |(cosScaled i : ℝ) / 2 ^ 128 - Real.cos (i * (Real.pi / 2) / 205886)| ≤ 2 / 10 ^ 20 := by
  have ha := angleReal_exact i hi
  generalize (i : ℝ) * (Real.pi / 2) / 205886 = θ at *
  have s1 : |Real.sin (angleReal i) - Real.sin θ| ≤ 1 / 10 ^ 20 :=
    le_trans (by simpa [Real.dist_eq] using Real.lipschitzWith_sin.dist_le_mul (angleReal i) θ) ha
  have c1 : |Real.cos (angleReal i) - Real.cos θ| ≤ 1 / 10 ^ 20 :=
    le_trans (by simpa [Real.dist_eq] using Real.lipschitzWith_cos.dist_le_mul (angleReal i) θ) ha
  have s2 := abs_le.1 (sinScaled_close i hi)
  have c2 := abs_le.1 (cosScaled_close i hi)
  rw [abs_le] at s1 c1 ⊢
  rw [abs_le]
  norm_num at s1 c1 s2 c2 ⊢
  refine ⟨⟨?_, ?_⟩, ?_, ?_⟩ <;> linarith

/-- R17: an entry of the sine table below the last is the floor of `sin · 2^32` to within `10^-9`. -/
theorem sinEntry_exact (i : ℕ) (hi : i < lastEntry) :
    (sinEntry i : ℝ) ≤ Real.sin (i * (Real.pi / 2) / 205886) * 2 ^ 32 + 1 / 10 ^ 9 ∧
      Real.sin (i * (Real.pi / 2) / 205886) * 2 ^ 32 < sinEntry i + 1 + 1 / 10 ^ 9 := by
  have h := abs_le.1 (scaled_exact i hi).1
  have e : (sinEntry i : ℝ) = ((sinScaled i / 2 ^ 96 : ℕ) : ℝ) := by
    rw [sinEntry, if_neg hi.ne, Nat.shiftRight_eq_div_pow]
    push_cast
    rfl
  rw [e]
  have r1 : ((sinScaled i / 2 ^ 96 : ℕ) : ℝ) * 2 ^ 96 ≤ sinScaled i := by
    exact_mod_cast Nat.div_mul_le_self _ _
  have r2 : (sinScaled i : ℝ) < (((sinScaled i / 2 ^ 96 : ℕ) : ℝ) + 1) * 2 ^ 96 := by
    have : sinScaled i < (sinScaled i / 2 ^ 96 + 1) * 2 ^ 96 := by
      rw [mul_comm]; exact Nat.lt_mul_div_succ _ (by positivity)
    exact_mod_cast this
  generalize ((sinScaled i / 2 ^ 96 : ℕ) : ℝ) = q at *
  norm_num at h r1 r2 ⊢
  constructor <;> linarith

/-- R18: an entry of the tangent table below the last is the floor of `tan · 2^32` to within `10^-3`, both sides
multiplied by the cosine. -/
theorem tanEntry_exact (i : ℕ) (hi : i < lastEntry) :
    (tanEntry i : ℝ) * Real.cos (i * (Real.pi / 2) / 205886) ≤
        Real.sin (i * (Real.pi / 2) / 205886) * 2 ^ 32 + 1 / 10 ^ 3 ∧
      Real.sin (i * (Real.pi / 2) / 205886) * 2 ^ 32 <
        (tanEntry i + 1) * Real.cos (i * (Real.pi / 2) / 205886) + 1 / 10 ^ 3 := by
  by_cases hm : 2 * i = lastEntry
  · have hi2 : (i : ℝ) = 102943 := by exact_mod_cast (by simp only [lastEntry] at hm; omega : i = 102943)
    have ha : (i : ℝ) * (Real.pi / 2) / 205886 = Real.pi / 4 := by rw [hi2]; ring
    have hs : (0 : ℝ) < √2 := by positivity
    rw [ha, Real.cos_pi_div_four, Real.sin_pi_div_four, tanEntry, if_neg hi.ne, if_pos hm]
    simp only [rawOne]
    norm_num
    constructor <;> nlinarith
  · obtain ⟨h1, h2⟩ := scaled_exact i hi
    have hc := abs_le.1 (cosScaled_close i hi)
    have hp := cos_angle_pos i hi
    have s2 := sinScaled_le_one i hi
    have s2' : (sinScaled i : ℝ) ≤ 2 ^ 128 + 64 := by exact_mod_cast s2
    have c0 : (2 : ℝ) ^ 128 / 2000000 ≤ cosScaled i := by norm_num at *; linarith
    have c0' : 0 < cosScaled i := by
      have : (0 : ℝ) < cosScaled i := lt_of_lt_of_le (by norm_num) c0
      exact_mod_cast this
    obtain ⟨q, hq⟩ : ∃ q, q = (sinScaled i <<< 32) / cosScaled i := ⟨_, rfl⟩
    have r1 : (q : ℝ) * cosScaled i ≤ sinScaled i * 2 ^ 32 := by
      have : q * cosScaled i ≤ sinScaled i <<< 32 := by rw [hq]; exact Nat.div_mul_le_self _ _
      rw [Nat.shiftLeft_eq] at this
      exact_mod_cast this
    have r2 : (sinScaled i : ℝ) * 2 ^ 32 < (q + 1) * cosScaled i := by
      have : sinScaled i <<< 32 < (q + 1) * cosScaled i := by
        rw [hq, mul_comm]; exact Nat.lt_mul_div_succ _ c0'
      rw [Nat.shiftLeft_eq] at this
      exact_mod_cast this
    have hq0 : (0 : ℝ) ≤ q := Nat.cast_nonneg q
    have hq1 : (q : ℝ) ≤ 2 ^ 54 := by
      by_contra h
      have hm2 := mul_le_mul (le_of_not_ge h) c0 (by positivity) hq0
      generalize (q : ℝ) * cosScaled i = m at *
      have h3 : m ≤ (2 ^ 128 + 64) * 2 ^ 32 := le_trans r1 (by gcongr)
      have h4 := le_trans hm2 h3
      norm_num at h4
    have hq2 : q ≤ 2 ^ 54 := by exact_mod_cast hq1
    have e : tanEntry i = (q : Int) := by
      rw [tanEntry, if_neg hi.ne, if_neg hm, ← hq]
      refine min_eq_right ?_
      simp only [rawMax]
      omega
    rw [e]
    push_cast
    generalize Real.sin (i * (Real.pi / 2) / 205886) = S at *
    generalize Real.cos (i * (Real.pi / 2) / 205886) = C at *
    rw [abs_le] at h1 h2
    have m1 : (q : ℝ) * (C - cosScaled i / 2 ^ 128) ≤ 2 ^ 54 * (2 / 10 ^ 20) :=
      le_trans (mul_le_mul_of_nonneg_left (by linarith [h2.1]) hq0)
        (mul_le_mul_of_nonneg_right hq1 (by positivity))
    have m2 : ((q : ℝ) + 1) * (cosScaled i / 2 ^ 128 - C) ≤ (2 ^ 54 + 1) * (2 / 10 ^ 20) :=
      le_trans (mul_le_mul_of_nonneg_left h2.2 (by linarith))
        (mul_le_mul_of_nonneg_right (by linarith) (by positivity))
    have r1' : (q : ℝ) * (cosScaled i / 2 ^ 128) ≤ sinScaled i / 2 ^ 128 * 2 ^ 32 := by
      rw [← mul_div_assoc, div_mul_eq_mul_div]
      gcongr
    have r2' : (sinScaled i : ℝ) / 2 ^ 128 * 2 ^ 32 < (q + 1) * (cosScaled i / 2 ^ 128) := by
      rw [← mul_div_assoc, div_mul_eq_mul_div]
      gcongr
    generalize (cosScaled i : ℝ) / 2 ^ 128 = c at *
    generalize (sinScaled i : ℝ) / 2 ^ 128 = b at *
    rw [mul_sub] at m1 m2
    norm_num at m1 m2 h1 r1' r2' ⊢
    constructor <;> linarith

/-! ## The 64-bit entries -/

/-- Every computed tangent entry is a raw value (R18). -/
theorem tanEntry_isRaw (i : ℕ) : IsRaw (tanEntry i) := by
  simp only [tanEntry]
  split_ifs
  · decide
  · decide
  · exact ⟨le_min (by decide) (le_trans (by decide) (Int.natCast_nonneg _)), min_le_left _ _⟩

/-- A computed sine entry is a raw value (R17). -/
theorem sinEntry_isRaw (i : ℕ) (hi : i ≤ lastEntry) : IsRaw (sinEntry i) := by
  simp only [sinEntry, IsRaw, rawMin, rawMax, rawOne]
  split_ifs with h
  · omega
  · have := sinScaled_le_one i (by omega)
    rw [Nat.shiftRight_eq_div_pow]
    omega

/-- The word of a sine entry reads as the entry (R17, R36). -/
theorem defaults_sinLut_raw (i : ℕ) (hi : i ≤ lastEntry) : (defaults.sinLut i).raw = sinEntry i :=
  raw_ofRaw (sinEntry_isRaw i hi)

/-- The word of a tangent entry reads as the entry (R18, R36). -/
theorem defaults_tanLut_raw (i : ℕ) : (defaults.tanLut i).raw = tanEntry i :=
  raw_ofRaw (tanEntry_isRaw i)

end Sys2Proof.Machine
end

