-- ==== Sys2Proof/Laws/Trig.lean ====
section
/-!
SUPPORT. The forward trigonometric functions under any accepted configuration: the reduced angle lies in
the first quadrant (R121), every table index is an entry (R123), so each function answers, with the
interpolated entry (R124, R125, R129), and within `[−ONE, ONE]` for SIN and COS (R131 (a)).
-/

namespace Sys2Proof.Machine

/-- What an accepted configuration satisfies (R7). -/
theorem configOk_iff (c : Config) : configOk c = true ↔
    constantsRaw c = true ∧
    (0 < c.piOver2 ∧ c.piOver2 ≤ c.pi ∧ c.pi < c.piTimes2 ∧ c.piTimes2 ≤ 2 * c.pi + 1 ∧
      c.pi ≤ 2 * c.piOver2 + 1 ∧ 2 ≤ c.lutN ∧ c.piTimes2 ≤ c.largePi >>> (28 : Nat)) ∧
    (mulfloor (min c.piOver2 (c.pi - 1)) (lutInterval c) ≤ (c.lutN - 1) * 4294967296 ∧
      c.largePi >>> (28 : Nat) ≤ c.piTimes2 + 1) := by
  simp only [configOk, constantsOrdered, indicesInRange, Bool.and_eq_true, decide_eq_true_eq, and_assoc]

/-- What R7's raw `LARGE_PI` and inequalities bound: `PI_OVER_2` is below `2^35` and so `LUT_N` below `2^20`, the
raw value of `LUT_N − 1` exists (R120), and `LUT_INTERVAL` is its quotient rounded to nearest. -/
theorem config_small (c : Config) (hl : IsRaw c.largePi) (h0 : 0 < c.piOver2) (h1 : c.piOver2 ≤ c.pi)
    (h2 : c.pi < c.piTimes2) (h3 : 2 ≤ c.lutN) (h4 : c.piTimes2 ≤ c.largePi >>> (28 : Nat)) :
    c.piOver2 < 34359738368 ∧ IsRaw ((c.lutN - 1) * 4294967296) ∧
      lutInterval c = (2 * ((c.lutN - 1) * 4294967296 * 4294967296) + c.piOver2) / (2 * c.piOver2) := by
  have h5 : c.piOver2 < 34359738368 := by
    rw [Int.shiftRight_eq_div_pow] at h4
    simp only [IsRaw, rawMin, rawMax] at hl
    norm_num at h4
    omega
  have h6 : IsRaw ((c.lutN - 1) * 4294967296) := by
    simp only [IsRaw, rawMin, rawMax, Config.lutN] at *
    omega
  refine ⟨h5, h6, ?_⟩
  rw [lutInterval, divide_nonneg _ _ h6 (by simp only [IsRaw, rawMin, rawMax]; omega) (by omega) h0, if_neg]
  simp only [Config.lutN] at *
  omega

/-- `LARGE_PI` of an accepted configuration is a raw value. -/
theorem largePi_isRaw {c : Config} (h : constantsRaw c = true) : IsRaw c.largePi := by
  simp only [constantsRaw, List.all_cons, Bool.and_eq_true, decide_eq_true_eq] at h
  exact h.2.2.2.2.2.2.2.1

/-! ## Range reduction -/

/-- The truncating remainder by a positive modulus (R8). -/
theorem trem_bounds (a m : Int) (hm : 0 < m) :
    -m < trem a m ∧ trem a m < m ∧ (0 ≤ a → 0 ≤ trem a m) ∧ (a ≤ 0 → trem a m ≤ 0) := by
  refine ⟨Int.lt_tmod_of_pos a hm, Int.tmod_lt_of_pos a hm, fun h => Int.tmod_nonneg m h, fun h => ?_⟩
  have := Int.tmod_nonneg m (a := -a) (by omega)
  rw [Int.neg_tmod] at this
  simp only [trem]
  omega

/-- The sign of a truncating remainder is that of the dividend, or it is zero (R8). -/
theorem trem_sign (a m : Int) : (0 ≤ a → 0 ≤ trem a m) ∧ (a ≤ 0 → trem a m ≤ 0) := by
  refine ⟨fun h => Int.tmod_nonneg m h, fun h => ?_⟩
  have := Int.tmod_nonneg m (a := -a) (by omega)
  rw [Int.neg_tmod] at this
  simp only [trem]
  omega

/-- The passes of R121 keep the sign and end below the last modulus. -/
theorem reducePasses_bounds (largePi : Int) (n i : Nat) (a : Int) (hm : 0 < largePi >>> (i + n)) :
    -(largePi >>> (i + n)) < reducePasses largePi (n + 1) i a ∧
      reducePasses largePi (n + 1) i a < largePi >>> (i + n) ∧
      (0 ≤ a → 0 ≤ reducePasses largePi (n + 1) i a) ∧
      (a ≤ 0 → reducePasses largePi (n + 1) i a ≤ 0) := by
  induction n generalizing i a with
  | zero => exact trem_bounds a _ hm
  | succ n ih =>
    have h := ih (i + 1) (trem a (largePi >>> i)) (by rwa [show i + 1 + n = i + (n + 1) by omega])
    rw [show i + 1 + n = i + (n + 1) by omega] at h
    have hs := trem_sign a (largePi >>> i)
    exact ⟨h.1, h.2.1, fun h0 => h.2.2.1 (hs.1 h0), fun h0 => h.2.2.2 (hs.2 h0)⟩

/-- At most two subtractions of `PI` reach `[0, PI)` (R121). -/
theorem subtractWhile_two (m c : Int) (hm : 2 ≤ m) (h0 : 0 ≤ c) (h1 : c ≤ 2 * m + 1) :
    0 ≤ subtractWhile 2 m c ∧ subtractWhile 2 m c < m := by
  simp only [subtractWhile]
  split_ifs <;> omega

/-- The reduced angle of R121 lies in `[0, PI_OVER_2]` and below `PI`, and below `PI_OVER_2` where `PI` is at
most twice it. -/
theorem clampSin_bounds (c : Config) (h : configOk c = true) (a : Int) :
    0 ≤ (clampSin c a).c ∧ (clampSin c a).c ≤ min c.piOver2 (c.pi - 1) ∧
      (c.pi ≤ 2 * c.piOver2 → (clampSin c a).c < c.piOver2) := by
  obtain ⟨-, ⟨p1, p2, p3, p4, p5, p6, p7⟩, -, q4⟩ := (configOk_iff c).1 h
  obtain ⟨r1, r2, r3, r4⟩ := reducePasses_bounds c.largePi 28 0 a (by simp only [Nat.zero_add]; omega)
  rw [Nat.zero_add] at r1 r2
  have hpi : 2 ≤ c.pi := by simp only [Config.lutN] at p6; omega
  simp only [clampSin]
  generalize reducePasses c.largePi (28 + 1) 0 a = r at *
  have h2 := subtractWhile_two c.pi (if a < 0 then r + c.piTimes2 else r) hpi
    (by split_ifs <;> omega) (by split_ifs <;> omega)
  generalize subtractWhile 2 c.pi (if a < 0 then r + c.piTimes2 else r) = c1 at *
  split_ifs <;> omega

/-! ## Table positions -/

/-- Rounding where the next integral value is representable (R94): the nearest one, within half a unit. -/
theorem fRound_near (p : Int) (h : IsRaw (fFloor p + rawOne)) :
    fRound p = highHalf (fRound p) * 4294967296 ∧ -2147483648 ≤ p - fRound p ∧
      p - fRound p ≤ 2147483648 := by
  have hc := clamp_of_isRaw h
  simp only [fRound, fAdd, hc]
  simp only [fFloor, highHalf, lowHalf, rawOne]
  split_ifs <;> omega

/-- R122 with R123's argument: the position of a reduced angle and its neighbour toward the residual are
table entries. -/
theorem tablePos_spec (c : Config) (h : configOk c = true) (a : Int) (h0 : 0 ≤ a)
    (h1 : a ≤ min c.piOver2 (c.pi - 1)) :
    mulfloor a (lutInterval c) = (tablePos c a).1 * 4294967296 + (tablePos c a).2 ∧
      -2147483648 ≤ (tablePos c a).2 ∧ (tablePos c a).2 ≤ 2147483648 ∧
      0 ≤ (tablePos c a).1 ∧ (tablePos c a).1 ≤ c.lutN - 1 ∧
      0 ≤ (tablePos c a).1 + fSign (tablePos c a).2 ∧
      (tablePos c a).1 + fSign (tablePos c a).2 ≤ c.lutN - 1 := by
  obtain ⟨hr, ⟨p1, p2, p3, p4, p5, p6, p7⟩, q3, q4⟩ := (configOk_iff c).1 h
  obtain ⟨-, q1, hli⟩ := config_small c (largePi_isRaw hr) p1 p2 p3 p6 p7
  have q2 : 0 ≤ lutInterval c := by rw [hli]; exact Int.ediv_nonneg (by omega) (by omega)
  have hp0 : 0 ≤ mulfloor a (lutInterval c) :=
    Int.ediv_nonneg (mul_nonneg h0 q2) (by norm_num)
  have hp1 : mulfloor a (lutInterval c) ≤ (c.lutN - 1) * 4294967296 :=
    le_trans (Int.ediv_le_ediv (by norm_num) (mul_le_mul_of_nonneg_right h1 q2)) q3
  simp only [tablePos]
  generalize mulfloor a (lutInterval c) = p at *
  rcases eq_or_lt_of_le hp1 with rfl | hlt
  · have hr : fRound ((c.lutN - 1) * 4294967296) = (c.lutN - 1) * 4294967296 := by
      have hl : lowHalf ((c.lutN - 1) * 4294967296) = 0 := by simp only [lowHalf]; omega
      simp only [fRound, hl]
      rw [if_pos (by norm_num)]
      simp only [fFloor, highHalf]
      omega
    rw [hr, sub_self]
    simp only [highHalf, fSign]
    norm_num
    omega
  · have hroom : IsRaw (fFloor p + rawOne) := by
      simp only [IsRaw, rawMin, rawMax, fFloor, highHalf, rawOne] at *
      omega
    obtain ⟨e1, e2, e3⟩ := fRound_near p hroom
    generalize fRound p = q at *
    simp only [fSign]
    split_ifs <;> omega

/-- A `RomRead` inside the table answers the entry (R33). -/
theorem romRead_entry (n : Int) (t : Nat → Word) (i : Int) (h0 : 0 ≤ i) (h1 : i ≤ n - 1) :
    romRead n t i = .value (t i.toNat).raw := if_pos ⟨h0, by omega⟩

/-! ## Sine and cosine -/

/-- The nearest index of R124, mirrored where the angle is flipped horizontally. -/
def sinIndex (c : Config) (a : Int) : Int :=
  let r := (tablePos c (clampSin c a).c).1
  if (clampSin c a).fh then c.lutN - 1 - r else r

/-- The neighbour index of R124. -/
def sinNeighbour (c : Config) (a : Int) : Int :=
  let t := tablePos c (clampSin c a).c
  if (clampSin c a).fh then c.lutN - 1 - t.1 - fSign t.2 else t.1 + fSign t.2

/-- SIN answers on every angle (R123): the interpolation of R124 between two entries of the table. -/
theorem fSin_value (c : Config) (h : configOk c = true) (a : Int) :
    (0 ≤ sinIndex c a ∧ sinIndex c a ≤ c.lutN - 1) ∧
    (0 ≤ sinNeighbour c a ∧ sinNeighbour c a ≤ c.lutN - 1) ∧
    fSin c a = .value
      (let n1 := (c.sinLut (sinIndex c a).toNat).raw
       let n2 := (c.sinLut (sinNeighbour c a).toNat).raw
       let d := interpolate (tablePos c (clampSin c a).c).2 n1 n2
       let v := if (clampSin c a).fh then n1 - d else n1 + d
       if (clampSin c a).fv then -v else v) := by
  obtain ⟨b1, b2, -⟩ := clampSin_bounds c h a
  obtain ⟨-, -, -, t1, t2, t3, t4⟩ := tablePos_spec c h _ b1 b2
  have hi : (0 ≤ sinIndex c a ∧ sinIndex c a ≤ c.lutN - 1) ∧
      (0 ≤ sinNeighbour c a ∧ sinNeighbour c a ≤ c.lutN - 1) := by
    simp only [sinIndex, sinNeighbour]
    split_ifs <;> omega
  refine ⟨hi.1, hi.2, ?_⟩
  have e1 := romRead_entry c.lutN c.sinLut (sinIndex c a) hi.1.1 hi.1.2
  have e2 := romRead_entry c.lutN c.sinLut (sinNeighbour c a) hi.2.1 hi.2.2
  simp only [fSin]
  simp only [sinIndex, sinNeighbour] at e1 e2 ⊢
  rw [e1]
  simp only [Res.andThen]
  rw [e2]

/-- Linear interpolation by at most half a step stays between the two entries (R124, R131 (a)). -/
theorem interpolate_bounds (e n1 n2 : Int) (h1 : -2147483648 ≤ e) (h2 : e ≤ 2147483648) :
    (0 ≤ e → 0 ≤ interpolate e n1 n2 ∧ interpolate e n1 n2 ≤ |n1 - n2|) ∧
      (e ≤ 0 → -|n1 - n2| ≤ interpolate e n1 n2 ∧ interpolate e n1 n2 ≤ 0) := by
  have hd : 0 ≤ |n1 - n2| := abs_nonneg _
  simp only [interpolate, mulfloor]
  generalize |n1 - n2| = d at *
  constructor
  · intro h
    have : 0 ≤ e * d := mul_nonneg h hd
    have : e * d ≤ 2147483648 * d := mul_le_mul_of_nonneg_right h2 hd
    omega
  · intro h
    have : e * d ≤ 0 := mul_nonpos_of_nonpos_of_nonneg h hd
    have : -2147483648 * d ≤ e * d := mul_le_mul_of_nonneg_right h1 hd
    omega

/-- R131 (a): a sine lies in `[−ONE, ONE]`, for any table with the properties P3 and P4 of R17. -/
theorem fSin_range (c : Config) (h : configOk c = true) (ht : TableProperties c) (a : Int) :
    ∃ v, fSin c a = .value v ∧ -rawOne ≤ v ∧ v ≤ rawOne := by
  obtain ⟨i1, i2, hv⟩ := fSin_value c h a
  refine ⟨_, hv, ?_⟩
  obtain ⟨b1, b2, -⟩ := clampSin_bounds c h a
  obtain ⟨-, t1, t2, t3, t4, t5, t6⟩ := tablePos_spec c h _ b1 b2
  have hmono := ht.sinMono
  have r1 := ht.sinRange (sinIndex c a).toNat (by omega)
  have r2 := ht.sinRange (sinNeighbour c a).toNat (by omega)
  obtain ⟨d1, d2⟩ := interpolate_bounds (tablePos c (clampSin c a).c).2 ((c.sinLut (sinIndex c a).toNat).raw)
    ((c.sinLut (sinNeighbour c a).toNat).raw) t1 t2
  -- the neighbour toward the residual is above or below as the table rises
  have hdir : ∀ i j : Int, 0 ≤ i → j = i + 1 → j ≤ c.lutN - 1 →
      (c.sinLut i.toNat).raw ≤ (c.sinLut j.toNat).raw := by
    rintro i j h0 rfl h2
    have := hmono i.toNat (by omega)
    rwa [show (i + 1).toNat = i.toNat + 1 by omega]
  have hup : sinNeighbour c a = sinIndex c a + 1 →
      (c.sinLut (sinIndex c a).toNat).raw ≤ (c.sinLut (sinNeighbour c a).toNat).raw :=
    fun e => hdir _ _ i1.1 e i2.2
  have hdown : sinIndex c a = sinNeighbour c a + 1 →
      (c.sinLut (sinNeighbour c a).toNat).raw ≤ (c.sinLut (sinIndex c a).toNat).raw :=
    fun e => hdir _ _ i2.1 e i1.2
  have hs : ∀ e : Int, (0 < e → fSign e = 1) ∧ (e < 0 → fSign e = -1) ∧ (e = 0 → fSign e = 0) := by
    intro e; simp only [fSign]; refine ⟨?_, ?_, ?_⟩ <;> intro h <;> split_ifs <;> omega
  obtain ⟨s1, s2, s3⟩ := hs (tablePos c (clampSin c a).c).2
  simp only [sinIndex, sinNeighbour] at hup hdown r1 r2 d1 d2 ⊢
  generalize (tablePos c (clampSin c a).c).2 = e at *
  generalize (tablePos c (clampSin c a).c).1 = r at *
  simp only [rawOne] at *
  rcases lt_trichotomy e 0 with he | he | he
  · have hse := s2 he
    simp only [hse] at hup hdown r1 r2 d1 d2 ⊢
    have hd := d2 (by omega)
    cases hfh : (clampSin c a).fh <;> simp only [hfh, if_true, if_false, Bool.false_eq_true] at *
    · have := hdown (by omega)
      rw [abs_of_nonneg (by omega)] at hd
      split_ifs <;> omega
    · have := hup (by omega)
      rw [abs_of_nonpos (by omega)] at hd
      split_ifs <;> omega
  · have hse := s3 he
    subst he
    have h1 := d1 (by omega)
    have h2 := d2 (by omega)
    split_ifs at * <;> omega
  · have hse := s1 he
    simp only [hse] at hup hdown r1 r2 d1 d2 ⊢
    have hd := d1 (by omega)
    cases hfh : (clampSin c a).fh <;> simp only [hfh, if_true, if_false, Bool.false_eq_true] at *
    · have := hup (by omega)
      rw [abs_of_nonpos (by omega)] at hd
      split_ifs <;> omega
    · have := hdown (by omega)
      rw [abs_of_nonneg (by omega)] at hd
      split_ifs <;> omega

/-- The index FSIN reads (R125): the angle's upper bits, clamped, mirrored where the angle is flipped. -/
def fsinIndex (c : Config) (a : Int) : Int :=
  let j := min ((clampSin c a).c / 32768) (c.lutN - 1)
  if (clampSin c a).fh then c.lutN - 1 - j else j

/-- FSIN answers on every angle: a table entry or its negation (R125). -/
theorem fFsin_value (c : Config) (h : configOk c = true) (a : Int) :
    (0 ≤ fsinIndex c a ∧ fsinIndex c a ≤ c.lutN - 1) ∧
    fFsin c a = .value (if (clampSin c a).fv then -(c.sinLut (fsinIndex c a).toNat).raw
      else (c.sinLut (fsinIndex c a).toNat).raw) := by
  obtain ⟨b1, b2, -⟩ := clampSin_bounds c h a
  obtain ⟨-, ⟨p1, p2, p3, p4, p5, p6, p7⟩, -⟩ := (configOk_iff c).1 h
  have hi : 0 ≤ fsinIndex c a ∧ fsinIndex c a ≤ c.lutN - 1 := by
    simp only [fsinIndex]
    split_ifs <;> omega
  refine ⟨hi, ?_⟩
  have e := romRead_entry c.lutN c.sinLut (fsinIndex c a) hi.1 hi.2
  have hj : (if (clampSin c a).c / 32768 ≥ c.lutN then c.lutN - 1 else (clampSin c a).c / 32768) =
      min ((clampSin c a).c / 32768) (c.lutN - 1) := by
    rw [min_def]; split_ifs <;> omega
  simp only [fFsin, hj]
  simp only [fsinIndex] at e ⊢
  rw [e]
  rfl

/-- R131 (a) for the fast form. -/
theorem fFsin_range (c : Config) (h : configOk c = true) (ht : TableProperties c) (a : Int) :
    ∃ v, fFsin c a = .value v ∧ -rawOne ≤ v ∧ v ≤ rawOne := by
  obtain ⟨i1, hv⟩ := fFsin_value c h a
  have r := ht.sinRange (fsinIndex c a).toNat (by omega)
  refine ⟨_, hv, ?_⟩
  simp only [rawOne] at *
  split_ifs <;> omega

/-! ## Tangent -/

/-- The angle TAN looks up lies in `[0, PI_OVER_2]` and below `PI` (R129). -/
theorem tanReduce_bounds (c : Config) (h : configOk c = true) (a : Int) :
    0 ≤ (tanReduce c a).1 ∧ (tanReduce c a).1 ≤ min c.piOver2 (c.pi - 1) := by
  obtain ⟨-, ⟨p1, p2, p3, p4, p5, p6, p7⟩, -⟩ := (configOk_iff c).1 h
  obtain ⟨t1, t2, -, -⟩ := trem_bounds a c.pi (by omega)
  simp only [tanReduce]
  split_ifs <;> dsimp only <;> omega

/-- TAN answers on every angle (R123): the interpolation of R129 between two entries of the table. -/
theorem fTan_value (c : Config) (h : configOk c = true) (a : Int) :
    (0 ≤ (tablePos c (tanReduce c a).1).1 ∧ (tablePos c (tanReduce c a).1).1 ≤ c.lutN - 1) ∧
    (0 ≤ (tablePos c (tanReduce c a).1).1 + fSign (tablePos c (tanReduce c a).1).2 ∧
      (tablePos c (tanReduce c a).1).1 + fSign (tablePos c (tanReduce c a).1).2 ≤ c.lutN - 1) ∧
    fTan c a = .value
      (let t := tablePos c (tanReduce c a).1
       let n1 := (c.tanLut t.1.toNat).raw
       let n2 := (c.tanLut (t.1 + fSign t.2).toNat).raw
       let v := wrap64 (n1 + interpolate t.2 n1 n2)
       if (tanReduce c a).2 then wrap64 (-v) else v) := by
  obtain ⟨b1, b2⟩ := tanReduce_bounds c h a
  obtain ⟨-, -, -, t1, t2, t3, t4⟩ := tablePos_spec c h _ b1 b2
  refine ⟨⟨t1, t2⟩, ⟨t3, t4⟩, ?_⟩
  simp only [fTan, romRead_entry _ _ _ t1 t2, romRead_entry _ _ _ t3 t4, Res.andThen]

/-! ## What the inequalities of R7 alone leave out

The two ways of reading outside a table where the inequalities of R7 hold but its last condition does not. -/

/-- The passes of R121 leave an angle below every modulus as it is. -/
theorem reducePasses_small (L : Int) (n i : Nat) (a : Int) (h : ∀ j, j < i + n → |a| < L >>> j) :
    reducePasses L n i a = a := by
  induction n generalizing i with
  | zero => rfl
  | succ n ih =>
    have h0 := h i (by omega)
    have : trem a (L >>> i) = a := by
      simp only [trem]
      have := Int.tmod_def a (L >>> i)
      rw [abs_lt] at h0
      rcases le_or_gt 0 a with ha | ha
      · rw [Int.tmod_eq_of_lt ha h0.2]
      · have h2 := Int.tmod_eq_of_lt (a := -a) (b := L >>> i) (by omega) (by omega)
        rw [Int.neg_tmod] at h2; omega
    rw [reducePasses, this]
    exact ih (i+1) (fun j hj => h j (by omega))

/-- The moduli of R121 fall from pass to pass. -/
theorem shiftRight_antitone (L : Int) (h : 0 ≤ L) (i j : Nat) (hij : i ≤ j) : L >>> j ≤ L >>> i := by
  rw [Int.shiftRight_eq_div_pow, Int.shiftRight_eq_div_pow]
  have hp : (0:Int) < 2 ^ i := by positivity
  have h1 : ((2 ^ i : Nat) : Int) ≤ ((2 ^ j : Nat) : Int) := by
    exact_mod_cast Nat.pow_le_pow_right (by norm_num) hij
  have hj : (0:Int) < ((2 ^ j : Nat) : Int) := by positivity
  have hi : (0:Int) < ((2 ^ i : Nat) : Int) := by positivity
  rw [Int.le_ediv_iff_mul_le hi]
  exact le_trans (mul_le_mul_of_nonneg_left h1 (Int.ediv_nonneg h hj.le)) (Int.ediv_mul_le _ hj.ne')

/-- An angle scaled past the last entry has no neighbour in the table, or no entry (R122). -/
theorem tablePos_past (c : Config) (h1 : IsRaw c.largePi) (p1 : 0 < c.piOver2) (p2 : c.piOver2 ≤ c.pi)
    (p3 : c.pi < c.piTimes2) (p6 : 2 ≤ c.lutN) (p7 : c.piTimes2 ≤ c.largePi >>> (28 : Nat)) (a : Int)
    (ha : a ≤ c.piOver2)
    (hp : (c.lutN - 1) * 4294967296 < mulfloor a (lutInterval c)) :
    c.lutN ≤ (tablePos c a).1 + fSign (tablePos c a).2 ∨ c.lutN ≤ (tablePos c a).1 := by
  obtain ⟨q0, q1, hli⟩ := config_small c h1 p1 p2 p3 p6 p7
  have q2 : 0 ≤ lutInterval c := by rw [hli]; exact Int.ediv_nonneg (by omega) (by omega)
  have hu : mulfloor a (lutInterval c) ≤ (c.lutN - 1) * 4294967296 + 4 := by
    have e1 : a * lutInterval c ≤ c.piOver2 * lutInterval c := mul_le_mul_of_nonneg_right ha q2
    have e2 : 2 * c.piOver2 * lutInterval c ≤ 2 * ((c.lutN - 1) * 4294967296 * 4294967296) + c.piOver2 := by
      rw [hli]; exact Int.mul_ediv_self_le (by omega)
    rw [mulfloor]
    generalize a * lutInterval c = m at *
    rw [mul_assoc] at e2
    generalize c.piOver2 * lutInterval c = m2 at *
    omega
  simp only [tablePos]
  generalize mulfloor a (lutInterval c) = p at *
  have hroom : IsRaw (fFloor p + rawOne) := by
    simp only [IsRaw, rawMin, rawMax, fFloor, highHalf, rawOne, Config.lutN] at *
    omega
  obtain ⟨e1, e2, e3⟩ := fRound_near p hroom
  generalize fRound p = q at *
  simp only [fSign]
  split_ifs <;> omega

/-- Where the last modulus is two ticks or more above `PI_TIMES_2`, one angle reduces to −1, whose neighbour is
the index −1: SIN reads outside its table (R121, R124). -/
theorem fSin_noEntry (c : Config) (h1 : IsRaw c.largePi) (p1 : 0 < c.piOver2) (p2 : c.piOver2 ≤ c.pi)
    (p3 : c.pi < c.piTimes2) (p6 : 2 ≤ c.lutN) (p7 : c.piTimes2 + 2 ≤ c.largePi >>> (28 : Nat)) :
    fSin c (-1 - c.piTimes2) = .noEntry := by
  obtain ⟨q0, q1, hli⟩ := config_small c h1 p1 p2 p3 p6 (by omega)
  have hL : 0 ≤ c.largePi := by
    by_contra h
    rw [Int.shiftRight_eq_div_pow] at p7; norm_num at p7; omega
  have hr : reducePasses c.largePi 29 0 (-1 - c.piTimes2) = -1 - c.piTimes2 := by
    apply reducePasses_small
    intro j hj
    have := shiftRight_antitone c.largePi hL j 28 (by omega)
    rw [abs_lt]; omega
  have hN : c.lutN = c.piOver2 / 32768 := rfl
  have hlo : 0 < lutInterval c ∧ lutInterval c ≤ 4294967296 * 1073741824 := by
    rw [hli]; constructor
    · have : 1 ≤ (2 * ((c.lutN - 1) * 4294967296 * 4294967296) + c.piOver2) / (2 * c.piOver2) := by
        rw [Int.le_ediv_iff_mul_le (by omega)]; omega
      omega
    · rw [← Int.lt_add_one_iff, Int.ediv_lt_iff_lt_mul (by omega)]; omega
  have hc : clampSin c (-1 - c.piTimes2) = ⟨-1, false, false⟩ := by
    simp only [clampSin, hr]
    rw [if_pos (by omega : -1 - c.piTimes2 < 0)]
    have : subtractWhile 2 c.pi (-1 - c.piTimes2 + c.piTimes2) = -1 := by
      rw [show -1 - c.piTimes2 + c.piTimes2 = -1 by omega, subtractWhile, if_neg (by omega)]
    rw [this, if_neg (by omega)]
    simp only [Reduced.mk.injEq, true_and, decide_eq_false_iff_not]; omega
  have ht : tablePos c (-1) = (0, mulfloor (-1) (lutInterval c)) ∧ mulfloor (-1) (lutInterval c) < 0 := by
    have h0 : -1073741824 ≤ mulfloor (-1) (lutInterval c) ∧ mulfloor (-1) (lutInterval c) < 0 := by
      rw [mulfloor]; omega
    refine ⟨?_, h0.2⟩
    simp only [tablePos]
    generalize mulfloor (-1) (lutInterval c) = p at *
    have hroom : IsRaw (fFloor p + rawOne) := by
      simp only [IsRaw, rawMin, rawMax, fFloor, highHalf, rawOne] at *
      omega
    obtain ⟨e1, e2, e3⟩ := fRound_near p hroom
    have : fRound p = 0 := by omega
    rw [this]; simp [highHalf]
  have hs : fSign (mulfloor (-1) (lutInterval c)) = -1 := by
    have := ht.2
    simp only [fSign]; split_ifs; omega
  simp only [fSin, hc, ht.1, hs]
  simp only [romRead]; rw [if_pos (by simp; omega), Res.andThen, if_neg (by simp)]; rfl

/-- Where the largest angle TAN looks up is scaled past the last entry, TAN reads outside its table (R129). -/
theorem fTan_noEntry (c : Config) (h1 : IsRaw c.largePi) (p1 : 0 < c.piOver2) (p2 : c.piOver2 ≤ c.pi)
    (p3 : c.pi < c.piTimes2) (p6 : 2 ≤ c.lutN) (p7 : c.piTimes2 ≤ c.largePi >>> (28 : Nat))
    (hp : (c.lutN - 1) * 4294967296 < mulfloor (min c.piOver2 (c.pi - 1)) (lutInterval c)) :
    fTan c (min c.piOver2 (c.pi - 1)) = .noEntry := by
  have hN : c.lutN = c.piOver2 / 32768 := rfl
  have h := tablePos_past c h1 p1 p2 p3 p6 p7 (min c.piOver2 (c.pi - 1)) (by omega) hp
  have ht : tanReduce c (min c.piOver2 (c.pi - 1)) = (min c.piOver2 (c.pi - 1), false) := by
    have : trem (min c.piOver2 (c.pi - 1)) c.pi = min c.piOver2 (c.pi - 1) :=
      Int.tmod_eq_of_lt (by omega) (by omega)
    have h0 : ¬ min c.piOver2 (c.pi - 1) < 0 := by omega
    have h2 : ¬ min c.piOver2 (c.pi - 1) > c.piOver2 := by omega
    simp only [tanReduce, this, h0, if_false, h2, decide_false]
  simp only [fTan, ht]
  simp only [romRead]
  by_cases h0 : 0 ≤ (tablePos c (min c.piOver2 (c.pi - 1))).1 ∧
      (tablePos c (min c.piOver2 (c.pi - 1))).1 < c.lutN
  · rw [if_pos h0, Res.andThen, if_neg (by omega)]; rfl
  · rw [if_neg h0]; rfl

end Sys2Proof.Machine
end

