-- ==== Sys2Proof/Laws/Total.lean ====
section
/-!
SUPPORT. Under no accepted configuration does a command ask a table for an entry it does not have (R123), so
every command and every step answers a next state (R33, R176).
-/

namespace Sys2Proof.Machine

/-- A composition lacks an entry only where one of its parts does. -/
theorem Res.andThen_ne_noEntry {r : Res} {f : Int → Res} (hr : r ≠ .noEntry) (hf : ∀ v, f v ≠ .noEntry) :
    r.andThen f ≠ .noEntry := by
  cases r <;> simp_all [Res.andThen]

/-- Division asks for no entry. -/
theorem fDiv_ne_noEntry (a b : Int) : fDiv a b ≠ .noEntry := by
  simp only [fDiv]; split_ifs <;> simp

/-- The series of POW2 asks for no entry. -/
theorem pow2Series_ne_noEntry (ln2 f : Int) (fuel : Nat) (term result i : Int) :
    pow2Series ln2 f fuel term result i ≠ .noEntry := by
  induction fuel generalizing term result i with
  | zero => simp [pow2Series]
  | succ fuel ih =>
    simp only [pow2Series]
    split_ifs
    · simp
    · refine Res.andThen_ne_noEntry ?_ fun n => Res.andThen_ne_noEntry (fDiv_ne_noEntry _ _) fun v => ih _ _ _
      simp only [fItof]; split_ifs <;> simp

/-- LOG2 asks for no entry. -/
theorem fLog2_ne_noEntry (a : Int) : fLog2 a ≠ .noEntry := by
  simp only [fLog2]; split_ifs <;> simp

/-- POW2 asks for no entry. -/
theorem fPow2_ne_noEntry (c : Config) (a : Int) : fPow2 c a ≠ .noEntry := by
  simp only [fPow2]
  split_ifs <;> first
    | exact fDiv_ne_noEntry _ _
    | exact Res.andThen_ne_noEntry (pow2Series_ne_noEntry _ _ _ _ _ _) fun v => fDiv_ne_noEntry _ _
    | exact Res.andThen_ne_noEntry (pow2Series_ne_noEntry _ _ _ _ _ _) fun v => by simp
    | simp

/-- The series of ATAN asks for no entry. -/
theorem atanSeries_ne_noEntry (k : AtanStep) (fuel : Nat) (term result dividend divisor : Int) :
    atanSeries k fuel term result dividend divisor ≠ .noEntry := by
  induction fuel generalizing term result dividend divisor with
  | zero => simp [atanSeries]
  | succ fuel ih =>
    refine Res.andThen_ne_noEntry (fDiv_ne_noEntry _ _) fun q => ?_
    dsimp only
    split_ifs
    · simp
    · exact ih _ _ _ _

/-- ATAN asks for no entry. -/
theorem fAtan_ne_noEntry (c : Config) (a : Int) : fAtan c a ≠ .noEntry := by
  simp only [fAtan]
  split
  · simp
  · refine Res.andThen_ne_noEntry ?_ fun z => Res.andThen_ne_noEntry
      (Res.andThen_ne_noEntry (atanSeries_ne_noEntry _ _ _ _ _ _) fun v => fDiv_ne_noEntry _ _) fun r => by simp
    split_ifs
    all_goals first | exact fDiv_ne_noEntry _ _ | simp

/-- Under every accepted configuration the function of a well-formed command never ends without an answer
(R33, R123). -/
theorem answer_ne_noEntry (c : Configuration) (i : Instr) (s : State) (hw : i.wellFormed = true) :
    answer c s i ≠ .noEntry := by
  have hok := c.ok
  cases i <;> simp only [answer, ne_eq, reduceCtorEq, not_false_eq_true]
  case div => exact fDiv_ne_noEntry _ _
  case mod => simp only [fMod]; split_ifs <;> simp
  case fadd => simp only [fFadd]; split_ifs <;> simp
  case fsub => simp only [fFsub]; split_ifs <;> simp
  case fmul => simp only [fFmul]; split_ifs <;> simp
  case fmod => simp only [fFmod]; split_ifs <;> simp
  case itof => simp only [fItof]; split_ifs <;> simp
  case ldc rd k =>
    obtain ⟨v, hv⟩ := constant_isSome c.cfg (by simpa [Instr.wellFormed, constantIndexOk] using hw)
    simp [hv]
  case sqrt => simp only [fSqrt]; split_ifs <;> simp
  case log2 => exact fLog2_ne_noEntry _
  case ln => exact Res.andThen_ne_noEntry (fLog2_ne_noEntry _) fun v => by simp
  case pow2 => exact fPow2_ne_noEntry _ _
  case pow =>
    simp only [fPow]
    split_ifs <;> first
      | exact Res.andThen_ne_noEntry (fLog2_ne_noEntry _) fun v => fPow2_ne_noEntry _ _
      | simp
  case sin => rw [(fSin_value _ hok _).2.2]; simp
  case cos => rw [fCos, (fSin_value _ hok _).2.2]; simp
  case tan => rw [(fTan_value _ hok _).2.2]; simp
  case fsin => rw [(fFsin_value _ hok _).2]; simp
  case fcos => rw [fFcos, (fFsin_value _ hok _).2]; simp
  case acos =>
    simp only [fAcos]
    split_ifs
    · simp
    · simp
    all_goals
      refine Res.andThen_ne_noEntry ?_ fun t => Res.andThen_ne_noEntry (fDiv_ne_noEntry _ _) fun q =>
        Res.andThen_ne_noEntry (fAtan_ne_noEntry _ _) fun r => by simp
      simp only [fSqrt]; split_ifs <;> simp
  case atan => exact fAtan_ne_noEntry _ _
  case atan2 =>
    simp only [fAtan2]
    split
    · simp
    · refine Res.andThen_ne_noEntry (fDiv_ne_noEntry _ _) fun z => ?_
      split_ifs <;> first
        | exact Res.andThen_ne_noEntry (fDiv_ne_noEntry _ _) fun q => by simp
        | simp

end Sys2Proof.Machine
end

