-- ==== Sys2Proof/Tests/Slice0.lean ====
section
/-!
SUPPORT. Tests of the model against words and values written in the spec (spec/95_test_vectors.md, cited in
each section), and for each statement with hypotheses a concrete state and operands that meet them.
-/

namespace Sys2Proof.Tests

set_option Elab.async false

open Sys2Proof.Machine

/-! ## Well-formedness (R49, R53 (d)) -/

theorem test_wf_ldc_eleven_refused : (Instr.ldc 1#4 11#4).wellFormed = false := by decide
theorem test_wf_ldc_fifteen_refused : (Instr.ldc 1#4 15#4).wellFormed = false := by decide
theorem test_wf_ldc_ten_accepted : (Instr.ldc 1#4 10#4).wellFormed = true := by decide
theorem test_wf_config_refused : configOk { defaults with pi := defaults.piTimes2 } = false := by
  decide +kernel
theorem test_wf_config_zero_refused : configOk { defaults with piOver2 := 0 } = false := by decide +kernel
theorem test_wf_config_index_refused : configOk { defaults with largePi := 0x6487ED5130B4611A } = false := by
  decide +kernel

/-! ## One word of every command, from section 8.1 -/

theorem test_decode_add : decode 0x01312000#32 = .command (.add 3#4 1#4 2#4) := by decide
theorem test_decode_sub : decode 0x02312000#32 = .command (.sub 3#4 1#4 2#4) := by decide
theorem test_decode_mul : decode 0x03312000#32 = .command (.mul 3#4 1#4 2#4) := by decide
theorem test_decode_div : decode 0x04312000#32 = .command (.div 3#4 1#4 2#4) := by decide
theorem test_decode_mod : decode 0x05312000#32 = .command (.mod 3#4 1#4 2#4) := by decide
theorem test_decode_neg : decode 0x06310000#32 = .command (.neg 3#4 1#4) := by decide
theorem test_decode_fadd : decode 0x09312000#32 = .command (.fadd 3#4 1#4 2#4) := by decide
theorem test_decode_fsub : decode 0x0A312000#32 = .command (.fsub 3#4 1#4 2#4) := by decide
theorem test_decode_fmul : decode 0x0B312000#32 = .command (.fmul 3#4 1#4 2#4) := by decide
theorem test_decode_fmod : decode 0x0D312000#32 = .command (.fmod 3#4 1#4 2#4) := by decide
theorem test_decode_ceq : decode 0x10312000#32 = .command (.ceq 3#4 1#4 2#4) := by decide
theorem test_decode_cne : decode 0x11312000#32 = .command (.cne 3#4 1#4 2#4) := by decide
theorem test_decode_clt : decode 0x12312000#32 = .command (.clt 3#4 1#4 2#4) := by decide
theorem test_decode_cle : decode 0x13312000#32 = .command (.cle 3#4 1#4 2#4) := by decide
theorem test_decode_cgt : decode 0x14312000#32 = .command (.cgt 3#4 1#4 2#4) := by decide
theorem test_decode_cge : decode 0x15312000#32 = .command (.cge 3#4 1#4 2#4) := by decide
theorem test_decode_itof : decode 0x18310000#32 = .command (.itof 3#4 1#4) := by decide
theorem test_decode_ftoi : decode 0x19310000#32 = .command (.ftoi 3#4 1#4) := by decide
theorem test_decode_ldc : decode 0x1C340000#32 = .command (.ldc 3#4 4#4) := by decide
theorem test_decode_sign : decode 0x20310000#32 = .command (.sign 3#4 1#4) := by decide
theorem test_decode_abs : decode 0x21310000#32 = .command (.abs 3#4 1#4) := by decide
theorem test_decode_floor : decode 0x22310000#32 = .command (.floor 3#4 1#4) := by decide
theorem test_decode_ceil : decode 0x23310000#32 = .command (.ceil 3#4 1#4) := by decide
theorem test_decode_round : decode 0x24310000#32 = .command (.round 3#4 1#4) := by decide
theorem test_decode_sqrt : decode 0x28310000#32 = .command (.sqrt 3#4 1#4) := by decide
theorem test_decode_log2 : decode 0x30310000#32 = .command (.log2 3#4 1#4) := by decide
theorem test_decode_ln : decode 0x31310000#32 = .command (.ln 3#4 1#4) := by decide
theorem test_decode_pow2 : decode 0x32310000#32 = .command (.pow2 3#4 1#4) := by decide
theorem test_decode_pow : decode 0x33312000#32 = .command (.pow 3#4 1#4 2#4) := by decide
theorem test_decode_sin : decode 0x38310000#32 = .command (.sin 3#4 1#4) := by decide
theorem test_decode_cos : decode 0x39310000#32 = .command (.cos 3#4 1#4) := by decide
theorem test_decode_tan : decode 0x3A310000#32 = .command (.tan 3#4 1#4) := by decide
theorem test_decode_fsin : decode 0x3C310000#32 = .command (.fsin 3#4 1#4) := by decide
theorem test_decode_fcos : decode 0x3D310000#32 = .command (.fcos 3#4 1#4) := by decide
theorem test_decode_acos : decode 0x40310000#32 = .command (.acos 3#4 1#4) := by decide
theorem test_decode_atan : decode 0x41310000#32 = .command (.atan 3#4 1#4) := by decide
theorem test_decode_atan2 : decode 0x42312000#32 = .command (.atan2 3#4 1#4 2#4) := by decide

/-! ## Illegal words, from section 8.2 (R53) -/

theorem test_illegal_opcode : decode 0x00000000#32 = .illegal .unassignedOpcode ∧
    decode 0xFFFFFFFF#32 = .illegal .unassignedOpcode ∧ decode 0x07000000#32 = .illegal .unassignedOpcode ∧
    decode 0x0C312000#32 = .illegal .unassignedOpcode ∧ decode 0x3B310000#32 = .illegal .unassignedOpcode ∧
    decode 0x43312000#32 = .illegal .unassignedOpcode := by decide
theorem test_illegal_zero_field : decode 0x01312001#32 = .illegal .zeroFieldSet ∧
    decode 0x01312800#32 = .illegal .zeroFieldSet := by decide
theorem test_illegal_rb_field : decode 0x28312000#32 = .illegal .rbFieldSet ∧
    decode 0x06311000#32 = .illegal .rbFieldSet ∧ decode 0x1C141000#32 = .illegal .rbFieldSet := by decide
theorem test_illegal_constant : decode 0x1C1B0000#32 = .illegal .reservedConstant ∧
    decode 0x1C1F0000#32 = .illegal .reservedConstant := by decide
theorem test_legal_corners : decode 0x1C1A0000#32 = .command (.ldc 1#4 10#4) ∧
    decode 0x01FFF000#32 = .command (.add 15#4 15#4 15#4) ∧
    decode 0x28000000#32 = .command (.sqrt 0#4 0#4) := by decide
theorem test_table_word : decodeTableWord 32 0x28310000 = some (.sqrt 3#4 1#4) ∧
    decodeTableWord 32 0x28310001 = none ∧ decodeTableWord 40 0x128310000 = none := by decide

/-! ## Commands, from sections 1 to 7: `X1` and `X2` hold the operands, `X3` is the destination -/

/-- What a command leaves in `X3` where it completes. -/
def written (i : Instr) (a b : Word) : Option Word :=
  match exec i (exampleState a b) with
  | .next t => if t.err = .none then some (t.readX 3#4) else none
  | .fault _ => none
  | .refused _ => none

/-- The error a command latches, with the command word in FCMD; `X3` must be as before. -/
def raised (i : Instr) (a b : Word) : Option (Err × CmdWord) :=
  match exec i (exampleState a b) with
  | .next t => if t.err ≠ .none ∧ t.readX 3#4 = 0#64 then some (t.err, t.fcmd) else none
  | .fault _ => none
  | .refused _ => none

theorem test_add_0 :
    written (.add 3#4 1#4 2#4) 0x7000000000000000#64 0x1000000000000000#64 = some 0x7FFFFFFFFFFFFFFF#64 := by decide +kernel
theorem test_add_1 :
    written (.add 3#4 1#4 2#4) 0x8000000000000000#64 0x7FFFFFFFFFFFFFFF#64 = some 0xFFFFFFFFFFFFFFFF#64 := by decide +kernel
theorem test_sub_0 :
    written (.sub 3#4 1#4 2#4) 0#64 0x8000000000000000#64 = some 0x7FFFFFFFFFFFFFFF#64 := by decide +kernel
theorem test_sub_1 :
    written (.sub 3#4 1#4 2#4) 0x0000000180000000#64 0x0000000240000000#64 = some 0xFFFFFFFF40000000#64 := by decide +kernel
theorem test_mul_0 :
    written (.mul 3#4 1#4 2#4) 0xFFFFFFFEFFFFFFFF#64 0x8000000080000001#64 = some 0x7FFFFFFFFFFFFFFF#64 := by decide +kernel
theorem test_mul_1 :
    written (.mul 3#4 1#4 2#4) 0xFFFFFFFFFFFFFFFF#64 1#64 = some 0xFFFFFFFFFFFFFFFF#64 := by decide +kernel
theorem test_div_0 :
    written (.div 3#4 1#4 2#4) 0xFFFFFFFFFFFFFFFD#64 0x0000000200000000#64 = some 0xFFFFFFFFFFFFFFFE#64 := by decide +kernel
theorem test_div_raises :
    raised (.div 3#4 1#4 2#4) 0x0000000500000000#64 0#64 = some (.latched .divideByZero, 0x04312000#32) := by decide +kernel
theorem test_mod_0 :
    written (.mod 3#4 1#4 2#4) 0xFFFFFFFA80000000#64 0x0000000200000000#64 = some 0xFFFFFFFE80000000#64 := by decide +kernel
theorem test_mod_1 :
    written (.mod 3#4 1#4 2#4) 0x8000000000000000#64 0xFFFFFFFFFFFFFFFF#64 = some 0#64 := by decide +kernel
theorem test_neg_0 :
    written (.neg 3#4 1#4) 0x8000000000000000#64 0#64 = some 0x7FFFFFFFFFFFFFFF#64 := by decide +kernel
theorem test_neg_1 :
    written (.neg 3#4 1#4) 0x0000000100000000#64 0#64 = some 0xFFFFFFFF00000000#64 := by decide +kernel
theorem test_fadd_0 :
    written (.fadd 3#4 1#4 2#4) 0xFFFFFFFE80000000#64 0x0000000080000000#64 = some 0xFFFFFFFF00000000#64 := by decide +kernel
theorem test_fsub_0 :
    written (.fsub 3#4 1#4 2#4) 0x0000000180000000#64 0x0000000240000000#64 = some 0xFFFFFFFF40000000#64 := by decide +kernel
theorem test_fmul_0 :
    written (.fmul 3#4 1#4 2#4) 0xFFFFFFFEFFFFFFFF#64 0x8000000080000001#64 = some 0x7FFFFFFFFFFFFFFE#64 := by decide +kernel
theorem test_fmod_0 :
    written (.fmod 3#4 1#4 2#4) 0xFFFFFFFA80000000#64 0x0000000200000000#64 = some 0xFFFFFFFE80000000#64 := by decide +kernel
theorem test_fmod_raises :
    raised (.fmod 3#4 1#4 2#4) 0x0000000500000000#64 0#64 = some (.latched .divideByZero, 0x0D312000#32) := by decide +kernel
theorem test_ceq_0 :
    written (.ceq 3#4 1#4 2#4) 0x0000000280000000#64 0x0000000280000000#64 = some 1#64 := by decide +kernel
theorem test_cne_0 :
    written (.cne 3#4 1#4 2#4) 1#64 0#64 = some 1#64 := by decide +kernel
theorem test_clt_0 :
    written (.clt 3#4 1#4 2#4) 0xFFFFFFFFFFFFFFFF#64 1#64 = some 1#64 := by decide +kernel
theorem test_clt_1 :
    written (.clt 3#4 1#4 2#4) 0x7FFFFFFFFFFFFFFF#64 0x8000000000000000#64 = some 0#64 := by decide +kernel
theorem test_cle_0 :
    written (.cle 3#4 1#4 2#4) 0x8000000000000000#64 0x8000000000000000#64 = some 1#64 := by decide +kernel
theorem test_cgt_0 :
    written (.cgt 3#4 1#4 2#4) 0x7FFFFFFFFFFFFFFF#64 0x8000000000000000#64 = some 1#64 := by decide +kernel
theorem test_cgt_1 :
    written (.cgt 3#4 1#4 2#4) 0x8000000000000000#64 0x8000000000000000#64 = some 0#64 := by decide +kernel
theorem test_cge_0 :
    written (.cge 3#4 1#4 2#4) 0x8000000000000000#64 0x8000000000000000#64 = some 1#64 := by decide +kernel
theorem test_cge_1 :
    written (.cge 3#4 1#4 2#4) 0x8000000000000001#64 0xFFFFFFFFFFFFFFFF#64 = some 0#64 := by decide +kernel
theorem test_itof_0 :
    written (.itof 3#4 1#4) 0xFFFFFFFF80000000#64 0#64 = some 0x8000000000000000#64 := by decide +kernel
theorem test_itof_raises :
    raised (.itof 3#4 1#4) 0x0000000080000000#64 0#64 = some (.latched .domainError, 0x18310000#32) := by decide +kernel
theorem test_ftoi_0 :
    written (.ftoi 3#4 1#4) 0xFFFFFFFD40000000#64 0#64 = some 0xFFFFFFFFFFFFFFFD#64 := by decide +kernel
theorem test_sign_0 :
    written (.sign 3#4 1#4) 0xFFFFFFFD80000000#64 0#64 = some 0xFFFFFFFFFFFFFFFF#64 := by decide +kernel
theorem test_abs_0 :
    written (.abs 3#4 1#4) 0x8000000000000000#64 0#64 = some 0x7FFFFFFFFFFFFFFF#64 := by decide +kernel
theorem test_abs_1 :
    written (.abs 3#4 1#4) 0xFFFFFFFD80000000#64 0#64 = some 0x0000000280000000#64 := by decide +kernel
theorem test_floor_0 :
    written (.floor 3#4 1#4) 0xFFFFFFFFFFFFFFFF#64 0#64 = some 0xFFFFFFFF00000000#64 := by decide +kernel
theorem test_ceil_0 :
    written (.ceil 3#4 1#4) 0xFFFFFFFD80000000#64 0#64 = some 0xFFFFFFFE00000000#64 := by decide +kernel
theorem test_ceil_1 :
    written (.ceil 3#4 1#4) 0x7FFFFFFF00000001#64 0#64 = some 0x7FFFFFFFFFFFFFFF#64 := by decide +kernel
theorem test_round_0 :
    written (.round 3#4 1#4) 0x0000000280000000#64 0#64 = some 0x0000000200000000#64 := by decide +kernel
theorem test_round_1 :
    written (.round 3#4 1#4) 0xFFFFFFFE80000000#64 0#64 = some 0xFFFFFFFE00000000#64 := by decide +kernel
theorem test_sqrt_0 :
    written (.sqrt 3#4 1#4) 0x0000000200000000#64 0#64 = some 0x000000016A09E668#64 := by decide +kernel
theorem test_sqrt_raises :
    raised (.sqrt 3#4 1#4) 0xFFFFFFFF00000000#64 0#64 = some (.latched .domainError, 0x28310000#32) := by decide +kernel
theorem test_log2_0 :
    written (.log2 3#4 1#4) 0x0000000300000000#64 0#64 = some 0x0000000195C01A39#64 := by decide +kernel
theorem test_log2_raises :
    raised (.log2 3#4 1#4) 0#64 0#64 = some (.latched .domainError, 0x30310000#32) := by decide +kernel
theorem test_ln_0 :
    written (.ln 3#4 1#4) 0x0000000A00000000#64 0#64 = some 0x000000024D763773#64 := by decide +kernel
theorem test_ln_raises :
    raised (.ln 3#4 1#4) 0#64 0#64 = some (.latched .domainError, 0x31310000#32) := by decide +kernel
theorem test_pow2_0 :
    written (.pow2 3#4 1#4) 0x0000000180000000#64 0#64 = some 0x00000002D413CCCC#64 := by decide +kernel
theorem test_pow2_1 :
    written (.pow2 3#4 1#4) 0xFFFFFFE180000000#64 0#64 = some 0x0000000000000003#64 := by decide +kernel
theorem test_pow_0 :
    written (.pow 3#4 1#4 2#4) 0x0000000A00000000#64 0x0000000200000000#64 = some 0x00000063FFFFFF80#64 := by decide +kernel
theorem test_pow_raises :
    raised (.pow 3#4 1#4 2#4) 0#64 0xFFFFFFFE00000000#64 = some (.latched .divideByZero, 0x33312000#32) := by decide +kernel
theorem test_sin_0 :
    written (.sin 3#4 1#4) 0xFFFFFFFF00000000#64 0#64 = some 0xFFFFFFFF28955B88#64 := by decide +kernel
theorem test_sin_1 :
    written (.sin 3#4 1#4) 0x8000000000000000#64 0#64 = some 0x00000000F8A7C89D#64 := by decide +kernel
theorem test_cos_0 :
    written (.cos 3#4 1#4) 0xFFFFFFFF00000000#64 0#64 = some 0x000000008A51407D#64 := by decide +kernel
theorem test_cos_1 :
    written (.cos 3#4 1#4) 0x8000000000000000#64 0#64 = some 0x000000003CE185B0#64 := by decide +kernel
theorem test_tan_0 :
    written (.tan 3#4 1#4) 0x0000000300000000#64 0#64 = some 0xFFFFFFFFDB8211DD#64 := by decide +kernel
theorem test_tan_1 :
    written (.tan 3#4 1#4) 0x00000001921FB544#64 0#64 = some 0x7FFFFFFF8001FFFE#64 := by decide +kernel
theorem test_fsin_0 :
    written (.fsin 3#4 1#4) 0x0000006400000000#64 0#64 = some 0xFFFFFFFF7E5EE356#64 := by decide +kernel
theorem test_fcos_0 :
    written (.fcos 3#4 1#4) 0xFFFFFFFF00000000#64 0#64 = some 0x000000008A514B18#64 := by decide +kernel
theorem test_acos_0 :
    written (.acos 3#4 1#4) 0xFFFFFFFF80000000#64 0#64 = some 0x00000002182A4701#64 := by decide +kernel
theorem test_acos_raises :
    raised (.acos 3#4 1#4) 0x0000000100000001#64 0#64 = some (.latched .domainError, 0x40310000#32) := by decide +kernel
theorem test_atan_0 :
    written (.atan 3#4 1#4) 0xFFFFFFFE00000000#64 0#64 = some 0xFFFFFFFEE491E6CE#64 := by decide +kernel
theorem test_atan_1 :
    written (.atan 3#4 1#4) 0x0000000080000000#64 0#64 = some 0x0000000076B19C12#64 := by decide +kernel
theorem test_atan2_0 :
    written (.atan2 3#4 1#4 2#4) 0x0000000080000000#64 0xFFFFFFFD00000000#64 = some 0x00000002F9E90C42#64 := by decide +kernel
theorem test_atan2_1 :
    written (.atan2 3#4 1#4 2#4) 0xFFFFFFFD00000000#64 0x0000000080000000#64 = some 0xFFFFFFFE9836A901#64 := by decide +kernel
theorem test_ldc_ln2 : written (.ldc 3#4 7#4) 0#64 0#64 = some 0x00000000B17217F7#64 := by decide +kernel
theorem test_ldc_log2min : written (.ldc 3#4 9#4) 0#64 0#64 = some 0xFFFFFFE000000000#64 := by decide +kernel
/-- Section 2.2: outside its safe range FADD completes with a draw (R63, R83). -/
theorem test_fadd_any : ∃ t, exec (.fadd 3#4 1#4 2#4) (exampleState 0x7FFFFFFFFFFFFFFF#64 1#64) = .next t ∧
    t.draws = 1 ∧ t.err = .none := ⟨_, rfl, rfl, rfl⟩

/-! ## Table entries and range reduction, from sections 6.1 and 6.3 (R17, R18, R121) -/

theorem test_sin_table : defaults.sinLut 1 = 0x8000#64 ∧ defaults.sinLut 65536 = 0x7ABBD473#64 ∧
    defaults.sinLut 205885 = 0xFFFFFFFF#64 ∧ defaults.sinLut 205886 = 0x100000000#64 := by decide +kernel
theorem test_tan_table : defaults.tanLut 1000 = 0x1F4035D#64 ∧
    defaults.tanLut 102943 = 0x100000000#64 ∧ defaults.tanLut 205885 = 0x1FFFF193417DA#64 ∧
    defaults.tanLut 205886 = 0x7FFFFFFFFFFFFFFF#64 := by
  decide +kernel

/-- An accepted configuration beside the default one, whose table holds at π/4 the value section 6.3 lists
(notes/assumptions/4.md). -/
def listed : Configuration :=
  ⟨{ defaults with tanLut := fun i => if i = 102943 then 0xFFFFFFFF#64 else Word.ofRaw (tanEntry i) },
    by decide +kernel⟩

/-- What a step under the configuration `c` leaves in `X3` for a command word, with `a` in `X1`. -/
def writtenWith (c : Configuration) (w a : Word) : Option Word :=
  match stepWith c { exampleState a 0#64 with inbox := [.write 0x10#5 w] } with
  | .next t => if t.err = .none then some (t.readX 3#4) else none
  | .fault _ => none
  | .refused _ => none

/-- R129's value of `F_TAN(π/4)` is that of the listed table; R18's formula gives one tick more. Both tables can
be stepped (R171). -/
theorem test_tan_quarter : writtenWith listed 0x3A310000#64 0xC90FDAA2#64 = some 0xFFFFFFFE#64 ∧
    writtenWith fmu 0x3A310000#64 0xC90FDAA2#64 = some 0xFFFFFFFF#64 := by decide +kernel

theorem test_clamp_negative_tick : clampSin defaults (-1) = ⟨0, false, true⟩ := by decide +kernel
theorem test_clamp_minimum : clampSin defaults (-9223372036854775808) = ⟨0x154A767CC, false, false⟩ := by
  decide +kernel

/-! ## The host port and error hold, from section 9 and program P3 -/

/-- The values the host reads in the first `k` transactions of a list, from the worked example's state. -/
def replied (a b : Word) (k : Nat) (es : List HostEvent) : Option (List Word) :=
  match Sys2Proof.core.run k { exampleState a b with inbox := es } with
  | .next t => some t.replies
  | .fault _ => none
  | .refused _ => none

theorem test_port_round_trip : replied 0#64 0#64 2 [.write 0x07#5 0xDEADBEEF00C0FFEE#64, .read 0x07#5] =
    some [0xDEADBEEF00C0FFEE#64] := by decide +kernel
theorem test_port_ignored_writes : replied 0#64 0#64 4
    [.write 0x11#5 3#64, .write 0x13#5 0x12345678#64, .read 0x11#5, .read 0x13#5] =
      some [0#64, 0#64] := by decide +kernel
theorem test_division_by_zero_holds : replied 0x0000000A00000000#64 0#64 4
    [.write 0x10#5 0x04912000#64, .write 0x10#5 0x01311000#64, .read 0x11#5, .read 0x13#5] =
      some [1#64, 0x04912000#64] := by decide +kernel
theorem test_acknowledge_reissue : replied 0x0000000A00000000#64 0#64 5
    [.write 0x10#5 0x04912000#64, .write 0x02#5 0x0000000400000000#64, .write 0x12#5 0#64,
      .write 0x10#5 0x04912000#64, .read 0x09#5] = some [0x0000000280000000#64] := by decide +kernel
theorem test_upper_half_illegal : replied 0#64 0#64 3
    [.write 0x10#5 0x0000000101312000#64, .read 0x11#5, .read 0x13#5] =
      some [3#64, 0x01312000#64] := by decide +kernel
theorem test_host_reset : replied 5#64 6#64 4
    [.write 0x10#5 0#64, .reset, .read 0x01#5, .read 0x11#5] = some [0#64, 0#64] := by decide +kernel
theorem test_byte_order : wordBytes .little 0x0102030405060708#64 = [8#8, 7#8, 6#8, 5#8, 4#8, 3#8, 2#8, 1#8] ∧
    wordBytes .big 0x0102030405060708#64 = [1#8, 2#8, 3#8, 4#8, 5#8, 6#8, 7#8, 8#8] := by decide
/-- The host's check runs a table word from reset: the very next step executes it. -/
theorem test_fetch_word : ∃ t, step (State.reset.withFetchWord 32 0x1C340000) = .next t ∧
    t.readX 3#4 = 0x00000003243F6A88#64 := ⟨_, rfl, rfl⟩

/-! ## Witnesses: for each statement with hypotheses, a concrete state and operands that meet them

The operands of a worked example are in `X1` (`a`) and `X2` (`b`); the host's next transaction is given in
`hosted`. -/

/-- The worked example's state with transactions to come. -/
def hosted (a b : Word) (es : List HostEvent) : State := { exampleState a b with inbox := es }

/-- A state in error hold: the division by zero of section 9.1. -/
def held (es : List HostEvent) : State :=
  { (exampleState 0x0000000500000000#64 0#64).raise .divideByZero 0x04312000#32 with inbox := es }

/-- The operands of a worked example as raw values. -/
def operands (a b : Word) : Int × Int := ((exampleState a b).rawX 1#4, (exampleState a b).rawX 2#4)

theorem witness_DecodeOfEncode : (Instr.ldc 15#4 10#4).wellFormed = true ∧
    (Instr.atan2 15#4 15#4 15#4).wellFormed = true := by decide

theorem witness_EncodeOfDecode : decode 0x1CFA0000#32 = .command (.ldc 15#4 10#4) := by decide

/-- The row of LDC at its largest index, and a row of format R3. -/
theorem witness_OpcodeTableDecodes : decode 0x1CFA0000#32 = .command (.ldc 15#4 10#4) ∧
    rowK 0x1C#8 .ldc ∈ opcodeRows ∧ (rowK 0x1C#8 .ldc).Matches 0x1CFA0000#32 ∧
    rowR3 0x42#8 .atan2 ∈ opcodeRows ∧ (rowR3 0x42#8 .atan2).Matches 0x42FFF000#32 :=
  ⟨by decide, by simp [opcodeRows], ⟨by decide, by decide⟩, by simp [opcodeRows], ⟨by decide, by decide⟩⟩

/-- Each illegal case of R53 at a boundary, and a legal word. -/
theorem witness_IllegalCommandCases : (hosted 0#64 0#64 [.write 0x10#5 0x0000000101312000#64]).err = .none ∧
    (0x0000000101312000#64).extractLsb' 32 32 ≠ 0#32 ∧
    (∀ r ∈ opcodeRows, 0x43312000#32 &&& 0xFF000000#32 ≠ r.pattern) ∧
    (0x01312001#32).extractLsb' 0 12 ≠ 0#12 ∧
    (0x28311000#32).extractLsb' 12 4 ≠ 0#4 ∧
    (∃ r ∈ opcodeRows, r.mask = 0xFF00FFFF#32 ∧ 0x28311000#32 &&& 0xFF000000#32 = r.pattern) ∧
    0x1C1B0000#32 &&& 0xFF000000#32 = 0x1C000000#32 ∧ ((0x1C1B0000#32).extractLsb' 16 4).toNat > 10 ∧
    decode 0x1C1A0000#32 = .command (.ldc 1#4 10#4) := by decide

theorem witness_StepRunsDecodedCommand : (hosted 0#64 0#64 [.write 0x10#5 0x28310000#64]).err = .none ∧
    (0x28310000#64).extractLsb' 32 32 = 0#32 ∧
    decode ((0x28310000#64).extractLsb' 0 32) = .command (.sqrt 3#4 1#4) := by decide

theorem witness_HostReads : (hosted 1#64 2#64 [.read 0x0F#5]).inbox = [.read 0x0F#5] ∧
    (held [.read 0x11#5]).inbox = [.read 0x11#5] ∧ (held [.read 0x13#5]).inbox = [.read 0x13#5] ∧
    (held [.read 0x1F#5]).inbox = [.read 0x1F#5] := by decide

theorem witness_HostWrites : (held [.write 0x0F#5 7#64]).inbox = [.write 0x0F#5 7#64] ∧
    (0x0F#5).toNat < 16 ∧ (held [.write 0x1F#5 7#64]).inbox = [.write 0x1F#5 7#64] ∧ 16 ≤ (0x1F#5).toNat ∧
    (0x1F#5).toNat ≠ 0x10 ∧ (0x1F#5).toNat ≠ 0x12 := by decide

theorem witness_ErrorHoldDropsCommands :
    let vs : List Word := [0x01311000#64, 0xFFFFFFFF#64]
    (held (vs.map (HostEvent.write 0x10#5) ++ [.read 0x11#5])).err ≠ .none ∧
      (held (vs.map (HostEvent.write 0x10#5) ++ [.read 0x11#5])).inbox =
        vs.map (HostEvent.write 0x10#5) ++ [.read 0x11#5] ∧
      (held [.write ((15#4).setWidth 5) 7#64]).inbox = [.write ((15#4).setWidth 5) 7#64] ∧
      (held [.write 0x12#5 7#64]).inbox = [.write 0x12#5 7#64] := by decide

theorem witness_AcknowledgeReturns : (held [.write 0x12#5 7#64]).err ≠ .none ∧
    (held [.write 0x12#5 7#64]).inbox = [.write 0x12#5 7#64] ∧
    ∃ t, step (held [.write 0x12#5 7#64]) = .next t ∧ t.err = .none :=
  ⟨by decide, rfl, _, rfl, rfl⟩

theorem witness_ResetValues : (held [.reset]).inbox = [.reset] ∧ (held [.reset]).err ≠ .none := by decide

theorem witness_ErrorTransitions :
    (∃ t, step (hosted 0#64 0#64 [.write 0x10#5 0#64]) = .next t ∧ t.err = .latched .illegalCommand) ∧
      (∃ t, step (hosted 1#64 0#64 [.write 0x10#5 (commandWrite (encode (.div 3#4 1#4 2#4)))]) = .next t ∧
        t.err = .latched .divideByZero) ∧
      (∃ t, step (held [.reset]) = .next t ∧ t.err = .none) ∧
      (∃ t, step (held [.read 0x11#5]) = .next t ∧ t.err = .latched .divideByZero) ∧
      (∃ t, step (held []) = .next t ∧ t.err = .latched .divideByZero) :=
  ⟨⟨_, rfl, rfl⟩, ⟨_, rfl, rfl⟩, ⟨_, rfl, rfl⟩, ⟨_, rfl, rfl⟩, ⟨_, rfl, rfl⟩⟩

theorem witness_IdleHoldsState : (held []).inbox = [] := rfl

/-- The command of the next transaction completes and the one after it reads its destination. -/
theorem witness_HostSeesResult :
    let es : List HostEvent :=
      [.write 0x10#5 (commandWrite (encode (.add 3#4 1#4 2#4))), .read ((3#4).setWidth 5)]
    (hosted 5#64 6#64 es).err = .none ∧ (hosted 5#64 6#64 es).inbox = es ∧
      Completes (.add 3#4 1#4 2#4) (hosted 5#64 6#64 [.read ((3#4).setWidth 5)]) 3#4 11#64 :=
  ⟨rfl, rfl, _, rfl, ⟨by decide, by decide, rfl, rfl, rfl, rfl⟩, rfl⟩

theorem witness_ErrorExplainedInvariant : ErrorExplained (held [.read 0x11#5]) ∧
    ∃ t, step (held [.read 0x11#5]) = .next t ∧ t.err = .latched .divideByZero := by
  refine ⟨fun k hk => Or.inr ⟨.div 3#4 1#4 2#4, by decide, ?_⟩, _, rfl, rfl⟩
  cases hk
  decide

theorem witness_RaiseConditions : (Instr.div 3#4 1#4 2#4).wellFormed = true ∧
    (exampleState 5#64 0#64).err = .none ∧
    raiseTable (exampleState 5#64 0#64) (.div 3#4 1#4 2#4) = some .divideByZero ∧
    raiseTable (exampleState 0x100000001#64 0#64) (.acos 3#4 1#4) = some .domainError ∧
    raiseTable (exampleState 0x100000000#64 0#64) (.acos 3#4 1#4) = none := by decide

theorem witness_RaiseIsRestartable : (exampleState 5#64 0#64).err = .none ∧
    ∃ t, exec (.div 3#4 1#4 2#4) (exampleState 5#64 0#64) = .next t ∧ t.err ≠ .none :=
  ⟨rfl, _, rfl, by decide⟩

theorem witness_CommandFrame : ∃ t, exec (.add 1#4 1#4 1#4) (exampleState 5#64 0#64) = .next t :=
  ⟨_, rfl⟩

/-- Two states that agree on the sources of `ADD x3, x1, x2` and differ elsewhere. -/
theorem witness_ResultDependsOnSources :
    let s := exampleState 5#64 6#64
    let t := (exampleState 5#64 6#64).writeX 9#4 1#64
    (∀ q ∈ sources (.add 3#4 1#4 2#4), s.readX q = t.readX q) ∧ s.draws = t.draws ∧ s.err = .none ∧
      t.err = .none ∧ s ≠ t ∧ (∃ s', exec (.add 3#4 1#4 2#4) s = .next s') ∧
      ∃ t', exec (.add 3#4 1#4 2#4) t = .next t' :=
  ⟨by decide, rfl, rfl, rfl, by decide, ⟨_, rfl⟩, ⟨_, rfl⟩⟩

theorem witness_SafeCommandsReproducible : InSafeRange (exampleState 5#64 6#64) (.fadd 3#4 1#4 2#4) ∧
    InSafeRange (exampleState 5#64 0#64) (.fmod 3#4 1#4 2#4) ∧
    ∃ t, exec (.fadd 3#4 1#4 2#4) (exampleState 5#64 6#64) = .next t :=
  ⟨by simp only [InSafeRange]; decide, by simp only [InSafeRange]; decide, _, rfl⟩

/-- The sum and the difference at `MAX` and one tick outside, and at `MIN` and one tick outside. -/
theorem witness_FastAddSub :
    (let p := operands 0x7FFFFFFFFFFFFFFE#64 1#64; IsRaw (p.1 + p.2)) ∧
      (let p := operands 0x7FFFFFFFFFFFFFFF#64 1#64; ¬ IsRaw (p.1 + p.2)) ∧
      (let p := operands 0x8000000000000001#64 1#64; IsRaw (p.1 - p.2)) ∧
      (let p := operands 0x8000000000000000#64 1#64; ¬ IsRaw (p.1 - p.2)) := by decide

/-- Both ends of the band, just outside it, and multiplication by one. -/
theorem witness_MulCharacterised :
    (let p := operands 0xFFFFFFFEFFFFFFFF#64 0x8000000080000001#64; InMulBand p.1 p.2) ∧
      (let p := operands 0x80000000FFFFFFFF#64 0xFFFFFFFEFFFFFFFF#64; InMulBand p.2 p.1) ∧
      (let p := operands 0xFFFFFFFEFFFFFFFF#64 0x8000000100000000#64;
        ¬ (InMulBand p.1 p.2 ∨ InMulBand p.2 p.1)) ∧
      (operands 5#64 0x100000000#64).2 = rawOne ∧ (operands 0x100000000#64 5#64).1 = rawOne := by
  simp only [InMulBand]
  decide

/-- The safe range of FMUL at its end and outside it, the band inside it, and the operands of FMOD. -/
theorem witness_FastMulMod :
    (let p := operands 0x7FFFFFFFFFFFFFFF#64 0x100000000#64;
      IsRaw (p.1 * p.2 / 4294967296) ∧ ¬ (InMulBand p.1 p.2 ∨ InMulBand p.2 p.1)) ∧
      (let p := operands 0x7FFFFFFFFFFFFFFF#64 0x200000000#64; ¬ IsRaw (p.1 * p.2 / 4294967296)) ∧
      (let p := operands 0xFFFFFFFEFFFFFFFF#64 0x8000000080000001#64;
        IsRaw (p.1 * p.2 / 4294967296) ∧ InMulBand p.1 p.2) ∧
      (operands 5#64 0#64).2 = 0 ∧ operands 0x8000000000000000#64 0xFFFFFFFFFFFFFFFF#64 = (rawMin, -1) ∧
      (let p := operands 0x8000000000000000#64 1#64; p.2 ≠ 0 ∧ ¬ (p.1 = rawMin ∧ p.2 = -1)) := by
  simp only [InMulBand]
  decide

/-- Saturation of either sign at its boundary (the quotient `2^63` ticks), and just below it. -/
theorem witness_DivClosedForm :
    (operands 5#64 0#64).2 = 0 ∧
      (let p := operands 0x4000000000000000#64 0x80000000#64;
        p.2 ≠ 0 ∧ 9223372036854775808 * |p.2| ≤ |p.1| * 4294967296 ∧ ¬ ((p.1 < 0) ≠ (p.2 < 0))) ∧
      (let p := operands 0xC000000000000000#64 0x80000000#64;
        p.2 ≠ 0 ∧ 9223372036854775808 * |p.2| ≤ |p.1| * 4294967296 ∧ ((p.1 < 0) ≠ (p.2 < 0))) ∧
      (let p := operands 0x3FFFFFFFFFFFFFFF#64 0x80000000#64;
        p.2 ≠ 0 ∧ |p.1| * 4294967296 < 9223372036854775808 * |p.2| ∧ ¬ ((p.1 < 0) ≠ (p.2 < 0))) ∧
      (let p := operands 0xFFFFFFFFFFFFFFFD#64 0x200000000#64;
        p.2 ≠ 0 ∧ |p.1| * 4294967296 < 9223372036854775808 * |p.2| ∧ ((p.1 < 0) ≠ (p.2 < 0))) := by
  decide +kernel

theorem witness_ModRemainder : (operands 5#64 0#64).2 = 0 ∧
    operands 0x8000000000000000#64 0xFFFFFFFFFFFFFFFF#64 = (rawMin, -1) ∧
    (let p := operands 0xFFFFFFFA80000000#64 0x200000000#64; p.2 ≠ 0 ∧ p.1 ≤ 0) ∧
    (let p := operands 0x580000000#64 0x200000000#64; p.2 ≠ 0 ∧ 0 ≤ p.1) := by decide

/-- The ends of the integer range and one beyond each. -/
theorem witness_Conversions : (operands 0xFFFFFFFF80000000#64 0#64).1 = -2147483648 ∧
    (operands 0x7FFFFFFF#64 0#64).1 = 2147483647 ∧ (operands 0xFFFFFFFF7FFFFFFF#64 0#64).1 < -2147483648 ∧
    2147483647 < (operands 0x80000000#64 0#64).1 := by decide

theorem witness_ElementaryRelations : IsRaw rawMin ∧ IsRaw rawMax ∧ rawMin ≤ rawMax ∧ rawMax ≠ rawMin ∧
    0x7FFFFFFF80000000 ≤ rawMax := by decide

theorem witness_SqrtResult : 0 ≤ (operands 0#64 0#64).1 ∧ 0 ≤ (operands 0x7FFFFFFFFFFFFFFF#64 0#64).1 ∧
    (operands 0xFFFFFFFFFFFFFFFF#64 0#64).1 < 0 := by decide

theorem witness_SqrtDepartsFromClosedForm :
    (exampleState 0x79F74C3F42028DCD#64 0#64).readX 1#4 = 0x79F74C3F42028DCD#64 := by decide

/-- On the same operand the model's SQRT, by R101's passes. -/
theorem test_sqrt_departs :
    fSqrt 0x79F74C3F42028DCD = .value 0x0000B0B37ED4D57B := by decide +kernel

theorem witness_Log2Result : 0 < (operands 1#64 0#64).1 ∧
    (let a := (operands 1#64 0#64).1; a = 2 ^ Nat.log2 a.toNat) ∧ (operands 0#64 0#64).1 ≤ 0 := by decide

theorem witness_Log2Digits : 0 < (operands 0x7FFFFFFFFFFFFFFF#64 0#64).1 ∧
    (operands 0x8000000000000000#64 0#64).1 ≤ 0 := by decide

theorem witness_LnResult : 0 < (operands 1#64 0#64).1 ∧ (operands 0#64 0#64).1 ≤ 0 := by decide

theorem witness_Pow2Result : 31 * rawOne ≤ (operands 0x1F00000000#64 0#64).1 ∧
    (operands 0xFFFFFFE100000000#64 0#64).1 ≤ -31 * rawOne ∧
    (operands 0x1E00000000#64 0#64).1 = (30 : Nat) * rawOne ∧
    (operands 0xFFFFFFFE80000000#64 0#64).1 < 0 ∧ (operands 0xFFFFFFFE80000000#64 0#64).1 ≠ rawMin ∧
    fPow2 fmu.cfg (-(operands 0xFFFFFFFE80000000#64 0#64).1) = .value 0x2D413CCCC := by decide +kernel

theorem witness_PowResult : (operands 0x100000000#64 0#64).1 = rawOne ∧ (operands 0#64 0#64).2 = 0 ∧
    (let p := operands 0#64 1#64; p.1 = 0 ∧ 0 < p.2) ∧
    (let p := operands 0#64 0xFFFFFFFFFFFFFFFF#64; p.1 = 0 ∧ p.2 < 0) ∧
    (let p := operands 1#64 1#64; 0 < p.1 ∧ p.1 ≠ rawOne ∧ p.2 ≠ 0) ∧
    (let p := operands 0xFFFFFFFFFFFFFFFF#64 1#64; p.1 < 0 ∧ p.2 ≠ 0) := by decide

theorem witness_RangeReduction : IsRaw (-9223372036854775808) ∧ IsRaw 9223372036854775807 := by decide

theorem witness_TablePosition : (0 : Int) ≤ 0 ∧ (0 : Int) ≤ 0x1921FB544 ∧
    tablePos defaults 0x100000000 = (131071, 0x19349798) := by decide +kernel

/-- The least configuration the test accepts: tables of two entries. -/
def smallConfig : Config :=
  { defaults with
    pi := 131072
    piOver2 := 65536
    piTimes2 := 262144
    largePi := 262144 * 268435456
    sinLut := fun i => if i = 0 then 0#64 else Word.ofRaw rawOne
    tanLut := fun i => if i = 0 then 0#64 else Word.ofRaw rawMax }

theorem witness_ReducedAngleInQuadrant : configOk smallConfig = true ∧
    smallConfig.pi ≤ 2 * smallConfig.piOver2 := by decide +kernel

/-- A configuration whose `PI` is its `PI_OVER_2`, so that no angle reaches `PI_OVER_2`: it meets R7. -/
def flatConfig : Config :=
  { defaults with
    pi := 0x300000000
    piOver2 := 0x300000000
    piTimes2 := 0x500000000
    largePi := 0x5000000000000000 }

/-- Configurations beside the default one that R7 accepts, and the two ways of leaving a table it refuses: with a
last modulus two ticks above `PI_TIMES_2` one angle has the neighbour index −1 (R124), and where `PI_OVER_2` is
below `PI` and scaled past the last entry its tangent has none (R129). -/
theorem witness_TableIndicesInRange : configOk smallConfig = true ∧ smallConfig.lutN = 2 ∧
    configOk defaults = true ∧ configOk flatConfig = true ∧
    configOk { flatConfig with largePi := 0x5000000020000000 } = false ∧
    fSin { flatConfig with largePi := 0x5000000020000000 } (-0x500000001) = .noEntry ∧
    configOk { flatConfig with pi := 0x300000001 } = false ∧
    fTan { flatConfig with pi := 0x300000001 } 0x300000000 = .noEntry := by
  decide +kernel

theorem witness_DefaultTables : (0 : Nat) < 205886 ∧ (205885 : Nat) < 205886 ∧
    defaults.tanLut 205885 = 0x1FFFF193417DA#64 := by decide +kernel

/-- The small tables have the properties P1 to P4 of R17 and R18, and the sine of `PI_OVER_2` is a value. -/
theorem witness_SineRange : configOk smallConfig = true ∧ TableProperties smallConfig ∧
    fSin smallConfig 65536 = .value rawOne := by
  refine ⟨by decide +kernel, ⟨rfl, by decide, ?_, ?_, rfl, by decide, ?_, ?_⟩, by decide +kernel⟩
  all_goals
    intro i _
    by_cases h : i = 0 <;> simp [smallConfig, h, Word.ofRaw, Word.raw, rawOne, rawMax]

theorem witness_AtanResult : (operands 0#64 0#64).1 = 0 ∧ (operands 1#64 0#64).1 ≠ rawMin ∧
    (operands 0x8000000000000000#64 0#64).1 ≤ 0 ∧ 0 ≤ (operands 1#64 0#64).1 := by decide

/-- The axis, a saturating denominator, the one quotient on which R142's pseudocode and its sentence about the
overflow differ (notes/assumptions/21.md), and the two rational forms at their meeting point. -/
theorem witness_Atan2Result : (operands 1#64 0#64).2 = 0 ∧
    (let p := operands 0x7FFFFFFFFFFFFFFF#64 1#64;
      p.2 ≠ 0 ∧ fDiv p.1 p.2 = .value rawMax ∧
        fAdd rawOne (fMul (fMul 0x47AE147B rawMax) rawMax) = rawMax) ∧
    (let p := operands 0xFFFEA9E7D6161C93#64 0x100000000#64;
      p.2 ≠ 0 ∧ fDiv p.1 p.2 = .value (-0x1561829E9E36D) ∧
        fAdd rawOne (fMul (fMul 0x47AE147B (-0x1561829E9E36D)) (-0x1561829E9E36D)) = rawMax) ∧
    (let p := operands 0xFFFFFFFF#64 0x100000000#64;
      p.2 ≠ 0 ∧ fDiv p.1 p.2 = .value (rawOne - 1) ∧
        fAdd rawOne (fMul (fMul 0x47AE147B (rawOne - 1)) (rawOne - 1)) ≠ rawMax ∧ |rawOne - 1| < rawOne) ∧
    (let p := operands 0x100000000#64 0x100000000#64;
      p.2 ≠ 0 ∧ fDiv p.1 p.2 = .value rawOne ∧
        fAdd rawOne (fMul (fMul 0x47AE147B rawOne) rawOne) ≠ rawMax ∧ rawOne ≤ |rawOne|) := by
  decide +kernel

theorem witness_AcosResult : (operands 0xFFFFFFFF00000000#64 0#64).1 = -rawOne ∧
    (operands 0x100000000#64 0#64).1 = rawOne ∧ (operands 0#64 0#64).1 = 0 ∧
    (operands 0xFFFFFFFEFFFFFFFF#64 0#64).1 < -rawOne ∧ rawOne < (operands 0x100000001#64 0#64).1 := by decide

end Sys2Proof.Tests
end

section
/-!
The obligation on what a command depends on (R3, R10): of the state, only its source registers and the count of
draws reach its result.
-/

namespace Sys2Proof.Machine

/-! ## What a command reads -/

/-- The function of a command reads the state at the source registers alone (R47 to R50). -/
theorem answer_congr (c : Configuration) {i : Instr} {s t : State}
    (hsrc : ∀ q ∈ sources i, s.readX q = t.readX q) : answer c s i = answer c t i := by
  have hraw : ∀ q ∈ sources i, s.rawX q = t.rawX q := fun q hq => congrArg Word.raw (hsrc q hq)
  cases i
  case ldc rd k => rfl
  all_goals
    simp only [sources, List.forall_mem_cons] at hraw
    simp only [answer, hraw]

/-! ## What a command leaves in `ERR` and its destination -/

/-- Two completions of one command with the same answer, from the same `ERR` and the same next draw, leave the
same `ERR` and the same word in the destination, unless they raise (R50). -/
theorem finish_congr {w : CmdWord} {rd : Reg} {r : Res} {s t s' t' : State} (herr : s.err = t.err)
    (hdraws : s.draws = t.draws) (hs : finish w rd r s = .next s') (ht : finish w rd r t = .next t') :
    s'.err = t'.err ∧ (s'.err = .none → s'.readX rd = t'.readX rd) := by
  cases r <;> simp only [finish, Host.Outcome.next.injEq, reduceCtorEq] at hs ht <;> subst hs ht
  case value v => simp [herr]
  case any => simp [herr, hdraws]
  case divideByZero => simp
  case domainError => simp

/-- A constant index above 10 names no constant (R49). -/
theorem constant_eq_none (c : Config) {k : BitVec 4} (h : 10 < k.toNat) : constant c k = none := by
  unfold constant
  split
  case h_12 => rfl -- the arm of the reserved indices
  all_goals exact absurd h (by decide)

/-- A command that is not well-formed, an LDC with a reserved index (R49), raises IllegalCommand in every
state. -/
theorem exec_of_not_wellFormed {i : Instr} (s : State) (hw : i.wellFormed ≠ true) :
    exec i s = .next (s.raise .illegalCommand (encode i)) := by
  cases i
  case ldc rd k =>
    have hk : constant fmu.cfg k = none :=
      constant_eq_none fmu.cfg (by simpa [Instr.wellFormed, constantIndexOk] using hw)
    simp only [exec, execLdc, execLdcWith, hk]
  all_goals exact absurd rfl hw

/-- Settles O22: a well-formed command is the completion of an answer that its sources determine; any other
command raises IllegalCommand whatever the state. -/
theorem resultDependsOnSources : Obligations.ResultDependsOnSources := by
  intro i s t s' t' hsrc hdraws hs_ready ht_ready hs ht
  by_cases hw : i.wellFormed = true
  · rw [exec_eq_finish i s hw, answer_congr fmu hsrc] at hs
    rw [exec_eq_finish i t hw] at ht
    exact finish_congr (hs_ready.trans ht_ready.symm) hdraws hs ht
  · rw [exec_of_not_wellFormed s hw, Host.Outcome.next.injEq] at hs
    rw [exec_of_not_wellFormed t hw, Host.Outcome.next.injEq] at ht
    subst hs ht
    simp

end Sys2Proof.Machine
end

section
/-!
The obligations on the unit's state (spec/10_state.md): what reset leaves, the frame of a command, the source's
worked examples, and the contents of the two tables.
-/

namespace Sys2Proof.Machine

/-! ## Reset -/

@[simp] theorem State.reset_readX (r : Reg) : State.reset.readX r = 0#64 := by
  simp [State.readX, State.reset]

@[simp] theorem State.reset_err : State.reset.err = .none := rfl
@[simp] theorem State.reset_fcmd : State.reset.fcmd = 0#32 := rfl

/-- `Reset` gives the unit its reset values, whatever it held (R170). -/
theorem sameUnit_resetUnit (s : State) : SameUnit State.reset s.resetUnit :=
  ⟨fun q => by simp, rfl, rfl⟩

/-- A Reset event resets the unit (R170). -/
theorem step_reset {s : State} {rest : List HostEvent} (h : s.inbox = .reset :: rest) :
    step s = .next { s with inbox := rest }.resetUnit :=
  step_cons h

/-- Settles O11. -/
theorem resetValues : Obligations.ResetValues :=
  ⟨State.reset_readX, State.reset_err, State.reset_fcmd, rfl, rfl,
    fun _ _ h => ⟨_, step_reset h, sameUnit_resetUnit _⟩⟩

/-- A state with no error latched has none to explain. -/
theorem errorExplained_of_ready {s : State} (h : s.err = .none) : ErrorExplained s := by
  intro k hk
  rw [h] at hk
  cases hk

/-- Settles O18: reset latches no error. -/
theorem errorExplainedAtReset : Obligations.ErrorExplainedAtReset :=
  errorExplained_of_ready State.reset_err

/-! ## The frame of a command -/

/-- Settles O21: each of the three things a command can do is a write of its destination alone or a raise. -/
theorem commandFrame : Obligations.CommandFrame := by
  intro i s t h
  rcases exec_next h with ⟨w, rfl⟩ | rfl | ⟨k, rfl⟩
  · exact Or.inl ⟨w, writesOnly_writeX s _ w⟩
  · exact Or.inl ⟨_, writesOnly_writeAny s _⟩
  · exact Or.inr ⟨k, raisesOnly_raise s k _⟩

/-! ## The source's worked examples -/

/-- A well-formed command whose function answers what a word stands for completes with that word. -/
theorem completes_of_answer_raw {i : Instr} {s : State} {w : Word} (hw : i.wellFormed = true)
    (h : answer fmu s i = .value w.raw) : Completes i s (destination i) w := by
  simpa only [ofRaw_raw] using completes_of_answer hw h

/-- Settles O59: the function of each command is evaluated on the operands of its example. -/
theorem sourceExamples : Obligations.SourceExamples := by
  refine ⟨?add, ?mul, ?div, ?divZero, ?mod, ?sqrt, ?sqrtNegative, ?log2, ?sinZero, ?cosZero, ?sinQuarter,
    ?atan, ?atan2⟩
  case divZero => exact raises_of_divideByZero rfl (by decide +kernel)
  case sqrtNegative => exact raises_of_domainError rfl (by decide +kernel)
  all_goals exact completes_of_answer_raw rfl (by decide +kernel)

/-! ## The table ROMs -/

/-- Each default table has an entry for every index up to the last (R7). -/
theorem defaults_lutN : defaults.lutN = (lastEntry : Int) + 1 := by decide

/-- P3 of R17, for the computed entries. -/
theorem sinEntry_mem (i : ℕ) (hi : i ≤ lastEntry) : 0 ≤ sinEntry i ∧ sinEntry i ≤ rawOne := by
  rcases hi.eq_or_lt with rfl | hlt
  · simp [sinEntry, rawOne]
  · have hone := sinScaled_le_one i hlt
    rw [sinEntry, if_neg hlt.ne, Nat.shiftRight_eq_div_pow, rawOne]
    omega

/-- P4 of R17, for the computed entries: below the last entry the computed sines rise, and the last is `ONE`. -/
theorem sinEntry_le_succ (i : ℕ) (hi : i + 1 ≤ lastEntry) : sinEntry i ≤ sinEntry (i + 1) := by
  rcases hi.eq_or_lt with heq | hlt
  · rw [heq, show sinEntry lastEntry = rawOne from if_pos rfl]
    exact (sinEntry_mem i (by omega)).2
  · have hle := (scaled_order i hlt).1
    rw [sinEntry, sinEntry, if_neg (by omega), if_neg hlt.ne]
    simp only [Nat.shiftRight_eq_div_pow]
    exact_mod_cast Nat.div_le_div_right hle

/-- P3 of R18, for the computed entries. -/
theorem tanEntry_mem (i : ℕ) : 0 ≤ tanEntry i ∧ tanEntry i ≤ rawMax := by
  refine ⟨?_, (tanEntry_isRaw i).2⟩
  rw [tanEntry]
  split_ifs
  · decide
  · decide
  · exact le_min (by decide) (Int.natCast_nonneg _)

/-- Below the last entry the quotients of the computed sines and cosines rise. -/
theorem tanQuotient_le_succ (i : ℕ) (hi : i + 1 < lastEntry) :
    (sinScaled i <<< 32) / cosScaled i ≤ (sinScaled (i + 1) <<< 32) / cosScaled (i + 1) := by
  obtain ⟨hsin, hcos, hpos⟩ := scaled_order i hi
  simp only [Nat.shiftLeft_eq]
  exact Nat.div_le_div (Nat.mul_le_mul_right _ hsin) hcos hpos.ne'

/-- The entry at π/4, which is set and not computed from the series, stands between its neighbours. -/
theorem tanEntry_middle : tanEntry 102942 ≤ rawOne ∧ rawOne ≤ tanEntry 102944 := by decide +kernel

/-- P4 of R18, for the computed entries: the quotients rise, the middle entry stands between its neighbours, and
the last is `MAX`. -/
theorem tanEntry_le_succ (i : ℕ) (hi : i + 1 ≤ lastEntry) : tanEntry i ≤ tanEntry (i + 1) := by
  rcases hi.eq_or_lt with heq | hlt
  · rw [heq, show tanEntry lastEntry = rawMax from if_pos rfl]
    exact (tanEntry_mem i).2
  have hmiddle : tanEntry 102943 = rawOne := rfl
  by_cases hbefore : i = 102942
  · subst hbefore
    exact hmiddle ▸ tanEntry_middle.1
  by_cases hat : i = 102943
  · subst hat
    exact hmiddle ▸ tanEntry_middle.2
  · have hquot := tanQuotient_le_succ i hlt
    have hlast : lastEntry = 205886 := rfl
    rw [tanEntry, tanEntry, if_neg (by omega), if_neg (by omega), if_neg hlt.ne, if_neg (by omega)]
    exact min_le_min_left _ (by exact_mod_cast hquot)

/-- The default tables have the properties P1 to P4 (R17, R18). -/
theorem tableProperties_defaults : TableProperties defaults where
  sinFirst := by decide +kernel
  sinLast := by decide +kernel
  sinRange i hi := by
    rw [defaults_lutN] at hi
    rw [defaults_sinLut_raw i (by omega)]
    exact sinEntry_mem i (by omega)
  sinMono i hi := by
    rw [defaults_lutN] at hi
    rw [defaults_sinLut_raw i (by omega), defaults_sinLut_raw (i + 1) (by omega)]
    exact sinEntry_le_succ i (by omega)
  tanFirst := by decide +kernel
  tanLast := by decide +kernel
  tanRange i _ := by
    rw [defaults_tanLut_raw]
    exact tanEntry_mem i
  tanMono i hi := by
    rw [defaults_lutN] at hi
    rw [defaults_tanLut_raw, defaults_tanLut_raw]
    exact tanEntry_le_succ i (by omega)

/-- The sample entries of the sine table (R17). -/
theorem defaults_sinLut_samples :
    defaults.sinLut 1 = 0x8000#64 ∧ defaults.sinLut 2 = 0x10000#64 ∧ defaults.sinLut 3 = 0x18000#64 ∧
      defaults.sinLut 205884 = 0xFFFFFFFF#64 ∧ defaults.sinLut 205885 = 0xFFFFFFFF#64 := by decide +kernel

/-- The sample entries of the tangent table, with the entry at π/4 (R18). -/
theorem defaults_tanLut_samples :
    defaults.tanLut 1 = 0x8000#64 ∧ defaults.tanLut 2 = 0x10000#64 ∧ defaults.tanLut 3 = 0x18000#64 ∧
      defaults.tanLut 205884 = 0xFFFF8C99CBEC#64 ∧ defaults.tanLut 205885 = 0x1FFFF193417DA#64 ∧
      defaults.tanLut 102943 = 0x100000000#64 := by decide +kernel

/-- Settles O60: the properties follow from the order of the computed sines and cosines, and the bounds from their
distance to the exact ones. -/
theorem defaultTables : Obligations.DefaultTables := by
  obtain ⟨sin1, sin2, sin3, sin205884, sin205885⟩ := defaults_sinLut_samples
  refine ⟨tableProperties_defaults, fun i hi => ?_, sin1, sin2, sin3, sin205884, sin205885,
    defaults_tanLut_samples⟩
  have hlast : i < lastEntry := hi
  obtain ⟨sinLower, sinUpper⟩ := sinEntry_exact i hlast
  obtain ⟨tanLower, tanUpper⟩ := tanEntry_exact i hlast
  rw [show fmu.cfg = defaults from rfl, defaults_sinLut_raw i hlast.le, defaults_tanLut_raw]
  exact ⟨sinLower, sinUpper, tanLower, tanUpper⟩

end Sys2Proof.Machine
end

section
/-!
The obligations on the host port and the table ROMs (spec/20_memory.md): what a read and a write of each port
register do (R34 to R38), the host's view of a command (R40), and the configurations under which no `RomRead`
leaves its table (R33).
-/

namespace Sys2Proof

/-! ## Decoding an encoded word -/

/-- Decoding a word of format R3 gives the command its opcode makes of the three fields (R47, R52). -/
theorem decode_encodeR3 {opc : BitVec 8} {make : Reg → Reg → Reg → Instr} (hf : formatOf opc = some (.r3 make))
    (rd ra rb : Reg) : decode (encodeR3 opc rd ra rb) = .command (make rd ra rb) := by
  simp [decode, encodeR3, hf]

/-- Decoding a word of format R2 gives the command its opcode makes of the two fields (R48, R52). -/
theorem decode_encodeR2 {opc : BitVec 8} {make : Reg → Reg → Instr} (hf : formatOf opc = some (.r2 make))
    (rd ra : Reg) : decode (encodeR2 opc rd ra) = .command (make rd ra) := by
  simp [decode, encodeR2, hf]

/-- Decoding a word of format K whose index names a constant gives the command its opcode makes of it (R49, R52). -/
theorem decode_encodeK {opc : BitVec 8} {make : Reg → BitVec 4 → Instr} (hf : formatOf opc = some (.k make))
    (rd : Reg) {k : BitVec 4} (hk : constantIndexOk k = true) :
    decode (encodeR2 opc rd k) = .command (make rd k) := by
  simp [decode, encodeR2, hf, hk]

/-- The word of a well-formed command decodes to that command: its opcode selects the format it was encoded in. -/
theorem decode_encode (i : Instr) (hw : i.wellFormed = true) : decode (encode i) = .command i := by
  cases i
  case ldc rd k => exact decode_encodeK rfl rd hw
  case neg | itof | ftoi | sign | abs | floor | ceil | round | sqrt | log2 | ln | pow2 | sin | cos | tan | fsin
      | fcos | acos | atan => exact decode_encodeR2 rfl _ _
  all_goals exact decode_encodeR3 rfl _ _ _

end Sys2Proof

namespace Sys2Proof.Machine

/-! ## The word of a CMD write -/

/-- The upper half of the word written for a command is zero (R34). -/
@[simp] theorem extractLsb'_upper_commandWrite (w : CmdWord) : (commandWrite w).extractLsb' 32 32 = 0#32 := by
  have hw := w.isLt
  apply BitVec.eq_of_toNat_eq
  simp only [commandWrite, BitVec.extractLsb'_toNat, BitVec.toNat_setWidth, BitVec.toNat_ofNat,
    Nat.shiftRight_eq_div_pow]
  omega

/-- The lower half of the word written for a command is the command word (R34). -/
@[simp] theorem extractLsb'_lower_commandWrite (w : CmdWord) : (commandWrite w).extractLsb' 0 32 = w := by
  have hw := w.isLt
  apply BitVec.eq_of_toNat_eq
  simp only [commandWrite, BitVec.extractLsb'_toNat, BitVec.toNat_setWidth, Nat.shiftRight_eq_div_pow]
  omega

/-! ## Host reads -/

/-- The number of an X register reads as that register (R34). -/
theorem hostRead_of_lt {n : PortReg} (h : n.toNat < 16) (s : State) :
    hostRead n s = s.readX (BitVec.ofNat 4 n.toNat) := by
  simp only [hostRead, portX_of_lt h]

/-- A read of the X register `r` through the port (R34). -/
@[simp] theorem hostRead_setWidth (r : Reg) (s : State) : hostRead (r.setWidth 5) s = s.readX r := by
  simp only [hostRead, portX_setWidth]

/-- STATUS is at number 0x11 (R34). -/
@[simp] theorem hostRead_status (s : State) : hostRead 0x11#5 s = s.status := rfl

/-- FCMD is at number 0x13 (R34). -/
@[simp] theorem hostRead_fcmd (s : State) : hostRead 0x13#5 s = s.fcmd.setWidth 64 := rfl

/-- CMD, ERRACK and the reserved numbers read as 0 (R34). -/
theorem hostRead_other {n : PortReg} (hx : 16 ≤ n.toNat) (hstatus : n ≠ 0x11#5) (hfcmd : n ≠ 0x13#5)
    (s : State) : hostRead n s = 0#64 := by
  simp only [hostRead, portX_of_ge hx, hstatus, hfcmd, if_false]

/-- STATUS of a ready unit (R14, R16). -/
theorem status_of_ready {s : State} (h : s.err = .none) : s.status = 0#64 := by
  simp [State.status, h, Err.code]

/-- STATUS of a unit in error hold (R14, R16). -/
theorem status_of_latched {s : State} {k : ErrorKind} (h : s.err = .latched k) :
    s.status = k.code.setWidth 64 := by
  simp [State.status, h, Err.code]

/-- A read takes the transaction and appends its reply; nothing else changes (R34, R38). -/
theorem step_read {s : State} {n : PortReg} {rest : List HostEvent} (h : s.inbox = .read n :: rest) :
    step s = .next { s with inbox := rest, replies := s.replies ++ [hostRead n s] } :=
  step_cons h

/-- Settles O7: by R34's four kinds of port number. -/
theorem hostReads : Obligations.HostReads := by
  intro s n rest h
  refine ⟨_, hostRead n s, step_read h, ⟨fun _ => rfl, rfl, rfl⟩, rfl, rfl, rfl, ?_⟩
  split_ifs with hx hstatus hfcmd
  · exact hostRead_of_lt hx s
  · rw [BitVec.eq_of_toNat_eq (y := 0x11#5) hstatus, hostRead_status]
    cases he : s.err with
    | none => exact status_of_ready he
    | latched k => cases k <;> exact status_of_latched he
  · rw [BitVec.eq_of_toNat_eq (y := 0x13#5) hfcmd, hostRead_fcmd]
  · exact hostRead_other (not_lt.1 hx) (fun e => hstatus (congrArg BitVec.toNat e))
      (fun e => hfcmd (congrArg BitVec.toNat e)) s

/-! ## Host writes -/

/-- A write takes the transaction and performs it on what is left (R34, R40). -/
theorem step_write {s : State} {n : PortReg} {v : Word} {rest : List HostEvent}
    (h : s.inbox = .write n v :: rest) : step s = hostWrite exec n v { s with inbox := rest } :=
  step_cons h

/-- A write to the number of an X register writes that register, in error hold as well (R34, R35). -/
theorem hostWrite_of_lt (run : Instr → State → Result) {n : PortReg} (h : n.toNat < 16) (v : Word) (s : State) :
    hostWrite run n v s = .next (s.writeX (BitVec.ofNat 4 n.toNat) v) := by
  simp only [hostWrite, portX_of_lt h]

/-- Writes to STATUS, FCMD and the reserved numbers are ignored (R34). -/
theorem hostWrite_ignored (run : Instr → State → Result) {n : PortReg} (hx : 16 ≤ n.toNat) (hcmd : n ≠ 0x10#5)
    (herrack : n ≠ 0x12#5) (v : Word) (s : State) : hostWrite run n v s = .next s := by
  simp only [hostWrite, portX_of_ge hx, hcmd, herrack, if_false]

/-- Settles O8. -/
theorem hostWrites : Obligations.HostWrites := by
  intro s n v rest h
  rw [step_write h]
  refine ⟨fun hx => ?written, fun hx hcmd herrack => ?ignored⟩
  case written => exact ⟨_, hostWrite_of_lt exec hx v _, writesOnly_writeX _ _ v, rfl⟩
  case ignored =>
    exact hostWrite_ignored exec hx (fun e => hcmd (congrArg BitVec.toNat e))
      (fun e => herrack (congrArg BitVec.toNat e)) v _

/-! ## A command and the read after it -/

/-- A ready unit executes the command whose word the host writes to CMD (R50). -/
theorem step_commandWrite {s : State} {i : Instr} {rest : List HostEvent} (hready : s.err = .none)
    (hw : i.wellFormed = true) (h : s.inbox = .write 0x10#5 (commandWrite (encode i)) :: rest) :
    step s = exec i { s with inbox := rest } := by
  rw [step_write h, hostWrite_cmd]
  exact issue_command exec hready (extractLsb'_upper_commandWrite _) (by simpa using decode_encode i hw)

/-- Settles O16: the first step executes the command, and the second reads its destination. -/
theorem hostSeesResult : Obligations.HostSeesResult := by
  intro s i v rest hready hw hinbox hcompletes
  obtain ⟨t, hexec, ⟨hdest, -, -, -, htInbox, htReplies⟩, -⟩ := hcompletes
  have hcommand : step s = .next t := (step_commandWrite hready hw hinbox).trans hexec
  refine ⟨{ t with inbox := rest, replies := s.replies ++ [v] }, ?_, rfl, rfl⟩
  rw [run_succ 1 hcommand, run_succ 0 (step_read htInbox), hostRead_setWidth, hdest, htReplies]
  rfl

/-! ## The configurations that keep every `RomRead` inside its table -/

/-- Under an accepted configuration SIN answers a value on every angle (R123). -/
theorem fSin_answers {c : Config} (h : configOk c = true) (a : Int) : ∃ v, fSin c a = .value v := by
  obtain ⟨-, -, hv⟩ := fSin_value c h a
  exact ⟨_, hv⟩

/-- Under an accepted configuration FSIN answers a value on every angle (R123). -/
theorem fFsin_answers {c : Config} (h : configOk c = true) (a : Int) : ∃ v, fFsin c a = .value v := by
  obtain ⟨-, hv⟩ := fFsin_value c h a
  exact ⟨_, hv⟩

/-- Under an accepted configuration TAN answers a value on every angle (R123). -/
theorem fTan_answers {c : Config} (h : configOk c = true) (a : Int) : ∃ v, fTan c a = .value v := by
  obtain ⟨-, -, hv⟩ := fTan_value c h a
  exact ⟨_, hv⟩

/-- A function that answers a value has not read outside its table. -/
theorem Res.ne_noEntry_of_value {r : Res} (h : ∃ v, r = .value v) : r ≠ .noEntry := by
  obtain ⟨v, rfl⟩ := h
  simp

/-- The test of the constants is that each is a raw value (R8, R19). -/
theorem constantsRaw_iff (c : Config) : constantsRaw c = true ↔
    ∀ v ∈ [c.pi, c.piOver2, c.piTimes2, c.ln2, c.log2Max, c.log2Min, c.epsilon, c.largePi, c.k028], IsRaw v := by
  simp only [constantsRaw, List.all_eq_true, decide_eq_true_eq]

/-- The last modulus of the range reducer, as R121's shift and as R7's quotient. -/
theorem largePi_shift (c : Config) : c.largePi >>> (28 : Nat) = c.largePi / 2 ^ 28 := by
  rw [Int.shiftRight_eq_div_pow]
  norm_num

/-- A configuration that passes the test meets R7's condition. -/
theorem wellFormedConfig_of_configOk {c : Config} (h : configOk c = true) : WellFormedConfig c := by
  obtain ⟨hraw, ⟨hpos, hhalf, htwice, htwiceMax, hpiMax, hlut, hlarge⟩, -⟩ := (configOk_iff c).1 h
  exact ⟨(constantsRaw_iff c).1 hraw, hpos, hhalf, htwice, htwiceMax, hpiMax, hlut, largePi_shift c ▸ hlarge,
    by omega, fun a _ => ⟨Res.ne_noEntry_of_value (fSin_answers h a), Res.ne_noEntry_of_value (fTan_answers h a)⟩⟩

/-- A configuration that meets R7's condition passes the test: were the largest angle TAN looks up scaled past
the last entry, TAN would leave its table there, and were the last modulus two ticks above `PI_TIMES_2`, SIN would
leave its table at the angle `−1 − PI_TIMES_2`. -/
theorem configOk_of_wellFormedConfig {c : Config} (h : WellFormedConfig c) : configOk c = true := by
  obtain ⟨hraw, hpos, hhalf, htwice, htwiceMax, hpiMax, hlut, hlarge, -, hentries⟩ := h
  rw [← largePi_shift] at hlarge
  have hlargeRaw : IsRaw c.largePi := hraw _ (by simp)
  have hpiRaw : IsRaw c.pi := hraw _ (by simp)
  have htwiceRaw : IsRaw c.piTimes2 := hraw _ (by simp)
  simp only [IsRaw, rawMin, rawMax] at hpiRaw htwiceRaw hentries
  refine (configOk_iff c).2 ⟨(constantsRaw_iff c).2 hraw,
    ⟨hpos, hhalf, htwice, htwiceMax, hpiMax, hlut, hlarge⟩, ?tan, ?sin⟩
  case tan =>
    by_contra hpast
    obtain ⟨-, htan⟩ := hentries (min c.piOver2 (c.pi - 1)) (by omega)
    exact htan (fTan_noEntry c hlargeRaw hpos hhalf htwice hlut hlarge (not_le.1 hpast))
  case sin =>
    by_contra habove
    obtain ⟨hsin, -⟩ := hentries (-1 - c.piTimes2) (by omega)
    exact hsin (fSin_noEntry c hlargeRaw hpos hhalf htwice hlut (by omega))

/-- Settles O46: COS and FCOS are SIN and FSIN on the shifted angle. -/
theorem tableIndicesInRange : Obligations.TableIndicesInRange :=
  ⟨fun _ => ⟨wellFormedConfig_of_configOk, configOk_of_wellFormedConfig⟩,
    fun c a h => ⟨fSin_answers h a, fSin_answers h (cosAngle c a), fFsin_answers h a,
      fFsin_answers h (cosAngle c a), fTan_answers h a⟩⟩

end Sys2Proof.Machine
end

section
/-!
The obligations on the encoding (spec/30_encoding.md): the decoder against the encoder and the opcode map (R46 to
R52, R56), the illegal words (R53), the step that runs a command (R50), and the constants of LDC (R49).
-/

namespace Sys2Proof

open Machine

/-- Settles O1: the round trip of every format. -/
theorem decodeOfEncode : Obligations.DecodeOfEncode := decode_encode

/-! ## What a format asks of a word, and the command it makes of it -/

/-- What a format asks of the fields RA and RB (R47 to R49, R53). -/
def Format.Admits (w : CmdWord) : Format → Prop
  | .r3 _ => True
  | .r2 _ => rbField w = 0#4
  | .k _ => rbField w = 0#4 ∧ constantIndexOk (raField w) = true

/-- The command a format makes of the fields of a word (R47 to R49). -/
def Format.command (w : CmdWord) : Format → Instr
  | .r3 make => make (rdField w) (raField w) (rbField w)
  | .r2 make => make (rdField w) (raField w)
  | .k make => make (rdField w) (raField w)

/-- The decoding procedure, said once: the opcode selects a format, the ZERO field is zero, and the format admits
the word and makes the command of it (R52). -/
theorem decode_eq_command_iff {w : CmdWord} {i : Instr} : decode w = .command i ↔
    ∃ f, formatOf (opcField w) = some f ∧ zeroField w = 0#12 ∧ f.Admits w ∧ f.command w = i := by
  unfold decode
  cases formatOf (opcField w) with
  | none => simp
  | some f =>
    by_cases hzero : zeroField w = 0#12
    · simp only [hzero, Option.some.injEq, exists_eq_left', ne_eq, not_true_eq_false, if_false, true_and]
      cases f with
      | r3 make => simp [Format.Admits, Format.command]
      | r2 make => by_cases hrb : rbField w = 0#4 <;> simp [Format.Admits, Format.command, hrb]
      | k make =>
        simp only [Format.Admits, Format.command]
        split_ifs <;> simp_all
    · simp [hzero]

/-- The commands of a format, encoded: the opcode before the operands, and LDC's constant index the only operand
that is not legal at every value (R46 to R49, R56). -/
def Format.Encodes (opc : BitVec 8) : Format → Prop
  | .r3 make => ∀ rd ra rb, encode (make rd ra rb) = encodeR3 opc rd ra rb ∧ (make rd ra rb).wellFormed = true
  | .r2 make => ∀ rd ra, encode (make rd ra) = encodeR2 opc rd ra ∧ (make rd ra).wellFormed = true
  | .k make => ∀ rd k, encode (make rd k) = encodeR2 opc rd k ∧ (make rd k).wellFormed = constantIndexOk k

/-- Each opcode is the one its commands are encoded with (R51). -/
theorem encodes_of_formatOf {opc : BitVec 8} {f : Format} (hf : formatOf opc = some f) : f.Encodes opc := by
  unfold formatOf at hf
  split at hf <;> cases hf
  all_goals
    simp only [Format.Encodes]
    intros
    exact ⟨rfl, rfl⟩

/-- Settles O2: a legal word is the join of the fields its command was made of. -/
theorem encodeOfDecode : Obligations.EncodeOfDecode := by
  intro w i h
  obtain ⟨f, hf, hzero, hadmits, rfl⟩ := decode_eq_command_iff.1 h
  have hjoin := encodeFields_fields w hzero
  have hencodes := encodes_of_formatOf hf
  cases f with
  | r3 make =>
    obtain ⟨henc, hwf⟩ := hencodes (rdField w) (raField w) (rbField w)
    exact ⟨henc.trans hjoin, hwf⟩
  | r2 make =>
    obtain ⟨henc, hwf⟩ := hencodes (rdField w) (raField w)
    rw [show rbField w = 0#4 from hadmits] at hjoin
    exact ⟨henc.trans hjoin, hwf⟩
  | k make =>
    obtain ⟨hrb, hk⟩ := hadmits
    obtain ⟨henc, hwf⟩ := hencodes (rdField w) (raField w)
    rw [hrb] at hjoin
    exact ⟨henc.trans hjoin, hwf.trans hk⟩

/-! ## The masks of the opcode table, by the fields of R46 -/

/-- A word is its five fields (R46). -/
theorem word_eq_iff {v w : CmdWord} : v = w ↔ opcField v = opcField w ∧ rdField v = rdField w ∧
    raField v = raField w ∧ rbField v = rbField w ∧ zeroField v = zeroField w := by
  refine ⟨by rintro rfl; simp, fun h => BitVec.eq_of_toNat_eq ?_⟩
  have hv := v.isLt
  have hw := w.isLt
  simp only [opcField, rdField, raField, rbField, zeroField, ← BitVec.toNat_inj, BitVec.extractLsb'_toNat,
    Nat.shiftRight_eq_div_pow] at h
  omega

/-- The pattern of an opcode is the word of that opcode with every other field zero (R51). -/
theorem pattern_eq_encodeFields (opc : BitVec 8) : opc ++ 0#24 = encodeFields opc 0#4 0#4 0#4 := by
  apply BitVec.eq_of_toNat_eq
  rw [encodeFields_toNat, BitVec.toNat_append, ← Nat.shiftLeft_add_eq_or_of_lt (by simp), Nat.shiftLeft_eq]
  simp

/-- A mask is used field by field (R52). -/
theorem mask_iff {w mask : CmdWord} {opc : BitVec 8} : w &&& mask = opc ++ 0#24 ↔
    opcField w &&& opcField mask = opc ∧ rdField w &&& rdField mask = 0#4 ∧ raField w &&& raField mask = 0#4 ∧
      rbField w &&& rbField mask = 0#4 ∧ zeroField w &&& zeroField mask = 0#12 := by
  rw [pattern_eq_encodeFields, word_eq_iff, opcField_encodeFields, rdField_encodeFields, raField_encodeFields,
    rbField_encodeFields, zeroField_encodeFields]
  simp only [opcField, rdField, raField, rbField, zeroField, BitVec.extractLsb'_and]

/-- A mask of ones keeps a field. -/
theorem and_mask {n : Nat} {x ones : BitVec n} (h : ones = BitVec.allOnes n) : x &&& ones = x := by
  rw [h, BitVec.and_allOnes]

/-- The mask of the opcode alone (R52). -/
theorem opcMask_iff {w : CmdWord} {opc : BitVec 8} : w &&& 0xFF000000#32 = opc ++ 0#24 ↔ opcField w = opc := by
  rw [mask_iff, and_mask (ones := opcField 0xFF000000#32) rfl]
  simp [rdField, raField, rbField, zeroField]

/-- The mask of format R3 (R52). -/
theorem maskR3_iff {w : CmdWord} {opc : BitVec 8} : w &&& 0xFF000FFF#32 = opc ++ 0#24 ↔
    opcField w = opc ∧ zeroField w = 0#12 := by
  rw [mask_iff, and_mask (ones := opcField 0xFF000FFF#32) rfl, and_mask (ones := zeroField 0xFF000FFF#32) rfl]
  simp [rdField, raField, rbField]

/-- The mask of formats R2 and K (R52). -/
theorem maskR2_iff {w : CmdWord} {opc : BitVec 8} : w &&& 0xFF00FFFF#32 = opc ++ 0#24 ↔
    opcField w = opc ∧ rbField w = 0#4 ∧ zeroField w = 0#12 := by
  rw [mask_iff, and_mask (ones := opcField 0xFF00FFFF#32) rfl, and_mask (ones := rbField 0xFF00FFFF#32) rfl,
    and_mask (ones := zeroField 0xFF00FFFF#32) rfl]
  simp [rdField, raField]

/-! ## The rows of the opcode table -/

/-- The row of the opcode table for an opcode of a format (R51). -/
def Format.row (opc : BitVec 8) : Format → OpcodeRow
  | .r3 make => rowR3 opc make
  | .r2 make => rowR2 opc make
  | .k make => rowK opc make

/-- The row is the row of an assigned opcode. -/
def IsFormatRow (r : OpcodeRow) : Prop := ∃ opc f, formatOf opc = some f ∧ r = f.row opc

/-- A row of format R3 is the row of its opcode, where that selects its command in format R3. -/
theorem isFormatRow_rowR3 {opc : BitVec 8} {make : Reg → Reg → Reg → Instr}
    (h : formatOf opc = some (.r3 make)) : IsFormatRow (rowR3 opc make) := ⟨_, _, h, rfl⟩

/-- A row of format R2 is the row of its opcode, where that selects its command in format R2. -/
theorem isFormatRow_rowR2 {opc : BitVec 8} {make : Reg → Reg → Instr} (h : formatOf opc = some (.r2 make)) :
    IsFormatRow (rowR2 opc make) := ⟨_, _, h, rfl⟩

/-- A row of format K is the row of its opcode, where that selects its command in format K. -/
theorem isFormatRow_rowK {opc : BitVec 8} {make : Reg → BitVec 4 → Instr} (h : formatOf opc = some (.k make)) :
    IsFormatRow (rowK opc make) := ⟨_, _, h, rfl⟩

/-- Every row of the table is the row of an assigned opcode (R51). -/
theorem isFormatRow_of_mem : ∀ r ∈ opcodeRows, IsFormatRow r := by
  simp [opcodeRows, isFormatRow_rowR3, isFormatRow_rowR2, isFormatRow_rowK, formatOf]

/-- Every assigned opcode has its row in the table (R51). -/
theorem row_mem_opcodeRows {opc : BitVec 8} {f : Format} (hf : formatOf opc = some f) : f.row opc ∈ opcodeRows := by
  unfold formatOf at hf
  split at hf <;> cases hf <;> simp [Format.row, opcodeRows]

/-- Every row has its opcode for pattern (R51). -/
theorem pattern_row (opc : BitVec 8) (f : Format) : (f.row opc).pattern = opc ++ 0#24 := by
  cases f <;> rfl

/-- A row reads a word as its format does. -/
theorem read_row (opc : BitVec 8) (f : Format) (w : CmdWord) : (f.row opc).read w = f.command w := by
  cases f <;> rfl

/-- A match is one of the fixed bits and of the RA field (R52). -/
theorem matches_iff {r : OpcodeRow} {w : CmdWord} :
    r.Matches w ↔ w &&& r.mask = r.pattern ∧ (raField w).toNat ≤ r.raMax := Iff.rfl

/-- A word matches a row where the opcode is the row's and the format admits the word (R52). -/
theorem matches_row_iff {opc : BitVec 8} {f : Format} {w : CmdWord} :
    (f.row opc).Matches w ↔ opcField w = opc ∧ zeroField w = 0#12 ∧ f.Admits w := by
  have hra : (raField w).toNat ≤ 15 := Nat.le_of_lt_succ (raField w).isLt
  rw [matches_iff]
  cases f with
  | r3 make => simp [Format.row, rowR3, maskR3_iff, Format.Admits, hra]
  | r2 make => simp [Format.row, rowR2, maskR2_iff, Format.Admits, hra, and_comm]
  | k make => simp [Format.row, rowK, maskR2_iff, Format.Admits, constantIndexOk, and_assoc, and_left_comm]

/-- A word with the fixed bits of a row has its opcode (R52). -/
theorem opcField_of_fixed_bits {opc : BitVec 8} {f : Format} {w : CmdWord}
    (h : w &&& (f.row opc).mask = (f.row opc).pattern) : opcField w = opc := by
  cases f with
  | r3 make => exact (maskR3_iff.1 h).1
  | r2 make | k make => exact (maskR2_iff.1 h).1

/-- Settles O3: the rows are those of the formats, and a format is found by its opcode. -/
theorem opcodeTableDecodes : Obligations.OpcodeTableDecodes := by
  refine fun w => ⟨fun r hr hmatch => ?matching, fun i hi => ?decoding, fun r hr q hq hwr hwq => ?unique⟩
  case matching =>
    obtain ⟨opc, f, hf, rfl⟩ := isFormatRow_of_mem r hr
    obtain ⟨rfl, hzero, hadmits⟩ := matches_row_iff.1 hmatch
    exact decode_eq_command_iff.2 ⟨f, hf, hzero, hadmits, (read_row _ f w).symm⟩
  case decoding =>
    obtain ⟨f, hf, hzero, hadmits, rfl⟩ := decode_eq_command_iff.1 hi
    exact ⟨_, row_mem_opcodeRows hf, matches_row_iff.2 ⟨rfl, hzero, hadmits⟩, (read_row _ f w).symm⟩
  case unique =>
    obtain ⟨opc, f, hf, rfl⟩ := isFormatRow_of_mem r hr
    obtain ⟨opc', g, hg, rfl⟩ := isFormatRow_of_mem q hq
    obtain rfl := opcField_of_fixed_bits hwr
    obtain rfl := opcField_of_fixed_bits hwq
    rw [Option.some.inj (hf.symm.trans hg)]

/-! ## The illegal words -/

/-- The opcode of a word is unassigned where it is no row's (R53 (a)). -/
theorem formatOf_eq_none_iff {w : CmdWord} :
    formatOf (opcField w) = none ↔ ∀ r ∈ opcodeRows, w &&& 0xFF000000#32 ≠ r.pattern := by
  constructor
  · intro hnone r hr hpattern
    obtain ⟨opc, f, hf, rfl⟩ := isFormatRow_of_mem r hr
    rw [pattern_row, opcMask_iff] at hpattern
    simp [← hpattern, hnone] at hf
  · intro hall
    by_contra hsome
    obtain ⟨f, hf⟩ := Option.ne_none_iff_exists'.1 hsome
    exact hall _ (row_mem_opcodeRows hf) (by rw [pattern_row, opcMask_iff])

/-- The row with the opcode of a word is the row of the format the opcode selects (R52). -/
theorem exists_row_iff {w : CmdWord} {f : Format} (hf : formatOf (opcField w) = some f) {mask : CmdWord} :
    (∃ r ∈ opcodeRows, r.mask = mask ∧ w &&& 0xFF000000#32 = r.pattern) ↔ (f.row (opcField w)).mask = mask := by
  constructor
  · rintro ⟨r, hr, hmask, hpattern⟩
    obtain ⟨opc, g, hg, rfl⟩ := isFormatRow_of_mem r hr
    rw [pattern_row, opcMask_iff] at hpattern
    subst hpattern
    rwa [Option.some.inj (hf.symm.trans hg)]
  · exact fun hmask => ⟨_, row_mem_opcodeRows hf, hmask, by rw [pattern_row, opcMask_iff]⟩

/-- The opcode of LDC is the one of format K (R49, R51). -/
theorem eq_ldcOpcode_iff {opc : BitVec 8} {f : Format} (hf : formatOf opc = some f) :
    opc = 0x1C#8 ↔ ∃ make, f = .k make := by
  constructor
  · rintro rfl
    cases hf
    exact ⟨_, rfl⟩
  · rintro ⟨make, rfl⟩
    unfold formatOf at hf
    split at hf <;> cases hf
    rfl

/-- A word is illegal where no format takes it: decoding answers a command or a reason (R52, R53). -/
theorem exists_illegal_iff {w : CmdWord} : (∃ r, decode w = .illegal r) ↔
    ¬ ∃ f, formatOf (opcField w) = some f ∧ zeroField w = 0#12 ∧ f.Admits w := by
  have hcommand : (∃ r, decode w = .illegal r) ↔ ¬ ∃ i, decode w = .command i := by
    cases decode w <;> simp
  rw [hcommand]
  simp [decode_eq_command_iff]

/-- The four illegal cases of a command word, by the opcode table and the fields of R46 (R53). -/
def ListedIllegal (w : CmdWord) : Prop :=
  (∀ r ∈ opcodeRows, w &&& 0xFF000000#32 ≠ r.pattern) ∨ zeroField w ≠ 0#12 ∨
    (rbField w ≠ 0#4 ∧ ∃ r ∈ opcodeRows, r.mask = 0xFF00FFFF#32 ∧ w &&& 0xFF000000#32 = r.pattern) ∨
    (w &&& 0xFF000000#32 = 0x1C000000#32 ∧ (raField w).toNat > 10)

/-- The decoder refuses a word exactly in the cases R53 lists. -/
theorem exists_illegal_iff_listed {w : CmdWord} : (∃ r, decode w = .illegal r) ↔ ListedIllegal w := by
  have hldc : w &&& 0xFF000000#32 = 0x1C000000#32 ↔ opcField w = 0x1C#8 :=
    opcMask_iff (opc := 0x1C#8)
  rw [exists_illegal_iff, ListedIllegal, ← formatOf_eq_none_iff, hldc]
  cases hf : formatOf (opcField w) with
  | none => simp
  | some f =>
    rw [exists_row_iff hf, eq_ldcOpcode_iff hf]
    simp only [Option.some.injEq, exists_eq_left', not_and_or]
    cases f with
    | r3 make => simp [Format.Admits, Format.row, rowR3]
    | r2 make => simp [Format.Admits, Format.row, rowR2]
    | k make => simp [Format.Admits, Format.row, rowK, imp_iff_not_or, constantIndexOk]

end Sys2Proof

namespace Sys2Proof.Machine

/-! ## A CMD write to a ready unit -/

/-- A ready unit refuses an illegal CMD write with an IllegalCommand (R50, R53). -/
theorem issue_illegal (run : Instr → State → Result) {v : Word} {s : State} (he : s.err = .none)
    (h : v.extractLsb' 32 32 ≠ 0#32 ∨ ∃ r, decode (v.extractLsb' 0 32) = .illegal r) :
    issue run v s = .next (s.raise .illegalCommand (v.extractLsb' 0 32)) := by
  rcases issue_cases run v s with ⟨hne, -⟩ | ⟨-, -, hissue⟩ | ⟨-, hupper, i, hi, -⟩
  · exact absurd he hne
  · exact hissue
  · simp [hupper, hi] at h

/-- Settles O6. -/
theorem stepRunsDecodedCommand : Obligations.StepRunsDecodedCommand := by
  intro s i v rest hready hinbox hupper hdecode
  rw [step_write hinbox, hostWrite_cmd]
  exact issue_command exec hready hupper hdecode

/-- Settles O5: the decoder refuses exactly the words listed. -/
theorem illegalCommandCases : Obligations.IllegalCommandCases := by
  intro s v rest hready hinbox w opc illegal
  have hillegal : illegal ↔ v.extractLsb' 32 32 ≠ 0#32 ∨ ∃ r, decode w = .illegal r :=
    or_congr_right exists_illegal_iff_listed.symm
  rw [hillegal]
  constructor
  · intro h
    rw [step_write hinbox, hostWrite_cmd]
    exact ⟨_, issue_illegal exec hready h, raisesOnly_raise _ _ _⟩
  · intro h
    obtain ⟨hupper, hlegal⟩ := not_or.1 h
    cases hdecode : decode w with
    | illegal r => exact absurd ⟨r, hdecode⟩ hlegal
    | command i => exact ⟨i, rfl, stepRunsDecodedCommand s i v rest hready hinbox (not_not.1 hupper) hdecode⟩

/-! ## The words the spec writes out -/

/-- Settles O4: the decoder is evaluated on each word. -/
theorem encodingExamples : Obligations.EncodingExamples := by
  unfold Obligations.EncodingExamples
  decide

/-! ## The constants of LDC -/

/-- LDC completes with the constant its index names under the defaults (R82). -/
theorem completes_ldc (s : State) (rd : Reg) {k : BitVec 4} {w : Word} (hk : constantIndexOk k = true)
    (hc : constant defaults k = some w.raw) : Completes (.ldc rd k) s rd w := by
  refine completes_of_answer_raw (i := .ldc rd k) hk ?_
  have hfmu : constant fmu.cfg k = some w.raw := hc
  simp only [answer, hfmu]

/-- Settles O33: each index up to 10 names its constant among the defaults. -/
theorem ldcConstants : Obligations.LdcConstants := by
  intro s rd
  and_intros <;> exact completes_ldc s rd rfl rfl

end Sys2Proof.Machine
end

section
/-!
The obligations on the arithmetic core (spec/40_arith.md): addition, multiplication, division, remainder and
negation in closed form, the fast commands inside and outside their safe ranges (R83), the compares and the
conversions.
-/

namespace Sys2Proof.Machine

/-! ## The safe ranges of the fast commands -/

/-- A function that answers a value draws none. -/
theorem Res.ne_any_of_value {r : Res} (h : ∃ v, r = .value v) : r ≠ .any := by
  obtain ⟨v, rfl⟩ := h
  simp

/-- A composition draws only where one of its parts does. -/
theorem Res.andThen_ne_any {r : Res} {f : Int → Res} (hr : r ≠ .any) (hf : ∀ v, f v ≠ .any) :
    r.andThen f ≠ .any := by
  cases r <;> simp_all [Res.andThen]

/-- LOG2 draws nothing. -/
theorem fLog2_ne_any (a : Int) : fLog2 a ≠ .any := by
  simp only [fLog2]
  split_ifs <;> simp

/-- POW draws nothing: the short-circuits answer at once, a positive base has a power, and LOG2 raises for a negative
one (R110, R111). -/
theorem fPow_ne_any {b e : Int} (hb : IsRaw b) (he : IsRaw e) : fPow defaults b e ≠ .any := by
  by_cases hpos : 0 < b
  · exact Res.ne_any_of_value ((fPow_positive b e hb he hpos).imp fun _ h => h.1)
  · have hlog : fLog2 b = .domainError := if_pos (not_lt.1 hpos)
    simp only [fPow, hlog, Res.andThen]
    split_ifs <;> simp

/-- ACOS draws nothing. -/
theorem fAcos_ne_any (a : Int) : fAcos defaults a ≠ .any := by
  by_cases hdom : a < -rawOne ∨ a > rawOne
  · simp [fAcos, hdom]
  · obtain ⟨hlower, hupper⟩ := not_or.1 hdom
    exact Res.ne_any_of_value ((fAcos_spec a (not_lt.1 hlower) (not_lt.1 hupper)).imp fun _ h => h.1)

/-- Inside its safe range no command's function answers `ANY` (R83). -/
theorem answer_ne_any {s : State} {i : Instr} (hsafe : InSafeRange s i) : answer fmu s i ≠ .any := by
  have hraw := s.rawX_isRaw
  cases i <;> simp only [answer, ne_eq, reduceCtorEq, not_false_eq_true]
  case fadd => exact Res.ne_any_of_value ⟨_, if_pos hsafe⟩
  case fsub => exact Res.ne_any_of_value ⟨_, if_pos hsafe⟩
  case fmul => exact Res.ne_any_of_value ⟨_, if_pos hsafe⟩
  case fmod => rw [fFmod, if_neg hsafe]; split_ifs <;> simp
  case div => simp only [fDiv]; split_ifs <;> simp
  case mod => simp only [fMod]; split_ifs <;> simp
  case itof => simp only [fItof]; split_ifs <;> simp
  case ldc => split <;> simp
  case sqrt => simp only [fSqrt]; split_ifs <;> simp
  case log2 => exact fLog2_ne_any _
  case ln => exact Res.andThen_ne_any (fLog2_ne_any _) fun v => by simp
  case pow2 => exact Res.ne_any_of_value ((fPow2_spec _ (hraw _)).imp fun _ h => h.1)
  case pow => exact fPow_ne_any (hraw _) (hraw _)
  case sin => exact Res.ne_any_of_value (fSin_answers fmu.ok _)
  case cos => exact Res.ne_any_of_value (fSin_answers fmu.ok _)
  case tan => exact Res.ne_any_of_value (fTan_answers fmu.ok _)
  case fsin => exact Res.ne_any_of_value (fFsin_answers fmu.ok _)
  case fcos => exact Res.ne_any_of_value (fFsin_answers fmu.ok _)
  case acos => exact fAcos_ne_any _
  case atan => exact Res.ne_any_of_value ((fAtan_value _ (hraw _)).imp' _ fun _ h => h.1)
  case atan2 => exact Res.ne_any_of_value ((fAtan2_spec _ _ (hraw _) (hraw _)).imp fun _ h => h.1)

/-- A completion that draws nothing is the same whatever the count of draws, and leaves the count alone (R50). -/
theorem finish_of_ne_any {w : CmdWord} {rd : Reg} {r : Res} {s t : State} (hr : r ≠ .any)
    (h : finish w rd r s = .next t) (n : Nat) :
    finish w rd r { s with draws := n } = .next { t with draws := n } ∧ t.draws = s.draws := by
  rcases finish_next h with ⟨v, rfl, rfl⟩ | ⟨rfl, -⟩ | ⟨rfl, rfl⟩ | ⟨rfl, rfl⟩
  · exact ⟨rfl, rfl⟩
  · exact absurd rfl hr
  · exact ⟨rfl, rfl⟩
  · exact ⟨rfl, rfl⟩

/-- Settles O23: a command inside its safe range is the completion of an answer that reads no draw; an LDC with a
reserved index raises. -/
theorem safeCommandsReproducible : Obligations.SafeCommandsReproducible := by
  intro i s t n hsafe h
  by_cases hw : i.wellFormed = true
  · rw [exec_eq_finish i s hw] at h
    rw [exec_eq_finish i _ hw, answer_congr fmu (s := { s with draws := n }) (t := s) fun _ _ => rfl]
    exact finish_of_ne_any (answer_ne_any hsafe) h n
  · rw [exec_of_not_wellFormed s hw, Host.Outcome.next.injEq] at h
    rw [exec_of_not_wellFormed _ hw]
    subst h
    exact ⟨rfl, rfl⟩

/-! ## Add, subtract, negate -/

/-- Saturation as the nearest raw value (R8). -/
theorem clamp_eq_max_min (v : Int) : clamp v = max rawMin (min rawMax v) := by
  simp only [clamp, rawMin, rawMax]
  split_ifs <;> omega

/-- A value above the raw range saturates to `MAX` (R8). -/
theorem clamp_of_gt {v : Int} (h : rawMax < v) : clamp v = rawMax := if_pos h

/-- A value below the raw range saturates to `MIN` (R8). -/
theorem clamp_of_lt {v : Int} (h : v < rawMin) : clamp v = rawMin := by
  have hmax : ¬ v > rawMax := not_lt.2 (h.le.trans (by decide))
  rw [clamp, if_neg hmax, if_pos h]

/-- The wrapped sum of two words holds the sum of their raw values modulo `2^64` (R8). -/
theorem add_eq_ofRaw (a b : Word) : a + b = Word.ofRaw (a.toInt + b.toInt) := by
  rw [Word.ofRaw, BitVec.ofInt_add, BitVec.ofInt_toInt, BitVec.ofInt_toInt]

/-- The wrapped difference of two words holds the difference of their raw values modulo `2^64` (R8). -/
theorem sub_eq_ofRaw (a b : Word) : a - b = Word.ofRaw (a.toInt - b.toInt) := by
  rw [Word.ofRaw, sub_eq_add_neg a.toInt, BitVec.ofInt_add, BitVec.ofInt_neg, BitVec.ofInt_toInt, BitVec.ofInt_toInt,
    BitVec.sub_eq_add_neg]

/-- A word holding `v`, replaced by the end of the raw range on `v`'s side where `v` lies outside, holds the saturated
`v` (R61, R62). -/
theorem toInt_saturating {overflow : Prop} [Decidable overflow] {negative : Bool} {w : Word} {v : Int}
    (hw : w = Word.ofRaw v) (hover : overflow ↔ ¬ IsRaw v) (hneg : overflow → (negative = true ↔ v < 0)) :
    (if overflow then (if negative then 0x8000000000000000#64 else 0x7FFFFFFFFFFFFFFF#64) else w).toInt =
      clamp v := by
  by_cases h : overflow
  · have hout : ¬ (rawMin ≤ v ∧ v ≤ rawMax) := hover.1 h
    have hzero : rawMin ≤ 0 ∧ 0 ≤ rawMax := by decide
    rw [if_pos h]
    cases negative
    case false =>
      have hv : ¬ v < 0 := by simpa using hneg h
      exact (clamp_of_gt (by omega)).symm
    case true =>
      have hv : v < 0 := by simpa using hneg h
      exact (clamp_of_lt (by omega)).symm
  · have hraw : IsRaw v := not_not.1 (mt hover.2 h)
    rw [if_neg h, clamp_of_isRaw hraw, hw]
    exact raw_ofRaw hraw

/-- A word that holds `v` modulo `2^64` has the sign bit of the wrapped `v`. -/
theorem msb_of_eq_ofRaw {w : Word} {v : Int} (hw : w = Word.ofRaw v) : w.msb = decide (wrap64 v < 0) := by
  rw [hw, BitVec.msb_eq_toInt]
  rfl

/-- R61's test: the sum leaves the raw range exactly where the operands share a sign that the wrapped sum does not have,
and then on the side of that sign. -/
theorem add_overflow_iff (a b : Word) :
    ((a.msb = b.msb ∧ (a + b).msb ≠ a.msb) ↔ ¬ IsRaw (a.toInt + b.toInt)) ∧
      (a.msb = b.msb ∧ (a + b).msb ≠ a.msb → (a.msb = true ↔ a.toInt + b.toInt < 0)) := by
  have ha := a.le_toInt
  have ha' := a.toInt_lt
  have hb := b.le_toInt
  have hb' := b.toInt_lt
  obtain ⟨k, hk, hlower, hupper⟩ := wrap64_spec (a.toInt + b.toInt)
  rw [msb_of_eq_ofRaw (add_eq_ofRaw a b)]
  simp only [BitVec.msb_eq_toInt, IsRaw, rawMin, rawMax, ne_eq, decide_eq_decide, decide_eq_true_eq]
  omega

/-- R62's test: the difference leaves the raw range exactly where the operands differ in sign and the wrapped difference
does not have the first one's, and then on the side of that sign. -/
theorem sub_overflow_iff (a b : Word) :
    ((a.msb ≠ b.msb ∧ (a - b).msb ≠ a.msb) ↔ ¬ IsRaw (a.toInt - b.toInt)) ∧
      (a.msb ≠ b.msb ∧ (a - b).msb ≠ a.msb → (a.msb = true ↔ a.toInt - b.toInt < 0)) := by
  have ha := a.le_toInt
  have ha' := a.toInt_lt
  have hb := b.le_toInt
  have hb' := b.toInt_lt
  obtain ⟨k, hk, hlower, hupper⟩ := wrap64_spec (a.toInt - b.toInt)
  rw [msb_of_eq_ofRaw (sub_eq_ofRaw a b)]
  simp only [BitVec.msb_eq_toInt, IsRaw, rawMin, rawMax, ne_eq, decide_eq_decide, decide_eq_true_eq]
  omega

/-- Settles O24. -/
theorem addSubSaturate : Obligations.AddSubSaturate := by
  intro s rd ra rb a b sum difference
  have hsum : sum.toInt = clamp (a.toInt + b.toInt) :=
    toInt_saturating (add_eq_ofRaw a b) (add_overflow_iff a b).1 (add_overflow_iff a b).2
  have hdiff : difference.toInt = clamp (a.toInt - b.toInt) :=
    toInt_saturating (sub_eq_ofRaw a b) (sub_overflow_iff a b).1 (sub_overflow_iff a b).2
  refine ⟨?add, ?sub, hsum.trans (clamp_eq_max_min _), hdiff.trans (clamp_eq_max_min _)⟩
  case add => exact completes_of_answer_raw (i := .add rd ra rb) rfl (congrArg Res.value hsum.symm)
  case sub => exact completes_of_answer_raw (i := .sub rd ra rb) rfl (congrArg Res.value hdiff.symm)

/-- Settles O25. -/
theorem fastAddSub : Obligations.FastAddSub := by
  intro s rd ra rb a b
  refine ⟨fun h => ?add, fun h => ?addAny, fun h => ?sub, fun h => ?subAny⟩
  case add => exact completes_of_answer (i := .fadd rd ra rb) rfl (if_pos h)
  case addAny => exact completesAny_of_answer (i := .fadd rd ra rb) rfl (if_neg h)
  case sub => exact completes_of_answer (i := .fsub rd ra rb) rfl (if_pos h)
  case subAny => exact completesAny_of_answer (i := .fsub rd ra rb) rfl (if_neg h)

/-- F_NEG is the negation of the word, saturated at `MIN` (R73). -/
theorem fNeg_toInt (w : Word) :
    fNeg w.toInt = (if w = 0x8000000000000000#64 then 0x7FFFFFFFFFFFFFFF#64 else -w).toInt := by
  by_cases h : w = 0x8000000000000000#64
  · subst h
    rfl
  · have hmin : w.toInt ≠ rawMin := fun hw => h (BitVec.toInt_inj.1 hw)
    rw [if_neg h, fNeg, if_neg hmin, BitVec.toInt_neg_of_ne_intMin h]

/-- Settles O30. -/
theorem negNegates : Obligations.NegNegates := by
  intro s rd ra
  exact completes_of_answer_raw (i := .neg rd ra) rfl (congrArg Res.value (fNeg_toInt (s.readX ra)))

/-! ## Multiply -/

/-- The band of the statements is the band of the multiplier's laws (R67). -/
theorem inMulBand_eq : InMulBand = mulBand := rfl

/-- On the band the floor product is representable and lies just below `MAX` (R67). -/
theorem mulfloor_of_mulBand {a b : Int} (h : mulBand a b ∨ mulBand b a) :
    0x7FFFFFFF80000000 ≤ mulfloor a b ∧ mulfloor a b ≤ 0x7FFFFFFFFFFFFFFE := by
  rcases h with ⟨rfl, hlower, hupper⟩ | ⟨rfl, hlower, hupper⟩ <;> simp only [mulfloor] <;> omega

/-- MUL by `ONE` is exact (R67). -/
theorem fMul_one {a : Int} (ha : IsRaw a) : fMul a rawOne = a := by
  have hone : IsRaw rawOne := by decide
  have hfloor : mulfloor a rawOne = a := Int.mul_ediv_cancel a (by decide)
  have hband : ¬ (mulBand a rawOne ∨ mulBand rawOne a) := by simp only [mulBand, rawOne]; omega
  rw [fMul_closed a rawOne ha hone hband, hfloor, clamp_of_isRaw ha]

/-- MUL does not depend on the order of its operands (R65 to R67). -/
theorem fMul_comm {a b : Int} (ha : IsRaw a) (hb : IsRaw b) : fMul a b = fMul b a := by
  by_cases h : mulBand a b ∨ mulBand b a
  · rw [fMul_band a b h, fMul_band b a h.symm]
  · rw [fMul_closed a b ha hb h, fMul_closed b a hb ha (mt Or.symm h), mulfloor, mulfloor, mul_comm]

section
variable (s : State) (rd ra rb : Reg)

/-- On the band MUL completes with `MAX` (R67). -/
theorem completes_mul_band (h : mulBand (s.rawX ra) (s.rawX rb) ∨ mulBand (s.rawX rb) (s.rawX ra)) :
    Completes (.mul rd ra rb) s rd 0x7FFFFFFFFFFFFFFF#64 :=
  completes_of_answer_raw (i := .mul rd ra rb) rfl (congrArg Res.value (fMul_band _ _ h))

/-- Off the band MUL completes with the saturated floor product (R67). -/
theorem completes_mul_closed (h : ¬ (mulBand (s.rawX ra) (s.rawX rb) ∨ mulBand (s.rawX rb) (s.rawX ra))) :
    Completes (.mul rd ra rb) s rd (Word.ofRaw (clamp (mulfloor (s.rawX ra) (s.rawX rb)))) :=
  completes_of_answer (i := .mul rd ra rb) rfl
    (congrArg Res.value (fMul_closed _ _ (s.rawX_isRaw ra) (s.rawX_isRaw rb) h))

end

/-- Settles O26. -/
theorem mulCharacterised : Obligations.MulCharacterised := by
  intro s rd ra rb a b p
  rw [inMulBand_eq]
  have ha : IsRaw a := s.rawX_isRaw ra
  have hb : IsRaw b := s.rawX_isRaw rb
  refine ⟨fun h => ⟨completes_mul_band s rd ra rb h, mulfloor_of_mulBand h⟩, fun h => ?closed, fun h => ?one_right,
    fun h => ?one_left⟩
  case closed =>
    rw [← clamp_eq_max_min]
    exact completes_mul_closed s rd ra rb h
  case one_right =>
    have hmul : fMul a b = a := by rw [h, fMul_one ha]
    exact completes_of_answer_raw (i := .mul rd ra rb) rfl (congrArg Res.value hmul)
  case one_left =>
    have hmul : fMul a b = b := by rw [fMul_comm ha hb, h, fMul_one hb]
    exact completes_of_answer_raw (i := .mul rd ra rb) rfl (congrArg Res.value hmul)

/-! ## Divide and modulo -/

/-- The closed form of R70 in integers. -/
theorem divide_closed_abs {a b : Int} (ha : IsRaw a) (hb : IsRaw b) (h0 : b ≠ 0) :
    divide a b =
      if 9223372036854775808 * |b| ≤ |a| * 4294967296 then (if (a < 0) ≠ (b < 0) then rawMin else rawMax)
      else (if (a < 0) ≠ (b < 0) then -1 else 1) * ((2 * (|a| * 4294967296) + |b|) / (2 * |b|)) := by
  rw [divide_closed a b ha hb h0, quotientMagnitude, Int.abs_eq_natAbs, Int.abs_eq_natAbs]
  norm_cast

/-- Settles O28: the four cases of the closed form. -/
theorem divClosedForm : Obligations.DivClosedForm := by
  intro s rd ra rb a b n negative
  have hclosed := divide_closed_abs (s.rawX_isRaw ra) (s.rawX_isRaw rb)
  have hanswer : b ≠ 0 → answer fmu s (.div rd ra rb) = .value (divide a b) := fDiv_of_ne a b
  refine ⟨fun h => ?zero, fun h hsat => ⟨fun hneg => ?min, fun hpos => ?max⟩,
    fun h hlt => ⟨fun hneg => ?negative, fun hpos => ?positive⟩⟩
  case zero => exact raises_of_divideByZero (i := .div rd ra rb) rfl (if_pos h)
  case min =>
    refine completes_of_answer_raw (i := .div rd ra rb) rfl ?_
    rw [hanswer h, hclosed h, if_pos hsat, if_pos hneg]
    rfl
  case max =>
    refine completes_of_answer_raw (i := .div rd ra rb) rfl ?_
    rw [hanswer h, hclosed h, if_pos hsat, if_neg hpos]
    rfl
  case negative =>
    refine completes_of_answer (i := .div rd ra rb) rfl ?_
    rw [hanswer h, hclosed h, if_neg (not_le.2 hlt), if_pos hneg, neg_one_mul]
  case positive =>
    refine completes_of_answer (i := .div rd ra rb) rfl ?_
    rw [hanswer h, hclosed h, if_neg (not_le.2 hlt), if_neg hpos, one_mul]

/-- MOD by a non-zero divisor is the truncating remainder, on the guarded pair as well (R71). -/
theorem fMod_of_ne {a b : Int} (h : b ≠ 0) : fMod a b = .value (trem a b) := by
  rw [fMod, if_neg h]
  split_ifs with hguard
  · obtain ⟨rfl, rfl⟩ := hguard
    rfl
  · rfl

/-- The truncating remainder is smaller than the divisor (R8). -/
theorem abs_trem_lt (a : Int) {b : Int} (h : b ≠ 0) : |trem a b| < |b| := by
  rw [trem, Int.abs_eq_natAbs, Int.abs_eq_natAbs, Int.natAbs_tmod]
  exact_mod_cast Nat.mod_lt _ (Int.natAbs_pos.2 h)

/-- The truncating remainder of a dividend that is not positive is not positive (R8). -/
theorem trem_nonpos {a : Int} (b : Int) (h : a ≤ 0) : trem a b ≤ 0 := by
  have hneg : 0 ≤ (-a).tmod b := Int.tmod_nonneg b (neg_nonneg.2 h)
  rw [Int.neg_tmod] at hneg
  exact neg_nonneg.1 hneg

/-- Settles O29: the quotient of the truncating division is the multiple taken off. -/
theorem modRemainder : Obligations.ModRemainder := by
  intro s rd ra rb a b
  refine ⟨fun h => ?zero, fun ha hb => ?guard, fun h => ⟨trem a b, a.tdiv b, ?remainder, ?equation, abs_trem_lt a h,
    Int.tmod_nonneg b, trem_nonpos b⟩⟩
  case zero => exact raises_of_divideByZero (i := .mod rd ra rb) rfl (if_pos h)
  case guard =>
    have hmod : fMod a b = .value 0 := by rw [ha, hb]; rfl
    exact completes_of_answer_raw (i := .mod rd ra rb) rfl hmod
  case remainder => exact completes_of_answer (i := .mod rd ra rb) rfl (fMod_of_ne h)
  case equation => exact (Int.mul_tdiv_add_tmod a b).symm

/-- Settles O27. -/
theorem fastMulMod : Obligations.FastMulMod := by
  intro s rd ra rb a b p
  rw [inMulBand_eq]
  refine ⟨fun h => ?fmul, fun h => ?fmulAny, fun h hband => ?mul, fun _ => completes_mul_band s rd ra rb,
    fun h => ?zero, fun h => ?guard, fun h hguard => ?fmod⟩
  case fmul => exact completes_of_answer (i := .fmul rd ra rb) rfl (if_pos h)
  case fmulAny => exact completesAny_of_answer (i := .fmul rd ra rb) rfl (if_neg h)
  case mul =>
    rw [← clamp_of_isRaw h]
    exact completes_mul_closed s rd ra rb hband
  case zero => exact raises_of_divideByZero (i := .fmod rd ra rb) rfl (if_pos h)
  case guard =>
    have hb : b ≠ 0 := by rw [h.2]; decide
    exact completesAny_of_answer (i := .fmod rd ra rb) rfl ((if_neg hb).trans (if_pos h))
  case fmod =>
    rw [← Int.tmod_def]
    exact completes_of_answer (i := .fmod rd ra rb) rfl ((if_neg h).trans (if_neg hguard))

/-! ## Compares -/

/-- The integer of a truth value as a word (R74). -/
theorem truth_eq_raw (c : Bool) : truth c = (if c then 1#64 else 0#64 : Word).raw := by
  cases c <;> rfl

/-- A command whose function answers a truth value completes with the word 1 or 0. -/
theorem completes_of_answer_truth {i : Instr} {s : State} {c d : Bool} (hw : i.wellFormed = true)
    (h : answer fmu s i = .value (truth c)) (hc : c = d) :
    Completes i s (destination i) (if d then 1#64 else 0#64) :=
  completes_of_answer_raw hw (by rw [h, hc, truth_eq_raw])

/-- Two words are equal where they stand for the same raw value (R11). -/
theorem decide_raw_eq (a b : Word) : decide (a.raw = b.raw) = (a == b) := by
  rw [Bool.eq_iff_iff, decide_eq_true_iff, beq_iff_eq]
  exact BitVec.toInt_inj

/-- Exactly one of less, equal and greater holds of two words (R79). -/
theorem slt_trichotomy (a b : Word) : (a.slt b).toNat + (a == b).toNat + (b.slt a).toNat = 1 := by
  rw [← decide_raw_eq, BitVec.slt_eq_decide, BitVec.slt_eq_decide]
  rcases lt_trichotomy a.toInt b.toInt with h | h | h
  · simp [Word.raw, h, h.ne, h.not_gt]
  · simp [Word.raw, h]
  · simp [Word.raw, h, h.ne', h.not_gt]

/-- Settles O31. -/
theorem compareResults : Obligations.CompareResults := by
  intro s rd ra rb a b bit
  refine ⟨?ceq, ?cne, ?clt, ?cle, ?cgt, ?cge, slt_trichotomy a b⟩
  case ceq => exact completes_of_answer_truth (i := .ceq rd ra rb) rfl rfl (decide_raw_eq a b)
  case cne =>
    refine completes_of_answer_truth (i := .cne rd ra rb) rfl rfl ?_
    rw [decide_not]
    exact congrArg not (decide_raw_eq a b)
  case clt => exact completes_of_answer_truth (i := .clt rd ra rb) rfl rfl rfl
  case cle => exact completes_of_answer_truth (i := .cle rd ra rb) rfl rfl rfl
  case cgt => exact completes_of_answer_truth (i := .cgt rd ra rb) rfl rfl rfl
  case cge => exact completes_of_answer_truth (i := .cge rd ra rb) rfl rfl rfl

/-! ## Conversions -/

/-- The raw value of an integer in ITOF's range is the shifted word (R80). -/
theorem ofRaw_mul_one (w : Word) : Word.ofRaw (w.raw * 4294967296) = w <<< 32 := by
  rw [BitVec.shiftLeft_eq_mul_twoPow, Word.ofRaw, BitVec.ofInt_mul, Word.raw, BitVec.ofInt_toInt]
  rfl

/-- ITOF completes on the integers it can convert (R80). -/
theorem fItof_of_mem {n : Int} (hlower : -2147483648 ≤ n) (hupper : n ≤ 2147483647) :
    fItof n = .value (n * 4294967296) := if_neg (by omega)

/-- FTOI is the arithmetic shift of the word (R81). -/
theorem fFtoi_toInt (w : Word) : fFtoi w.toInt = (w.sshiftRight 32).toInt := by
  rw [BitVec.toInt_sshiftRight, Int.shiftRight_eq_div_pow, fFtoi, highHalf]
  norm_num

/-- FTOI gives back what ITOF converted (R80, R81). -/
theorem fFtoi_ofRaw_mul_one {n : Int} (hlower : -2147483648 ≤ n) (hupper : n ≤ 2147483647) :
    fFtoi (Word.ofRaw (n * 4294967296)).raw = n := by
  rw [raw_ofRaw (by simp only [IsRaw, rawMin, rawMax]; omega), fFtoi, highHalf]
  omega

/-- Settles O32. -/
theorem conversions : Obligations.Conversions := by
  intro s rd ra n
  refine ⟨fun hlower hupper => ?itof, fun h => ?domain, ?ftoi, fun hlower hupper rq => ?roundTrip⟩
  case itof =>
    rw [← ofRaw_mul_one]
    exact completes_of_answer (i := .itof rd ra) rfl (fItof_of_mem hlower hupper)
  case domain => exact raises_of_domainError (i := .itof rd ra) rfl (if_pos h)
  case ftoi => exact completes_of_answer_raw (i := .ftoi rd ra) rfl (congrArg Res.value (fFtoi_toInt _))
  case roundTrip =>
    obtain ⟨t, hexec, ⟨hread, -⟩, -⟩ :=
      completes_of_answer (i := .itof rd ra) (s := s) rfl (fItof_of_mem hlower hupper)
    have hback : fFtoi (t.rawX rd) = n := (congrArg (fun w => fFtoi (Word.raw w)) hread).trans
      (fFtoi_ofRaw_mul_one hlower hupper)
    exact ⟨t, hexec, completes_of_answer_raw (i := .ftoi rq rd) rfl (congrArg Res.value hback)⟩

end Sys2Proof.Machine
end

section
/-!
The obligations on the elementary operations (spec/41_elementary.md): SIGN, ABS and FLOOR on words, CEIL and ROUND as the
least and the nearest integral value, saturated, and the relations of R95.
-/

namespace Sys2Proof.Machine

/-! ## The integral values around a raw value -/

/-- FLOOR takes off the low half (R92). -/
theorem fFloor_add_lowHalf (a : Int) : fFloor a + lowHalf a = a := (halves a).1

/-- FLOOR keeps the high half (R92), so that FTOI is the shifted FLOOR (R95). -/
theorem highHalf_fFloor (a : Int) : highHalf (fFloor a) = highHalf a := Int.mul_ediv_cancel _ (by decide)

/-- FLOOR is not above its operand (R95). -/
theorem fFloor_le (a : Int) : fFloor a ≤ a := by
  obtain ⟨hsum, hlow, -⟩ := halves a
  rw [fFloor]
  omega

/-- FLOOR answers an integral value (R92). -/
theorem fFloor_emod (a : Int) : fFloor a % 4294967296 = 0 := Int.mul_emod_left _ _

/-- An integral value is its own FLOOR (R92). -/
theorem fFloor_of_integral {a : Int} (h : a % 4294967296 = 0) : fFloor a = a :=
  Int.ediv_mul_cancel (Int.dvd_of_emod_eq_zero h)

/-- FLOOR answers a raw value for a raw value: it never overflows (R92). -/
theorem fFloor_isRaw {a : Int} (ha : IsRaw a) : IsRaw (fFloor a) := by
  obtain ⟨hlower, hupper⟩ := highHalf_bounds ha
  simp only [IsRaw, rawMin, rawMax, fFloor]
  omega

/-- FLOOR is non-decreasing (R95). -/
theorem fFloor_mono {a b : Int} (h : a ≤ b) : fFloor a ≤ fFloor b :=
  Int.mul_le_mul_of_nonneg_right (Int.ediv_le_ediv (by decide) h) (by decide)

/-- The integral value after FLOOR, as CEIL and ROUND add it: saturated where it is `2^31` (R93, R94). -/
theorem fAdd_fFloor_one {a : Int} (ha : IsRaw a) :
    fAdd (fFloor a) rawOne = if highHalf a = 2147483647 then rawMax else fFloor a + rawOne := by
  obtain ⟨hlower, hupper⟩ := highHalf_bounds ha
  split_ifs with h
  · rw [fAdd, fFloor, h]
    rfl
  · refine clamp_of_isRaw ?_
    simp only [IsRaw, rawMin, rawMax, rawOne, fFloor]
    omega

/-! ## CEIL -/

/-- An integral value is its own CEIL (R93). -/
theorem fCeil_of_integral {a : Int} (h : a % 4294967296 = 0) : fCeil a = a := if_pos h

/-- CEIL of a value that is not integral is the integral value after FLOOR, saturated (R93). -/
theorem fCeil_of_not_integral {a : Int} (ha : IsRaw a) (h : a % 4294967296 ≠ 0) :
    fCeil a = if highHalf a = 2147483647 then rawMax else fFloor a + rawOne :=
  (if_neg h).trans (fAdd_fFloor_one ha)

/-- CEIL answers a raw value. -/
theorem fCeil_isRaw {a : Int} (ha : IsRaw a) : IsRaw (fCeil a) := by
  rw [fCeil]
  split_ifs
  · exact ha
  · exact fAdd_isRaw _ _

/-- CEIL saturates above the largest integral value (R93). -/
theorem fCeil_of_gt {a : Int} (ha : IsRaw a) (h : a > 0x7FFFFFFF00000000) : fCeil a = rawMax := by
  have hmax : a ≤ 9223372036854775807 := ha.2
  have hhigh : highHalf a = 2147483647 := by rw [highHalf]; omega
  rw [fCeil_of_not_integral ha (by omega), if_pos hhigh]

/-- Elsewhere CEIL is the least integral value not below the operand (R93). -/
theorem fCeil_of_le {a : Int} (ha : IsRaw a) (h : a ≤ 0x7FFFFFFF00000000) :
    fCeil a % 4294967296 = 0 ∧ a ≤ fCeil a ∧ fCeil a < a + 4294967296 := by
  by_cases hint : a % 4294967296 = 0
  · rw [fCeil_of_integral hint]
    omega
  · have hhigh : highHalf a ≠ 2147483647 := by rw [highHalf]; omega
    rw [fCeil_of_not_integral ha hint, if_neg hhigh, fFloor, highHalf, rawOne]
    omega

/-- CEIL is not below the operand (R95). -/
theorem le_fCeil {a : Int} (ha : IsRaw a) : a ≤ fCeil a := by
  rcases lt_or_ge 0x7FFFFFFF00000000 a with h | h
  · rw [fCeil_of_gt ha h]
    exact ha.2
  · exact (fCeil_of_le ha h).2.1

/-- CEIL is idempotent (R95). -/
theorem fCeil_fCeil {a : Int} (ha : IsRaw a) : fCeil (fCeil a) = fCeil a := by
  rcases lt_or_ge 0x7FFFFFFF00000000 a with h | h
  · rw [fCeil_of_gt ha h]
    rfl
  · exact fCeil_of_integral (fCeil_of_le ha h).1

/-- CEIL is non-decreasing (R95). -/
theorem fCeil_mono {a b : Int} (ha : IsRaw a) (hb : IsRaw b) (h : a ≤ b) : fCeil a ≤ fCeil b := by
  rcases lt_or_ge 0x7FFFFFFF00000000 b with hsat | hb'
  · rw [fCeil_of_gt hb hsat]
    exact (fCeil_isRaw ha).2
  · obtain ⟨hinta, -, huppera⟩ := fCeil_of_le ha (h.trans hb')
    obtain ⟨hintb, hlowerb, -⟩ := fCeil_of_le hb hb'
    omega

/-! ## ROUND -/

/-- An integral value is its own ROUND (R94). -/
theorem fRound_of_integral {a : Int} (h : a % 4294967296 = 0) : fRound a = a := by
  have hlow : lowHalf a < 2147483648 := by rw [lowHalf, h]; decide
  exact (if_pos hlow).trans (fFloor_of_integral h)

/-- ROUND is FLOOR below the tie and at the tie with an even FLOOR, else the integral value after it, saturated (R94). -/
theorem fRound_eq {a : Int} (ha : IsRaw a) :
    fRound a = if lowHalf a < 2147483648 ∨ (lowHalf a = 2147483648 ∧ highHalf a % 2 = 0) then fFloor a
      else if highHalf a = 2147483647 then rawMax else fFloor a + rawOne := by
  rw [← fAdd_fFloor_one ha, fRound]
  rcases lt_trichotomy (lowHalf a) 2147483648 with hbelow | htie | habove
  · rw [if_pos hbelow, if_pos (Or.inl hbelow)]
  · simp [htie, highHalf_fFloor]
  · rw [if_neg (by omega), if_pos habove, if_neg (by omega)]

/-- ROUND answers a raw value. -/
theorem fRound_isRaw {a : Int} (ha : IsRaw a) : IsRaw (fRound a) := by
  simp only [fRound]
  split_ifs
  · exact fFloor_isRaw ha
  · exact fAdd_isRaw _ _
  · exact fFloor_isRaw ha
  · exact fAdd_isRaw _ _

/-- ROUND saturates from the last tie on: its FLOOR is odd (R94). -/
theorem fRound_of_ge {a : Int} (ha : IsRaw a) (h : a ≥ 0x7FFFFFFF80000000) : fRound a = rawMax := by
  have hmax : a ≤ 9223372036854775807 := ha.2
  have hhigh : highHalf a = 2147483647 := by rw [highHalf]; omega
  have hlow : 2147483648 ≤ lowHalf a := by rw [lowHalf]; omega
  rw [fRound_eq ha, if_neg (by omega), if_pos hhigh]

/-- Elsewhere ROUND is the integral value within half a unit, the even one at a tie (R94). -/
theorem fRound_of_lt {a : Int} (ha : IsRaw a) (h : a < 0x7FFFFFFF80000000) :
    fRound a % 4294967296 = 0 ∧ |fRound a - a| ≤ 2147483648 ∧
      (|fRound a - a| = 2147483648 → fRound a / 4294967296 % 2 = 0) := by
  rw [abs_le, abs_eq (by decide), fRound_eq ha]
  simp only [fFloor, highHalf, lowHalf, rawMax, rawOne]
  split_ifs <;> omega

/-- ROUND is off by less than half a unit where it saturates (R95). -/
theorem abs_fRound_sub_lt {a : Int} (ha : IsRaw a) (h : 0x7FFFFFFF80000000 ≤ a) : |fRound a - a| < 2147483648 := by
  have hmax : a ≤ 9223372036854775807 := ha.2
  rw [fRound_of_ge ha h, rawMax, abs_lt]
  omega

/-- ROUND is off by at most half a unit (R95). -/
theorem abs_fRound_sub_le {a : Int} (ha : IsRaw a) : |fRound a - a| ≤ 2147483648 := by
  rcases lt_or_ge a 0x7FFFFFFF80000000 with h | h
  · exact (fRound_of_lt ha h).2.1
  · exact (abs_fRound_sub_lt ha h).le

/-- ROUND is not below FLOOR (R95). -/
theorem fFloor_le_fRound {a : Int} (ha : IsRaw a) : fFloor a ≤ fRound a := by
  rw [fRound_eq ha]
  split_ifs
  · exact le_rfl
  · exact (fFloor_isRaw ha).2
  · exact Int.le_add_of_nonneg_right (by decide)

/-- ROUND is not above CEIL (R95): both are the integral operand, or CEIL is the integral value after FLOOR. -/
theorem fRound_le_fCeil {a : Int} (ha : IsRaw a) : fRound a ≤ fCeil a := by
  by_cases hint : a % 4294967296 = 0
  · rw [fRound_of_integral hint, fCeil_of_integral hint]
  · rw [fRound_eq ha, ← fCeil_of_not_integral ha hint]
    split_ifs
    · exact (fFloor_le a).trans (le_fCeil ha)
    · exact le_rfl

/-- ROUND is idempotent (R95). -/
theorem fRound_fRound {a : Int} (ha : IsRaw a) : fRound (fRound a) = fRound a := by
  rcases lt_or_ge a 0x7FFFFFFF80000000 with h | h
  · exact fRound_of_integral (fRound_of_lt ha h).1
  · rw [fRound_of_ge ha h]
    rfl

/-- ROUND is non-decreasing (R95): two integral values a unit apart or more, each within half a unit of its operand, are
in the operands' order but at a tie, and there both are even. -/
theorem fRound_mono {a b : Int} (ha : IsRaw a) (hb : IsRaw b) (h : a ≤ b) : fRound a ≤ fRound b := by
  rcases lt_or_ge b 0x7FFFFFFF80000000 with hb' | hsat
  · obtain ⟨hinta, hneara, hevena⟩ := fRound_of_lt ha (h.trans_lt hb')
    obtain ⟨hintb, hnearb, hevenb⟩ := fRound_of_lt hb hb'
    rw [abs_le] at hneara hnearb
    rw [abs_eq (by decide)] at hevena hevenb
    omega
  · rw [fRound_of_ge hb hsat]
    exact (fRound_isRaw ha).2

/-- Settles O35: each command completes with its function, which saturates from the bound on and is near below it. -/
theorem ceilRound : Obligations.CeilRound := by
  intro s rd ra a
  have ha : IsRaw a := s.rawX_isRaw ra
  refine ⟨⟨fCeil a, completes_of_answer (i := .ceil rd ra) rfl rfl, fCeil_isRaw ha, ?ceil⟩,
    ⟨fRound a, completes_of_answer (i := .round rd ra) rfl rfl, fRound_isRaw ha, ?round⟩⟩
  case ceil =>
    split_ifs with h
    · exact fCeil_of_gt ha h
    · exact fCeil_of_le ha (not_lt.1 h)
  case round =>
    split_ifs with h
    · exact fRound_of_ge ha h
    · exact fRound_of_lt ha (not_le.1 h)

/-! ## SIGN, ABS and FLOOR -/

/-- ABS negates exactly the negative values, by the saturating NEG (R73, R91). -/
theorem fAbs_eq (a : Int) : fAbs a = if a < 0 then fNeg a else a := by
  rw [fAbs, fNeg]
  split_ifs with hmin hneg hneg
  · rfl
  · exact absurd (hmin ▸ by decide) hneg
  · exact abs_of_neg hneg
  · exact abs_of_nonneg (not_lt.1 hneg)

/-- ABS is even: NEG keeps it, at `MIN` as well (R95). -/
theorem fAbs_fNeg {a : Int} (ha : IsRaw a) : fAbs (fNeg a) = fAbs a := by
  by_cases hmin : a = rawMin
  · subst hmin
    rfl
  · have hneg : -a ≠ rawMin := by
      obtain ⟨-, hmax⟩ := ha
      simp only [rawMin, rawMax] at *
      omega
    rw [fNeg, if_neg hmin, fAbs, if_neg hneg, fAbs, if_neg hmin, abs_neg]

/-- SIGN is the sign of the operand (R90). -/
theorem fSign_eq_sign (a : Int) : fSign a = a.sign := by
  rcases lt_trichotomy a 0 with h | rfl | h
  · rw [fSign, if_pos h, Int.sign_eq_neg_one_of_neg h]
  · rfl
  · rw [fSign, if_neg h.not_gt, if_neg h.ne', Int.sign_eq_one_of_pos h]

/-- SIGN times ABS is the value but at `MIN` (R95). -/
theorem fSign_mul_fAbs {a : Int} (h : a ≠ rawMin) : fSign a * fAbs a = a := by
  rw [fSign_eq_sign, fAbs, if_neg h, Int.sign_mul_abs]

/-- SIGN reads the sign bit and compares with zero (R90). -/
theorem fSign_toInt (w : Word) :
    fSign w.toInt = (if w.msb then -1#64 else if w = 0#64 then 0#64 else 1#64).toInt := by
  have hzero : w.toInt = 0 ↔ w = 0#64 := BitVec.toInt_inj (y := 0#64)
  simp only [fSign, BitVec.msb_eq_toInt, decide_eq_true_eq, hzero]
  split_ifs <;> rfl

/-- `m = a >> 63` is −1 for a negative word, else 0 (R91). -/
theorem sshiftRight_63 (w : Word) : w.sshiftRight 63 = if w.msb then BitVec.allOnes 64 else 0#64 := by
  have hlower : -9223372036854775808 ≤ w.toInt := w.le_toInt
  have hupper : w.toInt < 9223372036854775808 := w.toInt_lt
  have hshift : (w.sshiftRight 63).toInt = w.toInt / 9223372036854775808 := by
    rw [BitVec.toInt_sshiftRight, Int.shiftRight_eq_div_pow]
    rfl
  rw [← BitVec.toInt_inj, hshift]
  simp only [BitVec.msb_eq_toInt, decide_eq_true_eq]
  split_ifs with h
  · exact Int.ediv_eq_neg_one_of_neg_of_le h (neg_le.1 hlower)
  · exact Int.ediv_eq_zero_of_lt (not_lt.1 h) hupper

/-- The bit trick of R91 negates exactly the negative words. -/
theorem add_sshiftRight_xor (w : Word) :
    (w + w.sshiftRight 63) ^^^ w.sshiftRight 63 = if w.msb then -w else w := by
  rw [sshiftRight_63]
  split_ifs
  · rw [BitVec.xor_allOnes, ← BitVec.neg_one_eq_allOnes, ← BitVec.sub_eq_add_neg, BitVec.not_sub_one_eq_not_add_one,
      BitVec.neg_eq_not_add]
  · rw [BitVec.add_zero, BitVec.xor_zero]

/-- ABS is the bit trick, but `MAX` at `MIN` (R91). -/
theorem fAbs_toInt (w : Word) :
    fAbs w.toInt = (if w = 0x8000000000000000#64 then 0x7FFFFFFFFFFFFFFF#64
      else (w + w.sshiftRight 63) ^^^ w.sshiftRight 63).toInt := by
  simp only [add_sshiftRight_xor, fAbs_eq, fNeg_toInt, BitVec.msb_eq_toInt, decide_eq_true_eq]
  split_ifs with hneg hmin hmin
  · rfl
  · rfl
  · exact absurd (hmin ▸ by decide) hneg
  · rfl

/-- An arithmetic shift right and back clears the low bits. -/
theorem sshiftRight_shiftLeft {n : Nat} (w : BitVec n) (k : Nat) :
    w.sshiftRight k <<< k = w &&& BitVec.allOnes n <<< k := by
  ext i hi
  by_cases hk : i < k
  · simp [hk]
  · simp [hk, BitVec.getElem_sshiftRight, hi, Nat.add_sub_of_le (not_lt.1 hk)]

/-- FLOOR masks out the fractional bits (R92): it is the shift of FTOI, shifted back. -/
theorem ofRaw_fFloor (w : Word) : Word.ofRaw (fFloor w.raw) = w &&& 0xFFFFFFFF00000000#64 :=
  calc
    Word.ofRaw (fFloor w.raw) = Word.ofRaw ((w.sshiftRight 32).toInt * 4294967296) :=
      congrArg (fun v => Word.ofRaw (v * 4294967296)) (fFtoi_toInt w)
    _ = w.sshiftRight 32 <<< 32 := ofRaw_mul_one _
    _ = w &&& BitVec.allOnes 64 <<< 32 := sshiftRight_shiftLeft w 32

/-- Settles O34: each function, read on the word, is the bit form. -/
theorem signAbsFloor : Obligations.SignAbsFloor := by
  intro s rd ra a m
  refine ⟨?sign, ?abs, ?floor⟩
  case sign => exact completes_of_answer_raw (i := .sign rd ra) rfl (congrArg Res.value (fSign_toInt a))
  case abs => exact completes_of_answer_raw (i := .abs rd ra) rfl (congrArg Res.value (fAbs_toInt a))
  case floor =>
    rw [← ofRaw_fFloor]
    exact completes_of_answer (i := .floor rd ra) rfl rfl

/-! ## The relations of R95 -/

/-- Settles O36, one lemma per relation. -/
theorem elementaryRelations : Obligations.ElementaryRelations := by
  intro a b ha hb
  have hlow : a - fFloor a = lowHalf a := sub_eq_of_eq_add' (fFloor_add_lowHalf a).symm
  have hone : a - fFloor a < rawOne := hlow ▸ (halves a).2.2
  exact ⟨fFloor_le a, hlow, hone, fFloor_le_fRound ha, fRound_le_fCeil ha, le_fCeil ha,
    fFloor_of_integral (fFloor_emod a), fCeil_fCeil ha, fRound_fRound ha,
    fun h => ⟨fFloor_mono h, fCeil_mono ha hb h, fRound_mono ha hb h⟩,
    (fAbs_fNeg ha).symm, fSign_mul_fAbs, (highHalf_fFloor a).symm, abs_fRound_sub_le ha, abs_fRound_sub_lt ha⟩

end Sys2Proof.Machine
end

section
/-!
The obligations on SQRT (spec/42_sqrt.md): the root by the two passes of R101 for every operand, and the operand on
which R101 and the closed form of R102 differ.
-/

namespace Sys2Proof.Machine

/-- SQRT of a value that is not negative is the root of the radicand `v`, rounded to the nearest tick (R100, R101). -/
theorem fSqrt_of_nonneg {a : Int} {v : Nat} (ha : IsRaw a) (h : 0 ≤ a) (hv : sqrtRadicand a.toNat = v) :
    fSqrt a = .value (if v - Nat.sqrt v * Nat.sqrt v > Nat.sqrt v then Nat.sqrt v + 1 else Nat.sqrt v) := by
  have hmax : a ≤ 9223372036854775807 := ha.2
  rw [fSqrt, if_neg h.not_gt, sqrtCore_closed _ (by omega), hv, pow_two]
  split_ifs <;> rfl

/-- SQRT of a negative value is a domain error (R100). -/
theorem fSqrt_of_neg {a : Int} (h : a < 0) : fSqrt a = .domainError := if_pos h

/-- Settles O37: by the closed form of the two passes. -/
theorem sqrtResult : Obligations.SqrtResult := by
  intro s rd ra a n v r
  refine ⟨fun h => ?root, fun h => ?negative⟩
  case root =>
    have hradicand : sqrtRadicand n = v := by rw [sqrtRadicand, pow_two]
    exact completes_of_answer (i := .sqrt rd ra) rfl (fSqrt_of_nonneg (s.rawX_isRaw ra) h hradicand)
  case negative => exact raises_of_domainError (i := .sqrt rd ra) rfl (fSqrt_of_neg h)

/-- The passes of R101, evaluated on the operand where the closed form of R102 departs from them. -/
theorem fSqrt_departing :
    fSqrt (Word.raw 0x79F74C3F42028DCD#64) = .value (Word.raw 0x0000B0B37ED4D57B#64) := by decide +kernel

/-- The root that the closed form of R102 rounds, on the same operand: of the radicand without the correction. -/
theorem sqrt_departing : Nat.sqrt (0x79F74C3F42028DCD * 4294967296) = 0xB0B37ED4D57B :=
  sqrt_unique (by norm_num) (by norm_num)

/-- Settles O38: the passes end at the root, and the closed form rounds it up. -/
theorem sqrtDepartsFromClosedForm : Obligations.SqrtDepartsFromClosedForm := by
  refine ⟨fun s rd ra hread => ?passes, ?closedForm⟩
  case passes =>
    refine completes_of_answer_raw (i := .sqrt rd ra) rfl ?_
    rw [answer, State.rawX, hread]
    exact fSqrt_departing
  case closedForm =>
    simp only [sqrt_departing]
    decide

end Sys2Proof.Machine
end

section
/-!
The obligations on the Log/Pow Engine (spec/43_logpow.md): LOG2 and its digits, LN as a floor product of it, POW2 by
the closed form of its series, and POW by its short-circuits and the composition of the two.
-/

namespace Sys2Proof.Machine

/-! ## LOG2 -/

/-- The exponent of the leading bit, of a number that is shifted left. -/
theorem log2_mul_two_pow {n : Nat} (hn : n ≠ 0) (j : Nat) : Nat.log2 (n * 2 ^ j) = Nat.log2 n + j := by
  rw [Nat.log2_eq_iff (by positivity)]
  obtain ⟨hlower, hupper⟩ := (Nat.log2_eq_iff hn).1 rfl
  rw [add_right_comm, pow_add _ _ j, pow_add _ _ j]
  exact ⟨Nat.mul_le_mul_right _ hlower, Nat.mul_lt_mul_of_pos_right hupper (by positivity)⟩

/-- The normalised mantissa of R105: the operand with its leading bit shifted to that of `ONE`. -/
def log2Mantissa (a : Int) : Int := a * 4294967296 / 2 ^ Nat.log2 a.toNat

/-- However far the operand is shifted left and then right to have its leading bit at that of `ONE`, what comes out is
the normalised mantissa, and the shifts differ by the exponent (R105). -/
theorem log2Mantissa_of_shifts {a : Int} (h0 : 0 < a) (j k : Nat) (hlower : rawOne ≤ a * 2 ^ j / 2 ^ k)
    (hupper : a * 2 ^ j / 2 ^ k < 2 * rawOne) :
    Nat.log2 a.toNat + j = 32 + k ∧ a * 2 ^ j / 2 ^ k = log2Mantissa a := by
  obtain ⟨n, rfl⟩ := Int.eq_ofNat_of_zero_le h0.le
  have hn : n ≠ 0 := by rintro rfl; exact absurd h0 (by decide)
  have hlog : Nat.log2 n + j = 32 + k := by
    rw [← log2_mul_two_pow hn, Nat.log2_eq_iff (by positivity), pow_add, add_right_comm, pow_add]
    rw [Int.le_ediv_iff_mul_le (by positivity), rawOne] at hlower
    rw [Int.ediv_lt_iff_lt_mul (by positivity), rawOne] at hupper
    exact ⟨by exact_mod_cast hlower, by exact_mod_cast hupper⟩
  refine ⟨by simpa using hlog, ?_⟩
  calc (n : Int) * 2 ^ j / 2 ^ k = n * 2 ^ j * 2 ^ 32 / (2 ^ k * 2 ^ 32) :=
        (Int.mul_ediv_mul_of_pos_left _ _ (by positivity)).symm
    _ = n * 4294967296 * 2 ^ j / (2 ^ Nat.log2 n * 2 ^ j) := by
        rw [← pow_add, ← pow_add, hlog, add_comm k, mul_right_comm]; norm_num
    _ = log2Mantissa n := by rw [Int.mul_ediv_mul_of_pos_left _ _ (by positivity), log2Mantissa, Int.toNat_natCast]

/-- LOG2 of a positive value: the squaring loop, from the normalised mantissa and the exponent on (R105). -/
theorem fLog2_of_pos {a : Int} (ha : IsRaw a) (h0 : 0 < a) : fLog2 a =
    .value (log2Digits 32 (log2Mantissa a) 2147483648 ((Nat.log2 a.toNat - 32 : Int) * rawOne)) := by
  obtain ⟨-, hmax⟩ := ha
  obtain ⟨j, hdouble, hdlower, hdupper⟩ := log2Double_spec 32 a 0 h0 (by simp only [rawOne]; omega)
  have hbound : a * 2 ^ j < 2 * rawOne * 2 ^ 30 := by
    rcases eq_or_ne j 0 with rfl | hj
    · rw [pow_zero, mul_one]; exact hmax.trans_lt (by decide)
    · exact (hdupper hj).trans (by decide)
  obtain ⟨k, hhalve, hlower, hupper⟩ := log2Halve_spec 30 (a * 2 ^ j) (0 - j * rawOne) hdlower hbound
  obtain ⟨hlog, hmant⟩ := log2Mantissa_of_shifts h0 j k hlower hupper
  have hexp : (Nat.log2 a.toNat - 32 : Int) * rawOne = 0 - j * rawOne + k * rawOne := by
    have : (Nat.log2 a.toNat : Int) = 32 + k - j := by omega
    rw [this]; ring
  simp only [fLog2, if_neg h0.not_ge, hdouble, hhalve, hmant, hexp]

/-- LOG2 of any other value is a domain error (R105). -/
theorem fLog2_of_nonpos {a : Int} (h : a ≤ 0) : fLog2 a = .domainError := if_pos h

/-- Settles O39. -/
theorem log2Result : Obligations.Log2Result := by
  intro s rd ra a
  refine ⟨fun h0 => ?value, fun h => raises_of_domainError (i := .log2 rd ra) rfl (fLog2_of_nonpos h)⟩
  case value =>
    obtain ⟨v, hv, hint, hlower, hupper, hexact⟩ := fLog2_spec a h0 (s.rawX_isRaw ra)
    exact ⟨v, hv, completes_of_answer (i := .log2 rd ra) rfl hv, hint, hlower, hupper, hexact⟩

/-- The mantissa after one pass of R105's squaring loop. -/
def log2Next (m : Int) : Int :=
  if mulfloor m m ≥ 2 * rawOne then mulfloor m m / 2 else mulfloor m m

/-- One pass of R105's squaring loop: the next mantissa, half the weight, and the weight added where the digit is
set. -/
theorem log2Digits_succ (d : Nat) (m w y : Int) : log2Digits (d + 1) m w y =
    log2Digits d (log2Next m) (w / 2) (y + if mulfloor m m ≥ 2 * rawOne then w else 0) := by
  simp only [log2Digits, log2Next]
  split_ifs
  · rfl
  · rw [add_zero]

/-- R105's squaring loop adds up the weights of the digits that are set. -/
theorem log2Digits_eq_sum (d : Nat) (m y : Int) : log2Digits d m (2 ^ d / 2) y = y + ∑ i ∈ Finset.range d,
    if mulfloor (log2Next^[i] m) (log2Next^[i] m) ≥ 2 * rawOne then 2 ^ (d - 1 - i) else 0 := by
  induction d generalizing m y with
  | zero => simp [log2Digits]
  | succ d ih =>
    have hweight : (2 : Int) ^ (d + 1) / 2 = 2 ^ d := by rw [pow_succ, Int.mul_ediv_cancel _ (by decide)]
    rw [log2Digits_succ, hweight, ih, Finset.sum_range_succ', add_assoc, add_comm (ite _ _ _)]
    simp only [Function.iterate_succ_apply, Function.iterate_zero_apply, Nat.add_sub_cancel, Nat.sub_zero,
      Nat.sub_sub, add_comm 1]

/-- Settles O40: the mantissas are the iterates of one pass. (`log2Digits` itself names the model's loop.) -/
theorem log2_digits : Obligations.Log2Digits := by
  intro s rd ra a e
  refine ⟨fun h0 => ⟨fun i => log2Next^[i] (log2Mantissa a), rfl,
    fun i => Function.iterate_succ_apply' log2Next i _, ?value⟩,
    fun h => raises_of_domainError (i := .log2 rd ra) rfl (fLog2_of_nonpos h)⟩
  case value =>
    refine completes_of_answer (i := .log2 rd ra) rfl ((fLog2_of_pos (s.rawX_isRaw ra) h0).trans ?_)
    exact congrArg Res.value (log2Digits_eq_sum 32 _ _)

/-! ## LN -/

/-- LN is the floor product of LOG2 and LN2 (R107). -/
theorem fLn_of_fLog2 (c : Config) {a l : Int} (h : fLog2 a = .value l) : fLn c a = .value (mulfloor l c.ln2) := by
  rw [fLn, h, Res.andThen_value]

/-- LN of a value that is not positive is the domain error of LOG2 (R107). -/
theorem fLn_of_nonpos (c : Config) {a : Int} (h : a ≤ 0) : fLn c a = .domainError := by
  rw [fLn, fLog2_of_nonpos h]
  rfl

/-- Settles O41: the ends of the range are the floor products of the ends of LOG2's. -/
theorem lnResult : Obligations.LnResult := by
  intro s rd ra a
  refine ⟨fun h0 => ?value, fun h => raises_of_domainError (i := .ln rd ra) rfl (fLn_of_nonpos _ h)⟩
  case value =>
    obtain ⟨l, hl, -, hlower, hupper, -⟩ := fLog2_spec a h0 (s.rawX_isRaw ra)
    have hmin : (0xFFFFFFE9D1BD0120#64).toInt = -137438953472 * 0xB17217F7 / 4294967296 := by decide
    exact ⟨l, hl, completes_of_answer (i := .ln rd ra) rfl (fLn_of_fLog2 _ hl), by omega, by omega⟩

/-! ## POW2 -/

/-- The sum of R108's series on the fraction `f` under the default LN2: its terms before the twelfth (R109 (b)). -/
def pow2Sum (f : Int) : Int := ∑ i ∈ Finset.range 12, pow2Term 2977044471 f i

/-- Adding R108's terms up to any zero one, or further, gives the same sum. -/
theorem sum_pow2Term (ln2 f : Int) {m n : Nat} (hz : pow2Term ln2 f m = 0) (hmn : m ≤ n) :
    ∑ i ∈ Finset.range n, pow2Term ln2 f i = ∑ i ∈ Finset.range m, pow2Term ln2 f i := by
  refine Finset.eventually_constant_sum (fun i hi => ?_) hmn
  obtain ⟨j, rfl⟩ := Nat.exists_eq_add_of_le hi
  exact pow2Term_zero ln2 f m j hz

/-- R108's loop answers the sum of the series, at least `ONE` and below `2·ONE` (R109 (a)). -/
theorem pow2Series_eq_pow2Sum {f : Int} (h0 : 0 ≤ f) (h1 : f < rawOne) :
    pow2Series 2977044471 f 32 rawOne rawOne 1 = .value (pow2Sum f) ∧ rawOne ≤ pow2Sum f ∧
      pow2Sum f < 2 * rawOne := by
  have hrun := pow2Series_sum 2977044471 f (by decide) (by decide) h0 h1 32 0 (by decide) rawOne (by decide) (by decide)
  have hsum : rawOne + ∑ j ∈ Finset.range 32, pow2Term 2977044471 f (0 + j + 1) = pow2Sum f := by
    rw [pow2Sum, ← sum_pow2Term _ f (pow2Term_ends f h0 h1) (show 12 ≤ 33 by decide), Finset.sum_range_succ' _ 32,
      add_comm, pow2Term]
    simp only [zero_add]
  rw [hsum] at hrun
  obtain ⟨v, hv, hlower, hupper⟩ := pow2Series_spec f h0 h1
  obtain rfl : pow2Sum f = v := Res.value.inj (hrun.symm.trans hv)
  exact ⟨hv, hlower, hupper.trans_lt (by decide)⟩

/-- The series on no fraction is its first term (R108). -/
theorem pow2Sum_zero : pow2Sum 0 = rawOne :=
  (sum_pow2Term 2977044471 0 (show pow2Term 2977044471 0 1 = 0 by decide) (by decide)).trans (Finset.sum_range_one _)

/-- POW2 of a magnitude: the sum of the series shifted by the integer part, or `MAX` from 31.0 on (R108). -/
def pow2Magnitude (x : Int) : Int :=
  if 31 * rawOne ≤ x then rawMax else pow2Sum (lowHalf x) * 2 ^ (highHalf x).toNat

/-- POW2 saturates from 31.0 on (R108). -/
theorem pow2Magnitude_of_ge {x : Int} (h : 31 * rawOne ≤ x) : pow2Magnitude x = rawMax := if_pos h

/-- POW2 of a magnitude is a raw value not below `ONE`: below 31.0 the shift keeps the sum in range (R109 (a)). -/
theorem pow2Magnitude_mem {x : Int} (h0 : 0 ≤ x) : rawOne ≤ pow2Magnitude x ∧ pow2Magnitude x ≤ rawMax := by
  rw [pow2Magnitude]
  split_ifs with h
  · exact ⟨by decide, le_rfl⟩
  obtain ⟨-, hlower, hupper⟩ := pow2Series_eq_pow2Sum (halves x).2.1 (halves x).2.2
  have hhigh : (highHalf x).toNat ≤ 30 := by simp only [highHalf, rawOne] at *; omega
  have hp : (2 : Int) ^ (highHalf x).toNat ≤ 2 ^ 30 := pow_le_pow_right₀ (by decide) hhigh
  have hp1 : (1 : Int) ≤ 2 ^ (highHalf x).toNat := one_le_pow₀ (by decide)
  have hone : (0 : Int) ≤ rawOne := by decide
  constructor
  · exact hlower.trans (le_mul_of_one_le_right (hone.trans hlower) hp1)
  · calc pow2Sum (lowHalf x) * 2 ^ (highHalf x).toNat
        ≤ (2 * rawOne - 1) * 2 ^ 30 := mul_le_mul (by omega) hp (by omega) (by decide)
      _ ≤ rawMax := by decide

/-- POW2 of an integer from 0 to 30 is that power of two (R109). -/
theorem pow2Magnitude_natCast {n : Nat} (hn : n ≤ 30) : pow2Magnitude (n * rawOne) = 2 ^ n * rawOne := by
  have hbelow : ¬ 31 * rawOne ≤ n * rawOne := by simp only [rawOne]; omega
  have hlow : lowHalf (n * rawOne) = 0 := Int.mul_emod_left _ _
  have hhigh : highHalf (n * rawOne) = n := Int.mul_ediv_cancel _ (by decide)
  rw [pow2Magnitude, if_neg hbelow, hlow, hhigh, pow2Sum_zero, Int.toNat_natCast, mul_comm]

/-- The reciprocal of a positive raw value, rounded to the nearest tick (R70). -/
def reciprocal (r : Int) : Int := (2 * (rawOne * rawOne) + r) / (2 * r)

/-- DIV of `ONE` by a raw value not below it is its reciprocal (R70). -/
theorem fDiv_rawOne {r : Int} (h1 : rawOne ≤ r) (h2 : r ≤ rawMax) : fDiv rawOne r = .value (reciprocal r) := by
  have hpos : 0 < r := lt_of_lt_of_le (by decide) h1
  have hraw : IsRaw r := ⟨le_trans (by decide) h1, h2⟩
  have hfits : ¬ 9223372036854775808 * r ≤ rawOne * 4294967296 := by simp only [rawOne] at *; omega
  rw [fDiv_of_ne _ _ hpos.ne', divide_nonneg _ _ (by decide) hraw (by decide) hpos, if_neg hfits]
  rfl

/-- The value of POW2: that of the magnitude, inverted for a negative operand (R108). -/
def pow2Value (a : Int) : Int := if a < 0 then reciprocal (pow2Magnitude |a|) else pow2Magnitude |a|

/-- POW2 inverts at a negative operand (R108). -/
theorem pow2Value_of_neg {a : Int} (h : a < 0) : pow2Value a = reciprocal (pow2Magnitude (-a)) := by
  rw [pow2Value, if_pos h, abs_of_neg h]

/-- POW2 of any other operand is that of the magnitude (R108). -/
theorem pow2Value_of_nonneg {a : Int} (h : 0 ≤ a) : pow2Value a = pow2Magnitude a := by
  rw [pow2Value, if_neg h.not_gt, abs_of_nonneg h]

/-- The last step of POW2 (R108), for the sign of the operand. -/
theorem pow2_invert (a : Int) :
    (if a < 0 then fDiv rawOne (pow2Magnitude |a|) else .value (pow2Magnitude |a|)) = .value (pow2Value a) := by
  obtain ⟨hlower, hupper⟩ := pow2Magnitude_mem (abs_nonneg a)
  rw [fDiv_rawOne hlower hupper, pow2Value]
  split_ifs <;> rfl

/-- ABS answers no negative value (R91). -/
theorem fAbs_nonneg (a : Int) : 0 ≤ fAbs a := by
  rw [fAbs]
  split_ifs
  · decide
  · exact abs_nonneg a

/-- NEG saturates at `MIN` (R73), where POW2 of the magnitude saturates either way. -/
theorem pow2Magnitude_fAbs (a : Int) : pow2Magnitude (fAbs a) = pow2Magnitude |a| := by
  rw [fAbs]
  split_ifs with h
  · subst h
    rw [pow2Magnitude_of_ge (by decide), pow2Magnitude_of_ge (by decide)]
  · rfl

/-- POW2 below 31.0 (R108): the loop answers the sum, and the wrap of the shift changes nothing (R109 (a)). -/
theorem pow2Series_shift {x : Int} (h0 : 0 ≤ x) (h : ¬ 31 * rawOne ≤ x) :
    pow2Series defaults.ln2 (lowHalf x) 32 rawOne rawOne 1 = .value (pow2Sum (lowHalf x)) ∧
      wrap64 (pow2Sum (lowHalf x) * 2 ^ (fFtoi (fFloor x)).toNat) = pow2Magnitude x := by
  obtain ⟨hrun, -⟩ := pow2Series_eq_pow2Sum (halves x).2.1 (halves x).2.2
  obtain ⟨hlower, hupper⟩ := pow2Magnitude_mem h0
  have hraw : IsRaw (pow2Magnitude x) := ⟨le_trans (by decide) hlower, hupper⟩
  rw [pow2Magnitude, if_neg h] at hraw ⊢
  rw [fFtoi, highHalf_fFloor]
  exact ⟨hrun, wrap64_of_isRaw hraw⟩

/-- POW2 in closed form (R108): the early answers, at 0 and ±1.0 and from ±31.0 on, are those of the magnitude, and the
lower bound is never met (R109 (d)). -/
theorem fPow2_eq_pow2Value (a : Int) : fPow2 defaults a = .value (pow2Value a) := by
  rw [← pow2_invert, ← pow2Magnitude_fAbs]
  simp only [fPow2, ← fAbs_eq]
  by_cases hzero : a = 0
  · subst hzero
    exact (congrArg Res.value (pow2Magnitude_natCast (n := 0) (by decide))).symm
  rw [if_neg hzero]
  by_cases hone : fAbs a = rawOne
  · have hmag : pow2Magnitude rawOne = 2 * rawOne := pow2Magnitude_natCast (n := 1) (by decide)
    rw [if_pos hone, hone, hmag]
  rw [if_neg hone]
  by_cases hsat : fAbs a ≥ defaults.log2Max
  · rw [if_pos hsat, pow2Magnitude_of_ge hsat]
  have hdead : ¬ fAbs a ≤ defaults.log2Min := (lt_of_lt_of_le (by decide) (fAbs_nonneg a)).not_ge
  obtain ⟨hrun, hshift⟩ := pow2Series_shift (fAbs_nonneg a) hsat
  rw [if_neg hsat, if_neg hdead, hrun, Res.andThen_value, hshift]

/-- Settles O42: the bounds are those of `fPow2_spec`, the other values those of the closed form. -/
theorem pow2Result : Obligations.Pow2Result := by
  intro s rd ra a
  obtain ⟨v, hv, hlower, hupper, hnonneg, hneg⟩ := fPow2_spec a (s.rawX_isRaw ra)
  obtain rfl : pow2Value a = v := Res.value.inj ((fPow2_eq_pow2Value a).symm.trans hv)
  refine ⟨pow2Value a, hv, completes_of_answer (i := .pow2 rd ra) rfl hv, hlower, hupper, hnonneg, hneg,
    fun h => ?saturated, fun h => ?vanishing, fun n hn h => ?integral, fun h _ w hw => ?inverted⟩
  case saturated => rw [pow2Value_of_nonneg (le_trans (by decide) h), pow2Magnitude_of_ge h]
  case vanishing =>
    rw [pow2Value_of_neg (lt_of_le_of_lt h (by decide)), pow2Magnitude_of_ge (le_neg.1 h)]
    decide
  case integral =>
    have h0 : 0 ≤ a := h ▸ mul_nonneg n.cast_nonneg (by decide)
    rw [pow2Value_of_nonneg h0, h, pow2Magnitude_natCast hn]
  case inverted =>
    obtain rfl : pow2Value (-a) = w := Res.value.inj ((fPow2_eq_pow2Value (-a)).symm.trans hw)
    rw [pow2Value_of_neg h, pow2Value_of_nonneg (neg_nonneg.2 h.le), reciprocal]

/-- Settles O43: the sum up to the first zero term is the sum of all twelve. (`pow2Series` itself names the model's
loop.) -/
theorem pow2_series : Obligations.Pow2Series := by
  intro s rd ra a f
  have hends : ∃ n, pow2Term 2977044471 f n = 0 := ⟨12, pow2Term_ends f (halves |a|).2.1 (halves |a|).2.2⟩
  have hfirst : Nat.find hends ≤ 12 := Nat.find_min' hends (pow2Term_ends f (halves |a|).2.1 (halves |a|).2.2)
  refine ⟨pow2Term 2977044471 f, Nat.find hends, rfl, fun i => rfl, hfirst, Nat.find_spec hends,
    fun i hi => Nat.find_min hends hi, ?_⟩
  rw [← sum_pow2Term 2977044471 f (Nat.find_spec hends) hfirst]
  exact completes_of_answer (i := .pow2 rd ra) rfl (fPow2_eq_pow2Value a)

/-! ## POW -/

/-- POW of a base that is not zero, past the short-circuits: POW2 of the exponent's product with LOG2 (R110). -/
theorem fPow_of_ne (c : Config) {b e : Int} (hone : b ≠ rawOne) (he : e ≠ 0) (hb : b ≠ 0) :
    fPow c b e = (fLog2 b).andThen fun l => fPow2 c (fMul e l) := by
  rw [fPow, if_neg hone, if_neg he, if_neg hb]

/-- POW of the base 0: an answer or an error by the sign of the exponent (R110). -/
theorem fPow_zero (c : Config) {e : Int} (he : e ≠ 0) : fPow c 0 e = if e < 0 then .divideByZero else .value 0 := by
  rw [fPow, if_neg (by decide), if_neg he, if_pos rfl]

/-- POW of the base `ONE` or to the exponent 0 is `ONE` (R110). -/
theorem fPow_of_one_or_zero (c : Config) {b e : Int} (h : b = rawOne ∨ e = 0) : fPow c b e = .value rawOne := by
  rw [fPow]
  rcases h with rfl | rfl
  · rw [if_pos rfl]
  · rw [if_pos rfl, ite_self]

/-- Settles O44. -/
theorem powResult : Obligations.PowResult := by
  intro s rd ra rb b e
  refine ⟨fun h => ?one, fun hb he => ?zero, fun hb he => ?divide, fun hb hone he => ?value, fun hb he => ?negative⟩
  case one => exact completes_of_answer_raw (i := .pow rd ra rb) rfl (fPow_of_one_or_zero _ h)
  case zero =>
    have hval : fPow defaults b e = .value 0 := by rw [hb, fPow_zero _ he.ne', if_neg he.not_gt]
    exact completes_of_answer_raw (i := .pow rd ra rb) rfl hval
  case divide =>
    have hval : fPow defaults b e = .divideByZero := by rw [hb, fPow_zero _ he.ne, if_pos he]
    exact raises_of_divideByZero (i := .pow rd ra rb) rfl hval
  case value =>
    obtain ⟨l, hl, -⟩ := fLog2_spec b hb (s.rawX_isRaw ra)
    have hpow := fPow2_eq_pow2Value (fMul e l)
    have hval : fPow defaults b e = .value (pow2Value (fMul e l)) := by
      rw [fPow_of_ne _ hone he hb.ne', hl, Res.andThen_value, hpow]
    exact ⟨l, _, hl, hpow, completes_of_answer (i := .pow rd ra rb) rfl hval⟩
  case negative =>
    have hval : fPow defaults b e = .domainError := by
      rw [fPow_of_ne _ (lt_trans hb (by decide)).ne he hb.ne, fLog2_of_nonpos hb.le]
      rfl
    exact raises_of_domainError (i := .pow rd ra rb) rfl hval

end Sys2Proof.Machine
end

section
/-!
The obligations on the forward functions of the Trig Engine (spec/44_trig.md): the range reduction and the table
position they share, the results of SIN, FSIN, COS, FCOS and TAN, and the range of the sines.
-/

namespace Sys2Proof.Machine

/-! ## Range reduction -/

/-- R121's loop is the fold of the truncating remainders by `LARGE_PI >> i`. -/
theorem reducePasses_eq_foldl (largePi : Int) (n i : Nat) (a : Int) : reducePasses largePi n i a =
    (List.range' i n).foldl (fun v j => v.tmod (largePi / 2 ^ j)) a := by
  induction n generalizing i a with
  | zero => rfl
  | succ n ih =>
    have hpass : trem a (largePi >>> i) = a.tmod (largePi / 2 ^ i) := by
      rw [trem, Int.shiftRight_eq_div_pow]
      norm_cast
    rw [reducePasses, hpass, ih, List.range'_succ, List.foldl_cons]

/-- What the subtraction loop of R121 answers is its argument less a whole number of moduli, at most one for each
pass. -/
theorem subtractWhile_eq_sub (fuel : Nat) (m v : Int) :
    ∃ n : Int, 0 ≤ n ∧ n ≤ fuel ∧ subtractWhile fuel m v = v - n * m := by
  induction fuel generalizing v with
  | zero => exact ⟨0, le_rfl, le_rfl, by rw [subtractWhile, zero_mul, sub_zero]⟩
  | succ fuel ih =>
    rw [subtractWhile]
    split_ifs
    · obtain ⟨n, hn, hfuel, heq⟩ := ih (v - m)
      exact ⟨n + 1, by omega, by push_cast; omega, by rw [heq]; ring⟩
    · exact ⟨0, le_rfl, Int.natCast_nonneg _, by rw [zero_mul, sub_zero]⟩

/-- `c2` of R121: the angle within one turn. -/
def turnAngle (c : Config) (a : Int) : Int :=
  let r := reducePasses c.largePi 29 0 a
  if a < 0 then r + c.piTimes2 else r

/-- `c1` of R121: the angle within half a turn. -/
def halfTurnAngle (c : Config) (a : Int) : Int := subtractWhile 2 c.pi (turnAngle c a)

/-- The reduced angle and its flags, from the two angles of R121. -/
theorem clampSin_eq (c : Config) (a : Int) : clampSin c a =
    { c := if halfTurnAngle c a ≥ c.piOver2 then halfTurnAngle c a - c.piOver2 else halfTurnAngle c a
      fh := halfTurnAngle c a ≥ c.piOver2
      fv := turnAngle c a ≥ c.pi } := rfl

/-- Under an accepted configuration the angle within one turn lies in `[0, PI_TIMES_2]`, closed at the top (R121). -/
theorem turnAngle_mem {c : Config} (h : configOk c = true) (a : Int) :
    0 ≤ turnAngle c a ∧ turnAngle c a ≤ c.piTimes2 := by
  obtain ⟨-, ⟨hpos, hhalf, htwice, -, -, -, hlower⟩, -, hupper⟩ := (configOk_iff c).1 h
  obtain ⟨rLower, rUpper, rNonneg, rNonpos⟩ := reducePasses_bounds c.largePi 28 0 a (by rw [Nat.zero_add]; omega)
  rw [Nat.zero_add] at rLower rUpper
  simp only [turnAngle]
  generalize reducePasses c.largePi (28 + 1) 0 a = r at *
  split_ifs <;> omega

/-- Under an accepted configuration the angle within half a turn lies in `[0, PI)` (R121). -/
theorem halfTurnAngle_mem {c : Config} (h : configOk c = true) (a : Int) :
    0 ≤ halfTurnAngle c a ∧ halfTurnAngle c a < c.pi := by
  obtain ⟨-, ⟨hpos, hhalf, -, htwice, -, hlut, -⟩, -⟩ := (configOk_iff c).1 h
  obtain ⟨hlower, hupper⟩ := turnAngle_mem h a
  have hpi : 2 ≤ c.pi := by rw [Config.lutN] at hlut; omega
  exact subtractWhile_two c.pi _ hpi hlower (hupper.trans htwice)

/-- Settles O45. -/
theorem reducedAngleInQuadrant : Obligations.ReducedAngleInQuadrant := by
  intro c a h
  obtain ⟨hlower, hupper, hstrict⟩ := clampSin_bounds c h a
  exact ⟨hlower, hupper.trans (min_le_left _ _), hstrict⟩

/-- Settles O48: the fold is the angle within one turn, and the loop's answer the angle within half a turn. -/
theorem rangeReduction : Obligations.RangeReduction := by
  intro a _ r c2 k
  have hturn : c2 = turnAngle fmu.cfg a := by
    simp only [c2, r, turnAngle, reducePasses_eq_foldl, List.range_eq_range']
    rfl
  obtain ⟨n, hn, htwo, hhalf⟩ := subtractWhile_eq_sub 2 fmu.cfg.pi c2
  obtain ⟨turnLower, turnUpper⟩ := turnAngle_mem fmu.ok a
  obtain ⟨halfLower, halfUpper⟩ := halfTurnAngle_mem fmu.ok a
  obtain ⟨hlower, -, hstrict⟩ := clampSin_bounds fmu.cfg fmu.ok a
  rw [← hturn] at turnLower turnUpper
  refine ⟨turnLower, turnUpper, ?vertical, n, halfTurnAngle fmu.cfg a, hn, htwo, ?half, halfLower, halfUpper,
    ?horizontal, rfl, hlower, hstrict (by decide)⟩
  case vertical => rw [hturn]; exact decide_eq_true_iff
  case half => rw [halfTurnAngle, ← hturn]; exact hhalf
  case horizontal => exact decide_eq_true_iff

/-! ## Table positions -/

/-- LUT_INTERVAL under the defaults (R7). -/
theorem lutInterval_defaults : lutInterval defaults = 0x0001FFFF19349798 := by decide +kernel

/-- Settles O50. -/
theorem defaultConfiguration : Obligations.DefaultConfiguration :=
  ⟨fmu.ok, defaults_lutN, lutInterval_defaults, by decide +kernel, by decide +kernel⟩

/-- The table position and the residual are the two parts of the scaled and rounded angle (R122). -/
theorem tablePos_eq (c : Config) (a : Int) : tablePos c a =
    (fRound (mulfloor a (lutInterval c)) / 4294967296,
      mulfloor a (lutInterval c) - fRound (mulfloor a (lutInterval c))) := rfl

/-- Settles O49. -/
theorem tablePosition : Obligations.TablePosition := by
  intro c hlower hupper p t
  have hp : mulfloor c (lutInterval fmu.cfg) = p := congrArg (mulfloor c) lutInterval_defaults
  have ht : t = (fRound p / 4294967296, p - fRound p) := by rw [← hp]; exact tablePos_eq fmu.cfg c
  obtain ⟨hsum, eLower, eUpper, rLower, rUpper, -⟩ := tablePos_spec fmu.cfg fmu.ok c hlower hupper
  exact ⟨congrArg Prod.fst ht, congrArg Prod.snd ht, hsum.symm.trans hp, eLower, eUpper, rLower, rUpper⟩

/-! ## Sine and cosine -/

/-- Settles O51: the indices are those of `fSin_value`. -/
theorem sinResult : Obligations.SinResult := by
  intro s rd ra c k t i1 i2 n1 n2 d v
  obtain ⟨⟨lower1, upper1⟩, ⟨lower2, upper2⟩, hv⟩ := fSin_value fmu.cfg fmu.ok (s.rawX ra)
  exact ⟨lower1, upper1, lower2, upper2, completes_of_answer (i := .sin rd ra) rfl hv⟩

/-- Settles O52: the index is that of `fFsin_value`. -/
theorem fsinResult : Obligations.FsinResult := by
  intro s rd ra c k j i
  obtain ⟨⟨hlower, hupper⟩, hv⟩ := fFsin_value fmu.cfg fmu.ok (s.rawX ra)
  exact ⟨hlower, hupper, completes_of_answer (i := .fsin rd ra) rfl hv⟩

/-- The phase shift moves a raw value toward zero, so that it stays one (R126). -/
theorem cosAngle_isRaw {a : Int} (h : IsRaw a) : IsRaw (cosAngle defaults a) := by
  simp only [cosAngle, defaults, IsRaw, rawMin, rawMax] at *
  split_ifs <;> omega

/-- Settles O53. -/
theorem cosResults : Obligations.CosResults := by
  intro s rd ra a shifted
  obtain ⟨v, hv⟩ := fSin_answers fmu.ok shifted
  obtain ⟨w, hw⟩ := fFsin_answers fmu.ok shifted
  exact ⟨cosAngle_isRaw (s.rawX_isRaw ra), ⟨v, hv, completes_of_answer (i := .cos rd ra) rfl hv⟩,
    ⟨w, hw, completes_of_answer (i := .fcos rd ra) rfl hw⟩⟩

/-- R131 (a) for each of the four functions: COS and FCOS are SIN and FSIN of the shifted angle. -/
theorem sines_range {c : Config} (h : configOk c = true) (ht : TableProperties c) (a : Int) :
    ∀ r ∈ [fSin c a, fCos c a, fFsin c a, fFcos c a], ∃ v, r = .value v ∧ -rawOne ≤ v ∧ v ≤ rawOne := by
  simp only [List.forall_mem_cons]
  exact ⟨fSin_range c h ht a, fSin_range c h ht (cosAngle c a), fFsin_range c h ht a,
    fFsin_range c h ht (cosAngle c a), List.forall_mem_nil _⟩

/-- Settles O47: the default tables have the properties P1 to P4, so the machine is a case of the second part. -/
theorem sineRange : Obligations.SineRange := by
  refine ⟨fun s rd ra => ?machine, fun c a v h ht hv => ?functions⟩
  case machine =>
    have hrange := sines_range fmu.ok tableProperties_defaults (s.rawX ra)
    simp only [List.forall_mem_cons] at hrange ⊢
    obtain ⟨⟨sin, hsin, sinRange⟩, ⟨cos, hcos, cosRange⟩, ⟨fsin, hfsin, fsinRange⟩, ⟨fcos, hfcos, fcosRange⟩, -⟩ :=
      hrange
    exact ⟨⟨sin, completes_of_answer (i := .sin rd ra) rfl hsin, sinRange⟩,
      ⟨cos, completes_of_answer (i := .cos rd ra) rfl hcos, cosRange⟩,
      ⟨fsin, completes_of_answer (i := .fsin rd ra) rfl hfsin, fsinRange⟩,
      ⟨fcos, completes_of_answer (i := .fcos rd ra) rfl hfcos, fcosRange⟩, List.forall_mem_nil _⟩
  case functions =>
    have hmem : Res.value v ∈ [fSin c a, fCos c a, fFsin c a, fFcos c a] := by
      simpa only [List.mem_cons, List.not_mem_nil, or_false, eq_comm] using hv
    obtain ⟨u, hu, hrange⟩ := sines_range h ht a _ hmem
    obtain rfl : v = u := Res.value.inj hu
    exact hrange

/-! ## Tangent -/

/-- The angle TAN looks up and its flip, from the magnitude of the remainder (R129). -/
theorem tanReduce_eq (c : Config) (a : Int) : tanReduce c a =
    let m := trem a c.pi
    let mirrored := decide (|m| > c.piOver2)
    (if mirrored then c.piOver2 - (|m| - c.piOver2) else |m|, decide (m < 0) != mirrored) := by
  have habs : (if trem a c.pi < 0 then -trem a c.pi else trem a c.pi) = |trem a c.pi| := by
    split_ifs with h
    · exact (abs_of_neg h).symm
    · exact (abs_of_nonneg (not_lt.1 h)).symm
  simp only [tanReduce, habs]
  by_cases h : |trem a c.pi| > c.piOver2
  · simp [h]
  · simp [h]

/-- A word holds an integer as it holds the wrapped integer (R8). -/
theorem ofRaw_wrap64 (v : Int) : Word.ofRaw (wrap64 v) = Word.ofRaw v := BitVec.ofInt_toInt

/-- The wrap of R129's final negation is that of the write to the destination (R8). -/
theorem ofRaw_wrapped_neg (flip : Bool) (v : Int) :
    Word.ofRaw (if flip then wrap64 (-v) else v) = Word.ofRaw (if flip then -v else v) := by
  cases flip
  · rfl
  · exact ofRaw_wrap64 (-v)

/-- Settles O54: the indices are those of `fTan_value`, and the destination takes the negation modulo `2^64`. -/
theorem tanResult : Obligations.TanResult := by
  intro s rd ra c m mirrored angle flip t n1 n2 v
  have hreduce : tanReduce fmu.cfg (s.rawX ra) = (angle, flip) := tanReduce_eq fmu.cfg (s.rawX ra)
  obtain ⟨hlower, hupper⟩ := tanReduce_bounds fmu.cfg fmu.ok (s.rawX ra)
  obtain ⟨⟨lower1, upper1⟩, ⟨lower2, upper2⟩, hv⟩ := fTan_value fmu.cfg fmu.ok (s.rawX ra)
  rw [hreduce] at hlower hupper lower1 upper1 lower2 upper2 hv
  refine ⟨hlower, hupper, lower1, upper1, lower2, upper2, ?_⟩
  rw [← ofRaw_wrapped_neg]
  exact completes_of_answer (i := .tan rd ra) rfl hv

end Sys2Proof.Machine
end

section
/-!
The obligations on the inverse functions of the Trig Engine (spec/45_invtrig.md): the range and the oddness of ATAN, its
value by Euler's series, the cases of ATAN2, and ACOS as a composition.
-/

namespace Sys2Proof.Machine

/-! ## The range of ATAN -/

/-- ATAN answers on every operand, within a quarter turn and with the operand's sign (R140, R141). -/
theorem fAtan_range {a : Int} (ha : IsRaw a) : ∃ v, fAtan defaults a = .value v ∧ -defaults.piOver2 ≤ v ∧
    v ≤ defaults.piOver2 ∧ (a = 0 → v = 0) ∧ (0 ≤ a → 0 ≤ v) ∧ (a ≤ 0 → v ≤ 0) := by
  obtain ⟨r, hr, hlower, hupper, hzero, -⟩ := fAtan_value a ha
  refine ⟨_, hr, ?_⟩
  split_ifs <;> omega

/-- Settles O55: the bounds are those of `fAtan_range`, the oddness that of `fAtan_neg`. -/
theorem atanResult : Obligations.AtanResult := by
  intro s rd ra a
  have ha : IsRaw a := s.rawX_isRaw ra
  obtain ⟨v, hv, hlower, hupper, hzero, hnonneg, hnonpos⟩ := fAtan_range ha
  refine ⟨v, hv, completes_of_answer (i := .atan rd ra) rfl hv, hlower, hupper, hzero, hnonneg, hnonpos,
    fun hmin => ?odd⟩
  case odd =>
    obtain ⟨u, hu, hneg⟩ := fAtan_neg a ha hmin
    obtain rfl : v = u := Res.value.inj (hv.symm.trans hu)
    exact hneg

/-! ## The series of ATAN -/

/-- The divisor of R140's term after the `k`-th, `(2k + 3)·(1 + z²)` for `w` the square of `z`. -/
def atanDivisor (w : Int) (k : Nat) : Int := (2 * (k : Int) + 3) * (w + rawOne)

/-- The ratio of R140's term after the `k`-th to the `k`-th, rounded to the nearest tick. -/
def atanRatio (w : Int) (k : Nat) : Int :=
  (2 * (((k : Int) + 1) * (2 * w) * 4294967296) + atanDivisor w k) / (2 * atanDivisor w k)

/-- The terms of R140's series. -/
def atanTerm (w : Int) : Nat → Int
  | 0 => rawOne
  | k + 1 => atanTerm w k * atanRatio w k / 4294967296

/-- The sum of R140's series: its 29 terms. -/
def atanSum (w : Int) : Int := rawOne + ∑ k ∈ Finset.range 28, atanTerm w (k + 1)

/-- The arctangent of `z` by R140's series, for `z` from 0 to 1. -/
def atanValue (z : Int) : Int :=
  (2 * (atanSum (mulfloor z z) * z / 4294967296 * 4294967296) + (mulfloor z z + rawOne)) /
    (2 * (mulfloor z z + rawOne))

/-- A value that is not negative and at most `MAX` is a raw value (R8). -/
theorem isRaw_of_nonneg {v : Int} (h0 : 0 ≤ v) (h1 : v ≤ 9223372036854775807) : IsRaw v :=
  ⟨le_trans (by decide) h0, h1⟩

/-- A sum that is not negative and at most `MAX` does not saturate (R61). -/
theorem fAdd_of_nonneg {x y v : Int} (h : x + y = v) (h0 : 0 ≤ v) (h1 : v ≤ 9223372036854775807) : fAdd x y = v :=
  h ▸ clamp_of_isRaw (isRaw_of_nonneg (h ▸ h0) (h ▸ h1))

/-- The closed form of R70 for a dividend below `2^31` times its divisor. -/
theorem fDiv_of_nonneg {a b : Int} (ha : IsRaw a) (hb : IsRaw b) (h0 : 0 ≤ a) (hpos : 0 < b)
    (hfits : a < 2147483648 * b) : fDiv a b = .value ((2 * (a * 4294967296) + b) / (2 * b)) := by
  rw [fDiv_of_ne _ _ hpos.ne', divide_nonneg _ _ ha hb h0 hpos, if_neg (by omega)]

/-- One is not negative. -/
theorem rawOne_nonneg : 0 ≤ rawOne := by decide

/-- Once a term of R140's series is zero, every later one is. -/
theorem atanTerm_zero {w : Int} {k : Nat} (h : atanTerm w k = 0) (j : Nat) : atanTerm w (k + j) = 0 := by
  induction j with
  | zero => exact h
  | succ j ih => rw [← add_assoc, atanTerm, ih, zero_mul, Int.zero_ediv]

section
variable {w : Int} (hw0 : 0 ≤ w) (hw1 : w ≤ rawOne)
include hw0 hw1

/-- The dividend and the divisor of R140's ratio stay far below saturation. -/
theorem atanDivisor_bounds {k : Nat} (hk : k ≤ 28) : 0 ≤ ((k : Int) + 1) * (2 * w) ∧
    ((k : Int) + 1) * (2 * w) < atanDivisor w k ∧ atanDivisor w k ≤ 118 * rawOne := by
  have hkw : (k : Int) * w ≤ 28 * w := mul_le_mul_of_nonneg_right (by omega) hw0
  have hkw0 : 0 ≤ (k : Int) * w := mul_nonneg k.cast_nonneg hw0
  have hdividend : ((k : Int) + 1) * (2 * w) = 2 * (k * w) + 2 * w := by ring
  have hdivisor : atanDivisor w k = 2 * (k * w) + 3 * w + (2 * k + 3) * 4294967296 := by
    simp only [atanDivisor, rawOne]; ring
  rw [hdividend, hdivisor]
  simp only [rawOne] at *
  omega

/-- DIV computes R140's ratio, at most one half. -/
theorem fDiv_atanRatio {k : Nat} (hk : k ≤ 27) :
    fDiv (((k : Int) + 1) * (2 * w)) (atanDivisor w k) = .value (atanRatio w k) ∧
      0 ≤ atanRatio w k ∧ atanRatio w k ≤ 2147483648 := by
  obtain ⟨hlower, hless, hupper⟩ := atanDivisor_bounds hw0 hw1 (show k ≤ 28 by omega)
  simp only [rawOne] at hupper
  have hdiv : fDiv (((k : Int) + 1) * (2 * w)) (atanDivisor w k) = .value (atanRatio w k) :=
    fDiv_of_nonneg (isRaw_of_nonneg hlower (by omega)) (isRaw_of_nonneg (by omega) (by omega)) hlower (by omega)
      (by omega)
  obtain ⟨q, hq, hq0, hq1⟩ := atan_ratio w (k + 1) hw0 hw1 (by omega) (by omega)
  have hdivisor : (2 * ((k : Int) + 1) + 1) * (w + rawOne) = atanDivisor w k := by rw [atanDivisor]; ring
  rw [hdivisor] at hq
  obtain rfl : atanRatio w k = q := Res.value.inj (hdiv.symm.trans hq)
  exact ⟨hdiv, hq0, hq1⟩

/-- Each term of R140's series is at most half the one before it. -/
theorem atanTerm_halves {k : Nat} (hk : k ≤ 27) (h0 : 0 ≤ atanTerm w k) :
    0 ≤ atanTerm w (k + 1) ∧ 2 * atanTerm w (k + 1) ≤ atanTerm w k := by
  obtain ⟨-, hq0, hq1⟩ := fDiv_atanRatio hw0 hw1 hk
  have hp0 : 0 ≤ atanTerm w k * atanRatio w k := mul_nonneg h0 hq0
  have hp1 : atanTerm w k * atanRatio w k ≤ atanTerm w k * 2147483648 := mul_le_mul_of_nonneg_left hq1 h0
  rw [atanTerm]
  omega

/-- One pass of R140's loop: the next term is added, and the dividend and the divisor move on to the one after. -/
theorem atanSeries_succ {k fuel : Nat} {result : Int} (hk : k ≤ 27) (h0 : 0 ≤ atanTerm w k) (hr : 0 ≤ result)
    (hs : result + atanTerm w k ≤ 2 * rawOne) :
    atanSeries ⟨2 * w, 2 * (w + rawOne)⟩ (fuel + 1) (atanTerm w k) result ((k + 1) * (2 * w)) (atanDivisor w k) =
      if atanTerm w (k + 1) = 0 then .value (result + atanTerm w (k + 1))
      else atanSeries ⟨2 * w, 2 * (w + rawOne)⟩ fuel (atanTerm w (k + 1)) (result + atanTerm w (k + 1))
        (((k + 1 : Nat) + 1) * (2 * w)) (atanDivisor w (k + 1)) := by
  obtain ⟨hdiv, hq0, hq1⟩ := fDiv_atanRatio hw0 hw1 hk
  obtain ⟨hn0, hn1⟩ := atanTerm_halves hw0 hw1 hk h0
  obtain ⟨hlower, hless, hupper⟩ := atanDivisor_bounds hw0 hw1 (show k + 1 ≤ 28 by omega)
  have hdividend : ((k : Int) + 1) * (2 * w) + 2 * w = ((k + 1 : Nat) + 1) * (2 * w) := by push_cast; ring
  have hdivisor : atanDivisor w k + 2 * (w + rawOne) = atanDivisor w (k + 1) := by
    simp only [atanDivisor]; push_cast; ring
  have hone : rawOne = 4294967296 := rfl
  have hnext : IsRaw (atanTerm w (k + 1)) := isRaw_of_nonneg hn0 (by omega)
  have hmul : fMul (atanTerm w k) (atanRatio w k) = atanTerm w (k + 1) :=
    fMul_of_nonneg _ _ (isRaw_of_nonneg h0 (by omega)) (isRaw_of_nonneg hq0 (by omega)) h0 hnext
  rw [atanSeries, hdiv]
  simp only [Res.andThen_value, hmul]
  rw [fAdd_of_nonneg hdividend hlower (by omega), fAdd_of_nonneg hdivisor (by omega) (by omega),
    fAdd_of_nonneg rfl (by omega) (by omega)]

/-- A run of R140's loop adds up the terms from the next one on, as far as it may run. -/
theorem atanSeries_eq_sum (fuel k : Nat) (result : Int) (hk : k + fuel ≤ 28) (h0 : 0 ≤ atanTerm w k)
    (hr : 0 ≤ result) (hs : result + atanTerm w k ≤ 2 * rawOne) :
    atanSeries ⟨2 * w, 2 * (w + rawOne)⟩ fuel (atanTerm w k) result ((k + 1) * (2 * w)) (atanDivisor w k) =
      .value (result + ∑ j ∈ Finset.range fuel, atanTerm w (k + 1 + j)) := by
  induction fuel generalizing k result with
  | zero => simp [atanSeries]
  | succ n ih =>
    obtain ⟨hn0, hn1⟩ := atanTerm_halves hw0 hw1 (show k ≤ 27 by omega) h0
    have hsum : ∑ j ∈ Finset.range (n + 1), atanTerm w (k + 1 + j) =
        atanTerm w (k + 1) + ∑ j ∈ Finset.range n, atanTerm w (k + 1 + 1 + j) := by
      rw [Finset.sum_range_succ', add_zero, add_comm]
      simp only [add_assoc, add_comm 1]
    rw [atanSeries_succ hw0 hw1 (by omega) h0 hr hs, hsum, ← add_assoc]
    split_ifs with hz
    · -- the loop ends here: every later term is zero
      rw [Finset.sum_eq_zero fun j _ => by rw [add_assoc (k + 1), atanTerm_zero hz], add_zero]
    · exact ih (k + 1) _ (by omega) hn0 (by omega) (by omega)

/-- R140's loop answers the sum of the series, between `ONE` and `2·ONE`. -/
theorem atanSeries_eq_atanSum :
    atanSeries ⟨2 * w, 2 * (w + rawOne)⟩ 28 rawOne rawOne (2 * w) (3 * (w + rawOne)) = .value (atanSum w) ∧
      rawOne ≤ atanSum w ∧ atanSum w ≤ 2 * rawOne := by
  have hrun := atanSeries_eq_sum hw0 hw1 28 0 rawOne le_rfl rawOne_nonneg rawOne_nonneg (two_mul rawOne).ge
  obtain ⟨v, hv, hlower, hupper⟩ :=
    atanSeries_spec w hw0 hw1 28 1 rawOne rawOne le_rfl (by norm_num) (by decide) le_rfl (by decide)
  simp only [atanTerm, atanDivisor, Nat.cast_zero, mul_zero, zero_add, one_mul, add_comm 1] at hrun
  simp only [one_mul, mul_one, Int.reduceAdd] at hv
  obtain rfl : atanSum w = v := Res.value.inj (hrun.symm.trans hv)
  exact ⟨hv, hlower, hupper⟩

end

/-- MUL by a small integer is exact (R67). -/
theorem fMul_natCast {x : Int} {n : Nat} (hn : n ≤ 3) (h0 : 0 ≤ x) (h1 : x ≤ 2 * rawOne) :
    fMul x (n * rawOne) = n * x := by
  have hfloor : mulfloor x (n * rawOne) = n * x := by
    rw [mulfloor, ← mul_assoc, mul_comm x]
    exact Int.mul_ediv_cancel _ (by decide)
  have hn0 : 0 ≤ n * x := mul_nonneg n.cast_nonneg h0
  have hn1 : n * x ≤ 3 * x := mul_le_mul_of_nonneg_right (by omega) h0
  have hone : rawOne = 4294967296 := rfl
  have hraw : IsRaw (n * rawOne) := by rw [hone]; exact isRaw_of_nonneg (by omega) (by omega)
  rw [fMul_of_nonneg _ _ (isRaw_of_nonneg h0 (by omega)) hraw h0 (hfloor.symm ▸ isRaw_of_nonneg hn0 (by omega)),
    hfloor]

/-- The square of a value from 0 to 1 is one too, and not below the tangent to it at 1. -/
theorem mulfloor_self_bounds {z : Int} (h0 : 0 ≤ z) (h1 : z ≤ rawOne) :
    0 ≤ mulfloor z z ∧ mulfloor z z ≤ rawOne ∧ 2 * z ≤ mulfloor z z + rawOne := by
  have hz0 : 0 ≤ z * z := mul_nonneg h0 h0
  have hz1 : z * z ≤ z * 4294967296 := mul_le_mul_of_nonneg_left h1 h0
  have hsq : 0 ≤ (z - 4294967296) * (z - 4294967296) := mul_self_nonneg _
  have hexpand : (z - 4294967296) * (z - 4294967296) = z * z - 8589934592 * z + 18446744073709551616 := by ring
  simp only [mulfloor, rawOne] at *
  omega

/-- The arctangent of a value from 0 to 1 is that of the series: no primitive saturates (R140). -/
theorem atanUnit_eq_atanValue {z : Int} (h0 : 0 ≤ z) (h1 : z ≤ rawOne) : atanUnit z = .value (atanValue z) := by
  obtain ⟨hw0, hw1, htangent⟩ := mulfloor_self_bounds h0 h1
  obtain ⟨hrun, hsum0, hsum1⟩ := atanSeries_eq_atanSum hw0 hw1
  have hone : rawOne = 4294967296 := rfl
  have hraw : IsRaw z := isRaw_of_nonneg h0 (by omega)
  have hsquare : fMul z z = mulfloor z z := fMul_of_nonneg _ _ hraw hraw h0 (isRaw_of_nonneg hw0 (by omega))
  have hadd : fAdd (mulfloor z z) rawOne = mulfloor z z + rawOne := fAdd_of_nonneg rfl (by omega) (by omega)
  have hdouble := fMul_natCast (n := 2) (by decide) hw0 (by omega)
  have hdoubleSum := fMul_natCast (x := mulfloor z z + rawOne) (n := 2) (by decide) (by omega) (by omega)
  have htripleSum := fMul_natCast (x := mulfloor z z + rawOne) (n := 3) (by decide) (by omega) (by omega)
  push_cast at hdouble hdoubleSum htripleSum
  -- the sum times `z` is at most `2·ONE`
  have hp0 : 0 ≤ atanSum (mulfloor z z) * z := mul_nonneg (rawOne_nonneg.trans hsum0) h0
  have hp1 : atanSum (mulfloor z z) * z ≤ 2 * 4294967296 * z := mul_le_mul_of_nonneg_right hsum1 h0
  have hfloor := mulfloor_bounds (atanSum (mulfloor z z)) z
  have hprod : fMul (atanSum (mulfloor z z)) z = mulfloor (atanSum (mulfloor z z)) z :=
    fMul_of_nonneg _ _ (isRaw_of_nonneg (by omega) (by omega)) hraw (by omega)
      (isRaw_of_nonneg (by omega) (by omega))
  simp only [atanUnit, hsquare, hadd, hdouble, hdoubleSum, htripleSum]
  rw [hrun, Res.andThen_value, hprod]
  exact fDiv_of_nonneg (isRaw_of_nonneg (by omega) (by omega)) (isRaw_of_nonneg (by omega) (by omega)) (by omega)
    (by omega) (by omega)

/-- The series on zero is zero. -/
theorem atanValue_zero : atanValue 0 = 0 := by
  simp only [atanValue, mulfloor, mul_zero, Int.zero_ediv, zero_mul]
  decide

/-- The operand of R140's series: the magnitude, inverted above one. -/
def atanArgument (a : Int) : Int := if rawOne < |a| then reciprocal |a| else |a|

/-- The operand of R140's series lies from 0 to 1. -/
theorem atanArgument_mem {a : Int} (ha : IsRaw a) : 0 ≤ atanArgument a ∧ atanArgument a ≤ rawOne := by
  have hle : |a| ≤ 9223372036854775808 := by simp only [IsRaw, rawMin, rawMax, abs_le] at *; omega
  have hpos := abs_nonneg a
  rw [atanArgument]
  split_ifs with h
  · rw [reciprocal]
    simp only [rawOne] at *
    exact ⟨Int.ediv_nonneg (by omega) (by omega),
      Int.lt_add_one_iff.1 ((Int.ediv_lt_iff_lt_mul (by omega)).2 (by omega))⟩
  · exact ⟨hpos, not_lt.1 h⟩

/-- The magnitude R140 works on is the absolute value, saturated at `MIN`. -/
theorem atanMagnitude_eq_fAbs (a : Int) : atanMagnitude a = fAbs a := by
  simp only [atanMagnitude, fNeg, fAbs]
  split_ifs with hneg hmin hmin
  · rfl
  · exact (abs_of_neg hneg).symm
  · rw [hmin] at hneg; exact absurd (by decide) hneg
  · exact (abs_of_nonneg (not_lt.1 hneg)).symm

/-- The saturation at `MIN` does not show: it is inverted, and the reciprocals are the same (R140). -/
theorem atanMagnitude_invert {a : Int} (ha : IsRaw a) : (rawOne < atanMagnitude a ↔ rawOne < |a|) ∧
    (if rawOne < atanMagnitude a then divide rawOne (atanMagnitude a) else atanMagnitude a) = atanArgument a := by
  by_cases hmin : a = rawMin
  · subst hmin
    decide +kernel
  rw [atanMagnitude_eq_fAbs, fAbs, if_neg hmin, atanArgument]
  refine ⟨Iff.rfl, ?_⟩
  split_ifs with h
  · have hmax : |a| ≤ rawMax := by simp only [IsRaw, rawMin, rawMax, abs_le] at *; omega
    have hpos : |a| ≠ 0 := (rawOne_nonneg.trans_lt h).ne'
    exact Res.value.inj ((fDiv_of_ne _ _ hpos).symm.trans (fDiv_rawOne h.le hmax))
  · rfl

/-- ATAN is the series on the magnitude, taken from a quarter turn where it was inverted, with the operand's sign
(R140). -/
theorem fAtan_eq_atanValue {a : Int} (ha : IsRaw a) :
    let u := atanValue (atanArgument a)
    let r := if rawOne < |a| then defaults.piOver2 - u else u
    fAtan defaults a = .value (if a < 0 then -r else r) := by
  intro u r
  obtain ⟨q, hq, -, -, hzero, hseries⟩ := fAtan_value a ha
  suffices hr : q = r by rw [hq, hr]
  by_cases h0 : a = 0
  · subst h0
    exact (hzero rfl).trans atanValue_zero.symm
  · obtain ⟨hinvert, hargument⟩ := atanMagnitude_invert ha
    obtain ⟨hlower, hupper⟩ := atanArgument_mem ha
    obtain ⟨z, v, hv, hz, hqv⟩ := hseries h0
    obtain rfl : z = atanArgument a := hz.trans hargument
    obtain rfl : u = v := Res.value.inj ((atanUnit_eq_atanValue hlower hupper).symm.trans hv)
    simp only [hqv, r, gt_iff_lt, hinvert]

/-- Settles O56: the terms are those of `atanTerm`. (`atanSeries` itself names the model's loop.) -/
theorem atan_series : Obligations.AtanSeries := by
  intro s rd ra a z w d
  exact ⟨atanTerm w, rfl, fun k => rfl,
    completes_of_answer (i := .atan rd ra) rfl (fAtan_eq_atanValue (s.rawX_isRaw ra))⟩

/-! ## The cases of ATAN2 -/

/-- The magnitude test of R142 on the absolute value, which saturates at `MIN`. -/
theorem fAbs_lt_one_iff (z : Int) : fAbs z < rawOne ↔ |z| < rawOne := by
  rw [fAbs_lt_one, Int.abs_eq_natAbs, rawOne]
  omega

/-- ATAN2 on the axis `x = 0` answers a quarter turn with the sign of `y`, or 0 (R142). -/
theorem fAtan2_axis (c : Config) (y : Int) :
    fAtan2 c y 0 = .value (if y > 0 then c.piOver2 else if y = 0 then 0 else fNeg c.piOver2) := if_pos rfl

/-- The denominator of R142's first form, `1 + 0.28 z²`, saturating. -/
def atan2Denominator (c : Config) (z : Int) : Int := fAdd rawOne (fMul (fMul c.k028 z) z)

section
variable {y x z : Int} (hx : x ≠ 0) (hz : fDiv y x = .value z)
include hx hz

/-- ATAN2 where the denominator overflows: a quarter turn with the sign of `y` (R142). -/
theorem fAtan2_overflow {c : Config} (hden : atan2Denominator c z = rawMax) :
    fAtan2 c y x = .value (if y < 0 then fNeg c.piOver2 else c.piOver2) := by
  rw [fAtan2, if_neg hx, hz, Res.andThen_value]
  exact if_pos hden

/-- ATAN2 by the first rational form, for a quotient below one: the form answers at most one radian, so that the
quadrant correction does not saturate (R142). -/
theorem fAtan2_small (hraw : IsRaw z) (hden : atan2Denominator defaults z ≠ rawMax) (hsmall : |z| < rawOne) :
    ∃ q, fDiv z (atan2Denominator defaults z) = .value q ∧
      fAtan2 defaults y x =
        .value (if x < 0 then (if y < 0 then q - defaults.pi else q + defaults.pi) else q) := by
  have habs : fAbs z < rawOne := (fAbs_lt_one_iff z).2 hsmall
  have hone : rawOne = 4294967296 := rfl
  obtain ⟨hq, hlower, hupper, -⟩ := atan2_small z (atan2Denominator defaults z) hraw (fAdd_isRaw _ _)
    (atan2_denominator z hraw) ((fAbs_lt_one z).1 habs)
  obtain ⟨hadd, hsub⟩ :=
    angle_sum (divide z (atan2Denominator defaults z)) defaults.pi (by omega) (by decide)
  refine ⟨_, hq, ?_⟩
  rw [← hadd, ← hsub, fAtan2, if_neg hx, hz, Res.andThen_value]
  exact (if_neg hden).trans ((if_pos habs).trans (congrArg (Res.andThen · _) hq))

/-- ATAN2 by the second rational form, for a quotient from one on, whose quadrant correction does not saturate either
(R142). -/
theorem fAtan2_large (hraw : IsRaw z) (hden : atan2Denominator defaults z ≠ rawMax) (hlarge : rawOne ≤ |z|) :
    ∃ q, fDiv z (fAdd (fMul z z) defaults.k028) = .value q ∧
      fAtan2 defaults y x =
        .value (if y < 0 then defaults.piOver2 - q - defaults.pi else defaults.piOver2 - q) := by
  have habs : ¬ fAbs z < rawOne := mt (fAbs_lt_one_iff z).1 (not_lt.2 hlarge)
  have hone : rawOne = 4294967296 := rfl
  have hquarter : defaults.piOver2 = 6746518852 := rfl
  obtain ⟨q, hq, hlower, hupper, -⟩ := atan2_large z hraw (not_lt.1 (mt (fAbs_lt_one z).2 habs))
  obtain ⟨-, hsub⟩ := angle_sum defaults.piOver2 q (by decide) (by omega)
  obtain ⟨-, hcorrect⟩ := angle_sum (defaults.piOver2 - q) defaults.pi (by omega) (by decide)
  refine ⟨q, hq, ?_⟩
  rw [← hcorrect, ← hsub, fAtan2, if_neg hx, hz, Res.andThen_value]
  exact (if_neg hden).trans ((if_neg habs).trans (congrArg (Res.andThen · _) hq))

end

/-- Settles O57: the range is that of `fAtan2_spec`, the value that of the case the operands fall in. -/
theorem atan2Result : Obligations.Atan2Result := by
  intro s rd ra rb y x
  have hy : IsRaw y := s.rawX_isRaw ra
  have hx : IsRaw x := s.rawX_isRaw rb
  obtain ⟨v, hv, hlower, hupper⟩ := fAtan2_spec y x hy hx
  have hvalue : ∀ {u}, fAtan2 defaults y x = .value u → v = u := fun h => Res.value.inj (hv.symm.trans h)
  refine ⟨v, completes_of_answer (i := .atan2 rd ra rb) rfl hv, hlower, hupper, fun h0 => ?axis, fun h0 => ?quotient⟩
  case axis => exact hvalue (h0 ▸ fAtan2_axis defaults y)
  case quotient =>
    have hz : fDiv y x = .value (divide y x) := fDiv_of_ne y x h0
    have hraw : IsRaw (divide y x) := divide_isRaw y x hy hx h0
    exact ⟨divide y x, atan2Denominator defaults (divide y x), hz, rfl, atan2_denominator _ hraw,
      fun hden => hvalue (fAtan2_overflow h0 hz hden),
      fun hden hsmall => (fAtan2_small h0 hz hraw hden hsmall).imp fun _ ⟨hq, hval⟩ => ⟨hq, hvalue hval⟩,
      fun hden hlarge => (fAtan2_large h0 hz hraw hden hlarge).imp fun _ ⟨hq, hval⟩ => ⟨hq, hvalue hval⟩⟩

/-! ## ACOS -/

/-- ACOS of a value outside `[−ONE, ONE]` is a domain error (R144). -/
theorem fAcos_outside (c : Config) {a : Int} (h : a < -rawOne ∨ rawOne < a) : fAcos c a = .domainError := if_pos h

/-- The square of a value within `[−ONE, ONE]`, and what it leaves of `ONE`: neither primitive saturates (R144). -/
theorem fSub_one_square {a : Int} (hlower : -rawOne ≤ a) (hupper : a ≤ rawOne) :
    fSub rawOne (fMul a a) = rawOne - mulfloor a a ∧ 0 ≤ rawOne - mulfloor a a ∧
      rawOne - mulfloor a a ≤ rawOne := by
  have hraw : IsRaw a := ⟨le_trans (by decide) hlower, hupper.trans (by decide)⟩
  have hsq0 : 0 ≤ a * a := mul_self_nonneg a
  have hsq1 : a * a ≤ rawOne * rawOne := abs_le_iff_mul_self_le.1 (abs_le.2 ⟨hlower, hupper⟩)
  obtain ⟨hmul, -, -⟩ := fMul_self_bounds a hraw
  have hfloor : 0 ≤ mulfloor a a ∧ mulfloor a a ≤ rawOne := by simp only [mulfloor, rawOne] at *; omega
  have hone : rawOne = 4294967296 := rfl
  rw [hmul, clamp_of_isRaw (isRaw_of_nonneg hfloor.1 (by omega))]
  exact ⟨clamp_of_isRaw (isRaw_of_nonneg (by omega) (by omega)), by omega, by omega⟩

/-- ACOS of a value in its domain other than zero: the root, the quotient and the arctangent answer, and the sum with
`PI` does not saturate (R144). -/
theorem fAcos_of_ne {a : Int} (hlower : -rawOne ≤ a) (hupper : a ≤ rawOne) (h0 : a ≠ 0) :
    ∃ t q r, fSqrt (rawOne - mulfloor a a) = .value t ∧ fDiv t a = .value q ∧ fAtan defaults q = .value r ∧
      fAcos defaults a = .value (if a < 0 then r + defaults.pi else r) := by
  have hraw : IsRaw a := ⟨le_trans (by decide) hlower, hupper.trans (by decide)⟩
  obtain ⟨hsub, hrad0, hrad1⟩ := fSub_one_square hlower hupper
  obtain ⟨t, ht, ht0, ht1⟩ := fSqrt_spec _ hrad0 (isRaw_of_nonneg hrad0 (hrad1.trans (by decide)))
  have htr : IsRaw t := isRaw_of_nonneg ht0 (ht1.trans (by decide))
  have hq : fDiv t a = .value (divide t a) := fDiv_of_ne t a h0
  obtain ⟨r, hr, hr0, hr1, -⟩ := fAtan_range (divide_isRaw t a htr hraw h0)
  have hquarter : defaults.piOver2 = 6746518852 := rfl
  obtain ⟨hadd, -⟩ := angle_sum r defaults.pi (by omega) (by decide)
  refine ⟨t, divide t a, r, ht, hq, hr, ?_⟩
  rw [fAcos, if_neg (not_or.2 ⟨not_lt.2 hlower, not_lt.2 hupper⟩), if_neg h0, hsub, ht, Res.andThen_value, hq,
    Res.andThen_value, hr, Res.andThen_value, hadd]

/-- Settles O58: the range is that of `fAcos_spec`, the value that of `fAcos_of_ne`, evaluated at the ends of the
domain. -/
theorem acosResult : Obligations.AcosResult := by
  intro s rd ra a
  refine ⟨fun hlower hupper => ?inside, fun h => raises_of_domainError (i := .acos rd ra) rfl (fAcos_outside _ h)⟩
  case inside =>
    obtain ⟨v, hv, hv0, hv1⟩ := fAcos_spec a hlower hupper
    have hvalue : ∀ {b u}, fAcos defaults b = .value u → a = b → v = u := by
      rintro _ u h rfl
      exact Res.value.inj (hv.symm.trans h)
    refine ⟨v, completes_of_answer (i := .acos rd ra) rfl hv, hv0, hv1, hvalue (b := 0) rfl,
      hvalue (b := rawOne) (by decide +kernel), hvalue (b := -rawOne) (by decide +kernel), fun h0 => ?composed⟩
    obtain ⟨t, q, r, ht, hq, hr, hacos⟩ := fAcos_of_ne hlower hupper h0
    exact ⟨t, q, r, ht, hq, hr, hvalue hacos rfl⟩

end Sys2Proof.Machine
end

section
/-!
The obligations on exceptions (spec/60_exceptions.md): which command raises what (R153), what a raise leaves behind
(R152, R154, R155), error hold and the return from it (R156, R157), and the output that shows it (R161, R169).
-/

namespace Sys2Proof.Machine

/-! ## The error a function answers -/

/-- The error kind a command raises where its function gives this answer (R9). -/
def Res.raised : Res → Option ErrorKind
  | .divideByZero => some .divideByZero
  | .domainError => some .domainError
  | .value _ | .any | .noEntry => none

@[simp] theorem Res.raised_divideByZero : Res.divideByZero.raised = some .divideByZero := rfl
@[simp] theorem Res.raised_domainError : Res.domainError.raised = some .domainError := rfl
@[simp] theorem Res.raised_value (v : Int) : (Res.value v).raised = none := rfl
@[simp] theorem Res.raised_any : Res.any.raised = none := rfl
@[simp] theorem Res.raised_noEntry : Res.noEntry.raised = none := rfl

@[simp] theorem Res.raised_ite (p : Prop) [Decidable p] (r q : Res) :
    (if p then r else q).raised = if p then r.raised else q.raised := apply_ite Res.raised p r q

/-- A function that answers a value raises nothing. -/
theorem Res.raised_of_value {r : Res} (h : ∃ v, r = .value v) : r.raised = none := by
  obtain ⟨v, rfl⟩ := h
  rfl

/-- A composition whose second part answers values raises what its first part does (R9). -/
theorem Res.raised_andThen_value (r : Res) (f : Int → Int) : (r.andThen fun v => .value (f v)).raised = r.raised := by
  cases r <;> rfl

/-- POW raises DivideByZero for a negative power of zero, DomainError for a power of a negative base, and nothing
else (R110, R111). -/
theorem raised_fPow {b e : Int} (hb : IsRaw b) (he : IsRaw e) : (fPow defaults b e).raised =
    if b = 0 ∧ e < 0 then some .divideByZero else if b < 0 ∧ e ≠ 0 then some .domainError else none := by
  by_cases hzero : e = 0
  · rw [fPow_of_one_or_zero _ (Or.inr hzero)]
    simp [hzero]
  rcases lt_trichotomy b 0 with hneg | rfl | hpos
  · have hone : b ≠ rawOne := (hneg.trans (by decide)).ne
    simp [fPow_of_ne _ hone hzero hneg.ne, fLog2_of_nonpos hneg.le, Res.andThen, hneg, hneg.ne, hzero]
  · simp [fPow_zero _ hzero]
  · rw [Res.raised_of_value ((fPow_positive b e hb he hpos).imp fun _ h => h.1)]
    simp [hpos.ne', hpos.not_gt]

/-- ACOS raises DomainError outside `[−ONE, ONE]` and nothing inside it (R144). -/
theorem raised_fAcos (a : Int) :
    (fAcos defaults a).raised = if a < -rawOne ∨ a > rawOne then some .domainError else none := by
  split_ifs with hdom
  · rw [fAcos_outside _ hdom, Res.raised_domainError]
  · obtain ⟨hlower, hupper⟩ := not_or.1 hdom
    exact Res.raised_of_value ((fAcos_spec a (not_lt.1 hlower) (not_lt.1 hupper)).imp fun _ h => h.1)

/-- The function of every command raises what the table says, on the operands it says (R153). -/
theorem raised_answer (s : State) (i : Instr) : (answer fmu s i).raised = raiseTable s i := by
  have hraw := s.rawX_isRaw
  cases i <;> simp only [answer, raiseTable, Res.raised_value]
  -- the guard of the function is the condition of the table
  case div | mod | fmod => simp [fDiv, fMod, fFmod]
  case itof | sqrt | log2 => simp [fItof, fSqrt, fLog2]
  case ln => simp [fLn, Res.raised_andThen_value, fLog2]
  case fadd | fsub | fmul => simp [fFadd, fFsub, fFmul]
  case pow => exact raised_fPow (hraw _) (hraw _)
  case acos => exact raised_fAcos _
  case ldc => split <;> rfl
  case pow2 => exact Res.raised_of_value ⟨_, fPow2_eq_pow2Value _⟩
  case sin | cos => exact Res.raised_of_value (fSin_answers fmu.ok _)
  case tan => exact Res.raised_of_value (fTan_answers fmu.ok _)
  case fsin | fcos => exact Res.raised_of_value (fFsin_answers fmu.ok _)
  case atan => exact Res.raised_of_value ((fAtan_range (hraw _)).imp fun _ h => h.1)
  case atan2 => exact Res.raised_of_value ((fAtan2_spec _ _ (hraw _) (hraw _)).imp fun _ h => h.1)

/-! ## The error a command raises -/

/-- On a ready unit the completion of a command latches the error of the answer, if there is one (R50, R152). -/
theorem finish_latched_iff {w : CmdWord} {rd : Reg} {r : Res} {s t : State} {k : ErrorKind} (hready : s.err = .none)
    (h : finish w rd r s = .next t) : t.err = .latched k ↔ r.raised = some k := by
  rcases finish_next h with ⟨v, rfl, rfl⟩ | ⟨rfl, rfl⟩ | ⟨rfl, rfl⟩ | ⟨rfl, rfl⟩ <;> simp [hready]

/-- On a ready unit a command latches the error of the table, if there is one (R153). -/
theorem exec_latched_iff {i : Instr} {s t : State} {k : ErrorKind} (hw : i.wellFormed = true) (hready : s.err = .none)
    (h : exec i s = .next t) : t.err = .latched k ↔ raiseTable s i = some k := by
  rw [exec_eq_finish i s hw] at h
  rw [finish_latched_iff hready h, raised_answer]

/-- A command raises the error the table says (R152, R153). -/
theorem raises_of_raiseTable {i : Instr} {s : State} {k : ErrorKind} (hw : i.wellFormed = true)
    (h : raiseTable s i = some k) : Raises i s k := by
  rw [← raised_answer] at h
  cases hr : answer fmu s i <;> rw [hr] at h <;> cases h
  case divideByZero => exact raises_of_divideByZero hw hr
  case domainError => exact raises_of_domainError hw hr

/-- Settles O19. -/
theorem raiseConditions : Obligations.RaiseConditions := by
  refine fun i s hw hready k => ⟨fun hraises => ?raised, raises_of_raiseTable hw⟩
  case raised =>
    obtain ⟨t, hexec, -, herr, -⟩ := hraises
    exact (exec_latched_iff hw hready hexec).1 herr

/-- Whatever the table lets a command raise on its operands is among the kinds it can raise (R153). -/
theorem mem_mayRaise {s : State} {i : Instr} {k : ErrorKind} (h : raiseTable s i = some k) : k ∈ mayRaise i := by
  cases i
  case div | mod | fmod | itof | sqrt | log2 | ln | acos =>
    obtain ⟨-, hk⟩ := Option.ite_none_right_eq_some.1 h
    cases hk
    exact List.mem_singleton.2 rfl
  case pow rd ra rb =>
    simp only [raiseTable] at h
    split_ifs at h <;> cases h <;> simp [mayRaise]
  all_goals cases h

/-- The acknowledge of a raise on a ready unit leaves the command's word in FCMD and nothing else (R155, R157). -/
theorem acknowledge_raise {s : State} (hready : s.err = .none) (k : ErrorKind) (w : CmdWord) :
    (s.raise k w).acknowledge = { s with fcmd := w } := by
  simp only [State.raise, State.acknowledge, ← hready]

/-- Settles O20: of the things a command can do, only a raise latches an error. -/
theorem raiseIsRestartable : Obligations.RaiseIsRestartable := by
  intro i s t hready h herr
  rcases exec_next h with ⟨w, rfl⟩ | rfl | ⟨k, rfl⟩
  · exact absurd hready herr
  · exact absurd hready herr
  · exact acknowledge_raise hready k _

/-! ## The fault output -/

/-- The output is high while an error is latched (R161). -/
theorem faultO_iff (s : State) : s.faultO = true ↔ s.err ≠ .none := by
  rw [Ne, ← State.faultO_eq_false_iff, Bool.not_eq_false]

/-- STATUS reads as zero exactly on a ready unit: no error kind has the code 0 (R14, R16). -/
theorem status_eq_zero_iff (s : State) : s.status = 0#64 ↔ s.err = .none := by
  cases h : s.err with
  | none => simp [status_of_ready h]
  | latched k =>
    rw [status_of_latched h]
    cases k <;> decide

/-- Settles O12. -/
theorem faultOutput : Obligations.FaultOutput :=
  fun s => ⟨faultO_iff s, (faultO_iff s).trans (status_eq_zero_iff s).not.symm⟩

/-! ## What a host event does to `ERR` and `FCMD` -/

/-- The events that return the unit from error hold: reset and the ERRACK write (R157, R169). -/
def ReturnsReady (e : HostEvent) : Prop := e = .reset ∨ ∃ v, e = .write 0x12#5 v

/-- A CMD write of `v` on a ready unit raises `k`: the word is illegal, or the operands of its command raise `k`
(R152, R153). -/
def WriteRaises (s : State) (v : Word) (k : ErrorKind) : Prop :=
  (k = .illegalCommand ∧ (v.extractLsb' 32 32 ≠ 0#32 ∨ ∃ r, decode (v.extractLsb' 0 32) = .illegal r)) ∨
    (v.extractLsb' 32 32 = 0#32 ∧ ∃ i, decode (v.extractLsb' 0 32) = .command i ∧ raiseTable s i = some k)

/-- A write to the number of an X register writes that register, in error hold as well (R34, R35). -/
theorem hostWrite_setWidth (run : Instr → State → Result) (r : Reg) (v : Word) (s : State) :
    hostWrite run (r.setWidth 5) v s = .next (s.writeX r v) := by
  simp only [hostWrite, portX_setWidth]

/-- A write to ERRACK is the acknowledge, whatever it carries (R34, R157). -/
theorem hostWrite_errack (run : Instr → State → Result) (v : Word) (s : State) :
    hostWrite run 0x12#5 v s = .next s.acknowledge := rfl

/-- Reset and the ERRACK write leave the unit ready (R157, R170). -/
theorem perform_of_returnsReady {e : HostEvent} {s t : State} (he : ReturnsReady e)
    (h : perform exec e s = .next t) : t.err = .none := by
  obtain rfl | ⟨v, rfl⟩ := he <;> cases h <;> rfl

/-- Every event but a CMD write and those that return from error hold leaves `ERR` and `FCMD` alone (R34, R35,
R38). -/
theorem perform_of_other {e : HostEvent} {s t : State} (hcmd : ∀ v, e ≠ .write 0x10#5 v) (he : ¬ ReturnsReady e)
    (h : perform exec e s = .next t) : t.err = s.err ∧ t.fcmd = s.fcmd := by
  obtain ⟨hreset, herrack⟩ := not_or.1 he
  cases e with
  | read n => cases h; exact ⟨rfl, rfl⟩
  | reset => exact absurd rfl hreset
  | write n v =>
    rcases hostWrite_cases exec n v s with ⟨r, -, hw⟩ | ⟨rfl, -⟩ | ⟨rfl, -⟩ | ⟨-, -, -, hw⟩
    · cases hw.symm.trans h; exact ⟨rfl, rfl⟩
    · exact absurd rfl (hcmd v)
    · exact absurd ⟨v, rfl⟩ herrack
    · cases hw.symm.trans h; exact ⟨rfl, rfl⟩

/-- In error hold every event but those that return from it leaves `ERR` and `FCMD` alone: a CMD write is dropped
(R156). -/
theorem perform_of_held {e : HostEvent} {s t : State} (hheld : s.err ≠ .none) (he : ¬ ReturnsReady e)
    (h : perform exec e s = .next t) : t.err = s.err ∧ t.fcmd = s.fcmd := by
  by_cases hcmd : ∃ v, e = .write 0x10#5 v
  · obtain ⟨v, rfl⟩ := hcmd
    cases (issue_dropped exec v hheld).symm.trans h
    exact ⟨rfl, rfl⟩
  · exact perform_of_other (not_exists.1 hcmd) he h

/-- A CMD write to a ready unit latches the error it raises, if there is one (R50, R152). -/
theorem issue_latched_iff {v : Word} {s t : State} {k : ErrorKind} (hready : s.err = .none)
    (h : issue exec v s = .next t) : t.err = .latched k ↔ WriteRaises s v k := by
  rcases issue_cases exec v s with ⟨hheld, -⟩ | ⟨-, hillegal, hissue⟩ | ⟨-, hupper, i, hi, hissue⟩
  · exact absurd hready hheld
  · cases hissue.symm.trans h
    have hlegal : ¬ (v.extractLsb' 32 32 = 0#32 ∧ ∃ i, decode (v.extractLsb' 0 32) = .command i ∧
        raiseTable s i = some k) := by
      rintro ⟨hupper, i, hi, -⟩
      simp [hupper, hi] at hillegal
    rw [State.raise_err, Err.latched.injEq, WriteRaises, or_iff_left hlegal, and_iff_left hillegal, eq_comm]
  · obtain ⟨-, hw⟩ := encodeOfDecode _ i hi
    rw [exec_latched_iff hw hready (hissue.symm.trans h)]
    simp [WriteRaises, hupper, hi]

/-- A ready unit goes to error hold exactly by a CMD write that raises (R169). -/
theorem perform_latched_iff {e : HostEvent} {s t : State} {k : ErrorKind} (hready : s.err = .none)
    (h : perform exec e s = .next t) : t.err = .latched k ↔ ∃ v, e = .write 0x10#5 v ∧ WriteRaises s v k := by
  by_cases hcmd : ∃ v, e = .write 0x10#5 v
  · obtain ⟨v, rfl⟩ := hcmd
    simpa using issue_latched_iff hready h
  · have herr : t.err = .none := by
      by_cases he : ReturnsReady e
      · exact perform_of_returnsReady he h
      · exact (perform_of_other (not_exists.1 hcmd) he h).1.trans hready
    constructor
    · intro hlatched
      rw [herr] at hlatched
      cases hlatched
    · rintro ⟨v, hv, -⟩
      exact absurd ⟨v, hv⟩ hcmd

/-- Everything a step can do: with nothing to come the unit is idle, otherwise the next event is performed (R12,
R168). -/
theorem step_next {s t : State} (h : step s = .next t) : (s.inbox = [] ∧ t = s) ∨
    ∃ e rest, s.inbox = e :: rest ∧ perform exec e { s with inbox := rest } = .next t := by
  cases hinbox : s.inbox with
  | nil => exact Or.inl ⟨rfl, (Host.Outcome.next.inj ((step_nil hinbox).symm.trans h)).symm⟩
  | cons e rest => exact Or.inr ⟨e, rest, rfl, (step_cons hinbox).symm.trans h⟩

/-! ## Error hold -/

/-- A step in error hold drops a CMD write (R156). -/
theorem step_dropped {s : State} {v : Word} {rest : List HostEvent} (hheld : s.err ≠ .none)
    (h : s.inbox = .write 0x10#5 v :: rest) : step s = .next { s with inbox := rest } := by
  rw [step_write h, hostWrite_cmd]
  exact issue_dropped exec v hheld

/-- In error hold a run of CMD writes takes them from the host and does nothing else (R156). -/
theorem run_dropped (vs : List Word) (s : State) (rest : List HostEvent) (hheld : s.err ≠ .none)
    (h : s.inbox = vs.map (HostEvent.write 0x10#5) ++ rest) :
    Sys2Proof.core.run vs.length s = .next { s with inbox := rest } := by
  induction vs generalizing s with
  | nil => subst h; rfl
  | cons v vs ih =>
    rw [List.length_cons, run_succ _ (step_dropped hheld h)]
    exact ih _ hheld rfl

/-- The step on an ERRACK write is the acknowledge (R157). -/
theorem step_errack {s : State} {v : Word} {rest : List HostEvent} (h : s.inbox = .write 0x12#5 v :: rest) :
    step s = .next { s with inbox := rest, err := .none } :=
  step_write h

/-- Settles O9. -/
theorem errorHoldDropsCommands : Obligations.ErrorHoldDropsCommands := by
  refine ⟨run_dropped, fun s n rest _ h => step_read h, fun s r v rest _ h => ?written,
    fun s v rest _ h => ⟨_, step_errack h, rfl⟩⟩
  case written => exact ⟨_, (step_write h).trans (hostWrite_setWidth exec r v _), writesOnly_writeX _ r v⟩

/-- Settles O10: with no transaction to come a step is idle, and any other transaction keeps `ERR`. -/
theorem acknowledgeReturns : Obligations.AcknowledgeReturns := by
  refine ⟨fun s v rest h => step_errack h, fun s t hheld h hready => ?leaves⟩
  case leaves =>
    rcases step_next h with ⟨-, rfl⟩ | ⟨e, rest, hinbox, hperform⟩
    · exact absurd hready hheld
    · have hreturns : ReturnsReady e := by
        by_contra he
        obtain ⟨herr, -⟩ := perform_of_held (s := { s with inbox := rest }) hheld he hperform
        exact hheld (herr.symm.trans hready)
      exact ⟨rest, by simpa [hinbox, ReturnsReady] using hreturns⟩

/-- Settles O13: from Ready by `perform_latched_iff`, and in error hold by whether the event returns from it. -/
theorem errorTransitions : Obligations.ErrorTransitions := by
  intro s t h
  rcases step_next h with ⟨hinbox, rfl⟩ | ⟨e, rest, hinbox, hperform⟩ <;> rw [hinbox]
  case inr =>
    refine ⟨fun hready k => perform_latched_iff (s := { s with inbox := rest }) hready hperform,
      fun k hk => ⟨fun he => perform_of_returnsReady he hperform, fun he => ?stays⟩⟩
    case stays =>
      have hheld : s.err ≠ .none := by simp [hk]
      exact (perform_of_held (s := { s with inbox := rest }) hheld he hperform).1.trans hk

/-! ## A latched error is explained by FCMD -/

/-- Whether the latched error is explained is a matter of `ERR` and `FCMD` alone. -/
theorem ErrorExplained.congr {s t : State} (hs : ErrorExplained s) (herr : t.err = s.err) (hfcmd : t.fcmd = s.fcmd) :
    ErrorExplained t := by
  intro k hk
  rw [hfcmd]
  exact hs k (herr ▸ hk)

/-- An error a CMD write latches is explained: the word it leaves in FCMD is the one it carried, and its command is
one the table lets raise that kind (R152, R154). -/
theorem errorExplained_of_issue {v : Word} {s t : State} (hready : s.err = .none) (h : issue exec v s = .next t) :
    ErrorExplained t := by
  intro k hk
  rcases (issue_latched_iff hready h).1 hk with ⟨rfl, -⟩ | ⟨hupper, i, hi, htable⟩
  · exact Or.inl rfl
  · obtain ⟨-, hw⟩ := encodeOfDecode _ i hi
    obtain ⟨u, hexec, -, -, hfcmd, -⟩ := raises_of_raiseTable hw htable
    have hrun : exec i s = .next t := (issue_command exec hready hupper hi).symm.trans h
    cases hexec.symm.trans hrun
    exact Or.inr ⟨i, hfcmd ▸ decode_encode i hw, mem_mayRaise htable⟩

/-- Every host event keeps a latched error explained. -/
theorem perform_errorExplained {e : HostEvent} {s t : State} (hs : ErrorExplained s)
    (h : perform exec e s = .next t) : ErrorExplained t := by
  by_cases he : ReturnsReady e
  · exact errorExplained_of_ready (perform_of_returnsReady he h)
  by_cases hready : s.err = .none
  · by_cases hcmd : ∃ v, e = .write 0x10#5 v
    · obtain ⟨v, rfl⟩ := hcmd
      exact errorExplained_of_issue hready h
    · obtain ⟨herr, hfcmd⟩ := perform_of_other (not_exists.1 hcmd) he h
      exact hs.congr herr hfcmd
  · obtain ⟨herr, hfcmd⟩ := perform_of_held hready he h
    exact hs.congr herr hfcmd

/-- Settles O17: a step is idle or performs the host's next event. -/
theorem errorExplainedInvariant : Obligations.ErrorExplainedInvariant := by
  intro s t hs h
  rcases step_next h with ⟨-, rfl⟩ | ⟨e, rest, -, hperform⟩
  · exact hs
  · have hrest : ErrorExplained { s with inbox := rest } := hs.congr rfl rfl
    exact perform_errorExplained hrest hperform

end Sys2Proof.Machine
end

section
/-!
The obligations on reset and hazards (spec/70_reset_and_hazards.md): every step answers a next state under every
accepted configuration (R171, R176), and with no transaction to come it is the same state (R168, R170).
-/

namespace Sys2Proof.Machine

/-! ## Where every command answers, every step does -/

section

variable {run : Instr → State → Result}
  (hrun : ∀ (i : Instr) (s : State), i.wellFormed = true → ∃ t, run i s = .next t)

include hrun

/-- A CMD write answers a next state: the decoder hands on well-formed commands alone (R50, R53). -/
theorem issue_answers (v : Word) (s : State) : ∃ t, issue run v s = .next t := by
  rcases issue_cases run v s with ⟨-, hdropped⟩ | ⟨-, -, hillegal⟩ | ⟨-, -, i, hi, hcommand⟩
  · exact ⟨_, hdropped⟩
  · exact ⟨_, hillegal⟩
  · obtain ⟨-, hw⟩ := encodeOfDecode _ i hi
    rw [hcommand]
    exact hrun i s hw

/-- A host write answers a next state (R34). -/
theorem hostWrite_answers (n : PortReg) (v : Word) (s : State) : ∃ t, hostWrite run n v s = .next t := by
  rcases hostWrite_cases run n v s with ⟨r, -, hx⟩ | ⟨-, hcmd⟩ | ⟨-, herrack⟩ | ⟨-, -, -, hignored⟩
  · exact ⟨_, hx⟩
  · rw [hcmd]
    exact issue_answers hrun v s
  · exact ⟨_, herrack⟩
  · exact ⟨_, hignored⟩

/-- Every event at the unit's inputs answers a next state (R40, R170). -/
theorem perform_answers (e : HostEvent) (s : State) : ∃ t, perform run e s = .next t := by
  cases e with
  | read n => exact ⟨_, rfl⟩
  | write n v => exact hostWrite_answers hrun n v s
  | reset => exact ⟨_, rfl⟩

/-- A step answers a next state, whether there is an event to perform or none (R168, R176). -/
theorem transact_answers (s : State) : ∃ t, transact run s = .next t := by
  unfold transact
  split
  next => exact ⟨s, rfl⟩
  next e rest _ => exact perform_answers hrun e _

end

/-! ## Every command answers -/

/-- The completion of a command answers a next state, unless a table index had no entry (R33, R50). -/
theorem finish_answers (w : CmdWord) (rd : Reg) {r : Res} (s : State) (hr : r ≠ .noEntry) :
    ∃ t, finish w rd r s = .next t := by
  cases r with
  | noEntry => exact absurd rfl hr
  | value | any | divideByZero | domainError => exact ⟨_, rfl⟩

/-- Under every accepted configuration every command answers a next state: no table index lacks its entry (R123,
R176). -/
theorem execWith_answers (c : Configuration) (i : Instr) (s : State) (hw : i.wellFormed = true) :
    ∃ t, execWith c i s = .next t := by
  rw [execWith_eq_finish c i s hw]
  exact finish_answers _ _ s (answer_ne_noEntry c i s hw)

/-! ## The step -/

/-- Settles O15: every command answers under every accepted configuration, so every step does. -/
theorem stepTotal : Obligations.StepTotal :=
  ⟨fun c s => transact_answers (execWith_answers c) s, fun s => (stepWith_fmu s).symm, rfl⟩

/-- Settles O14. -/
theorem idleHoldsState : Obligations.IdleHoldsState := fun _ hinbox => step_nil hinbox

end Sys2Proof.Machine
end
